-- ==== Sys2Proof/Word.lean ====
section
/-! DEFINITION. The plain data types of the scrypt block: bytes, 32-bit words and the fixed-length byte registers.

`spec/00_scope.md` R6, R8: a byte is 8 bits, a word 32 bits, a block 64 bytes, a MAC output 32 bytes. Nothing of the
hardware is signed. All arithmetic on sizes, offsets and counts is on `Nat` (R7). -/

namespace Sys2Proof

/-- A byte (R8). -/
abbrev Byte := BitVec 8

/-- A 32-bit word: the width `WORD` of the Salsa20/8 core and `REGW` of every host-visible register (R6). -/
abbrev Word := BitVec 32

/-- `BLOCK`: 64 bytes, the unit the Salsa20/8 core transforms (R6). -/
abbrev Block := Vector Byte 64

/-- `HLEN`: 32 bytes, the output of the keyed MAC (R6). -/
abbrev Digest := Vector Byte 32

end Sys2Proof
end

