-- ==== Sys2Proof/Syntax.lean ====
section
/-! DEFINITION. The instructions of the block: the nine rows of `spec/opcode_table.json`, one constructor each.

An instruction of this hardware is a command, one 32-bit word written to the register CMD (`spec/30_encoding.md` R90).
An operand is an index, so it is a `Nat`; that it fits the 24-bit field is checked in `WellFormed.lean`. -/

namespace Sys2Proof

inductive Instr where
  /-- `SALSA k`: the Salsa20/8 core on block `k` of XY (R110) -/
  | salsa (k : Nat)
  /-- `BMIX`: BlockMix on the X region of XY (R130) -/
  | bmix
  /-- `ROMIX lane`: ROMix on one lane of B (R146) -/
  | romix (lane : Nat)
  /-- `PBKDF2 S, B` (R166) -/
  | pbkdf2SB
  /-- `PBKDF2 S, DK` (R166) -/
  | pbkdf2SDk
  /-- `PBKDF2 B, DK` (R166) -/
  | pbkdf2BDk
  /-- `MACKEY`: key the MAC with the password (R190) -/
  | mackey
  /-- `VALID`: the parameter validator (R192) -/
  | valid
  /-- `CLRERR`: clear the sticky error (R198) -/
  | clrerr
  deriving DecidableEq, Repr

end Sys2Proof
end

