-- ==== Sys2Proof/WellFormed.lean ====
section
/-! DEFINITION. Which terms of `Instr` are instructions: an operand fits the 24-bit field `arg` (`spec/30_encoding.md`
R90, R91; `spec/40_salsa20_8.md` R110: "blocks with `k ≥ 2^24` cannot be named by the 24-bit field"). -/

namespace Sys2Proof

/-- An operand that the field `arg = bits[31:8]` can hold. -/
def fitsArg (n : Nat) : Bool := decide (n < 2 ^ 24)

def Instr.wellFormed : Instr → Bool
  | .salsa k => fitsArg k
  | .bmix => true
  | .romix lane => fitsArg lane
  | .pbkdf2SB => true
  | .pbkdf2SDk => true
  | .pbkdf2BDk => true
  | .mackey => true
  | .valid => true
  | .clrerr => true

end Sys2Proof
end

