-- ==== Sys2Proof/Decode.lean ====
section
/-! DEFINITION. The decoder, total on all `2^32` command words and rejecting by name, and the encoder.

`spec/30_encoding.md` R90 to R95 and R101. -/

namespace Sys2Proof

/-- Why a command word is not a command (R95). -/
inductive IllegalWord where
  /-- `op = 0x00` or `op = 0x08 .. 0xFF` (R92) -/
  | reservedOp
  /-- an operand field that must be 0 is not (R94) -/
  | nonzeroOperand
  /-- PBKDF2 with source B and destination B (R93) -/
  | sourceIsDestination
  deriving DecidableEq, Repr

/-- What a command word says. -/
inductive Decoded where
  | instr (i : Instr)
  | illegal (why : IllegalWord)
  deriving DecidableEq, Repr

/-- `op = bits[7:0]` (R91). -/
def opField (w : Word) : BitVec 8 := w.extractLsb' 0 8

/-- `arg = bits[31:8]`, unsigned (R91). -/
def argField (w : Word) : BitVec 24 := w.extractLsb' 8 24

/-- A command whose `arg` must be 0 (R94). -/
def noOperand (arg : BitVec 24) (i : Instr) : Decoded :=
  if arg = 0#24 then .instr i else .illegal .nonzeroOperand

/-- The operand of PBKDF2 (R93): `src = arg[0]`, `dst = arg[1]`, `arg[23:2]` must be 0. -/
def pbkdf2Operand (arg : BitVec 24) : Decoded :=
  if arg.extractLsb' 2 22 ≠ 0#22 then .illegal .nonzeroOperand
  else match arg.getLsbD 0, arg.getLsbD 1 with
    | false, false => .instr .pbkdf2SB
    | false, true => .instr .pbkdf2SDk
    | true, true => .instr .pbkdf2BDk
    | true, false => .illegal .sourceIsDestination

/-- The decoder (R92 to R95). -/
def decode (w : Word) : Decoded :=
  if opField w = 0x01#8 then .instr (.salsa (argField w).toNat)
  else if opField w = 0x02#8 then noOperand (argField w) .bmix
  else if opField w = 0x03#8 then .instr (.romix (argField w).toNat)
  else if opField w = 0x04#8 then pbkdf2Operand (argField w)
  else if opField w = 0x05#8 then noOperand (argField w) .mackey
  else if opField w = 0x06#8 then noOperand (argField w) .valid
  else if opField w = 0x07#8 then noOperand (argField w) .clrerr
  else .illegal .reservedOp

/-- The operation code of an instruction (R92). -/
def Instr.op : Instr → Nat
  | .salsa _ => 0x01
  | .bmix => 0x02
  | .romix _ => 0x03
  | .pbkdf2SB => 0x04
  | .pbkdf2SDk => 0x04
  | .pbkdf2BDk => 0x04
  | .mackey => 0x05
  | .valid => 0x06
  | .clrerr => 0x07

/-- The operand field of an instruction (R92, R93). -/
def Instr.arg : Instr → Nat
  | .salsa k => k
  | .bmix => 0
  | .romix lane => lane
  | .pbkdf2SB => 0
  | .pbkdf2SDk => 2
  | .pbkdf2BDk => 3
  | .mackey => 0
  | .valid => 0
  | .clrerr => 0

/-- The encoder: "the one 32-bit word `op + 2^8·arg`" (R98). -/
def encode (i : Instr) : Word := BitVec.ofNat 32 (i.op + 2 ^ 8 * i.arg)

/-- The command word of an instruction given as a number, bit 0 the least significant; bits from `nbits` up are 0. -/
def tableWord (nbits w : Nat) : Word := BitVec.ofNat 32 (w % 2 ^ nbits)

/-- The decoder as the host's table asks it. The register interface moves a whole 32-bit word, which has no byte order
(`spec/20_memory.md` R73), so the table's number is the command word. -/
def decodeTableWord (nbits w : Nat) : Option Instr :=
  match decode (tableWord nbits w) with
  | .instr i => some i
  | .illegal _ => none

end Sys2Proof
end

