-- ==== Sys2Proof/Machine/Bytes.lean ====
section
/-! DEFINITION. The pseudocode primitives of `spec/00_scope.md` R12 to R18: modular words, byte orders, XOR of byte
sequences, and the arithmetic of sizes on the natural numbers. -/

namespace Sys2Proof.Machine

/-- R12: unsigned 32-bit modular addition. -/
def add32 (a b : Word) : Word := a + b

/-- R13: left rotation of a word by `1 ≤ n ≤ 31`. -/
def rotl32 (x : Word) (n : Nat) : Word := (x <<< n) ||| (x >>> (32 - n))

/-- R14: four bytes as a little-endian word. -/
def le32 (b0 b1 b2 b3 : Byte) : Word :=
  BitVec.ofNat 32 (b0.toNat + 2 ^ 8 * b1.toNat + 2 ^ 16 * b2.toNat + 2 ^ 24 * b3.toNat)

/-- `bits[8k+7 : 8k]` of a word. -/
def byteOf (w : Word) (k : Nat) : Byte := w.extractLsb' (8 * k) 8

/-- R15: the four bytes of a word, the most significant first. -/
def be32Bytes (w : Word) : List Byte := [byteOf w 3, byteOf w 2, byteOf w 1, byteOf w 0]

/-- R70: the sixteen little-endian words of a block. -/
def blockWords (b : Block) : Vector Word 16 :=
  Vector.ofFn fun i => le32 b[4 * i.val] b[4 * i.val + 1] b[4 * i.val + 2] b[4 * i.val + 3]

/-- R70: the block whose little-endian words these are. -/
def wordsBlock (w : Vector Word 16) : Block :=
  Vector.ofFn fun k => byteOf w[k.val / 4] (k.val % 4)

/-- R16 on byte sequences of one length. -/
def xorBytes (a b : List Byte) : List Byte := List.zipWith (· ^^^ ·) a b

/-- R16 on byte registers of one length. -/
def xorVec {n : Nat} (a b : Vector Byte n) : Vector Byte n := Vector.zipWith (· ^^^ ·) a b

/-- R17: `ceil(a / b)`, `b > 0`. -/
def ceilDiv (a b : Nat) : Nat := (a + b - 1) / b

/-- R18: `n` is a power of two. -/
def isPow2 (n : Nat) : Bool := decide (n ≠ 0) && decide (n &&& (n - 1) = 0)

/-- `n` turns of a loop whose counter runs 0, 1, …, `n - 1`. -/
def loop {σ : Type} (body : Nat → σ → σ) : Nat → σ → σ
  | 0, s => s
  | n + 1, s => body n (loop body n s)

end Sys2Proof.Machine
end

