-- ==== Sys2Proof/Config.lean ====
section
/-! DEFINITION. What an instance of the block fixes, and the free values.

`spec/00_scope.md` R6 lists the open parameters, `spec/10_state.md` R48 says that they are configuration: fixed for an
instance, changed by no command and by no reset, readable through no register. They are plain data, so every statement
about a state holds for every value of them. The three `opaque` constants are the values the spec leaves free. -/

namespace Sys2Proof

/-- The six disjoint byte-addressed buffer spaces (`spec/20_memory.md` R60). -/
inductive Space where
  | pw
  | s
  | b
  | v
  | xy
  | dk
  deriving DecidableEq, Repr

/-- Which function the open parameter `MAC` is (R6, R224): the default, or some other total function, of which nothing
is known (`Config.otherMac`). -/
inductive MacChoice where
  | hmacSha256
  | other (id : Nat)
  deriving DecidableEq, Repr

/-- The open implementation parameters of R6. -/
structure Config where
  /-- `MAX`, the bound of "the addressable size domain" the validator uses -/
  max : Nat
  capPw : Nat
  capS : Nat
  capB : Nat
  capV : Nat
  capXy : Nat
  capDk : Nat
  /-- `MAC_PRESENT`: whether the HMAC-SHA256 collaborator exists -/
  macPresent : Bool
  /-- `MAC` -/
  mac : MacChoice
  /-- `BASE_REG`: where the platform places the register block on its bus -/
  baseReg : Nat
  basePw : Nat
  baseS : Nat
  baseB : Nat
  baseV : Nat
  baseXy : Nat
  baseDk : Nat
  deriving DecidableEq, Repr

/-- `CAP_<space>`: the number of bytes of a buffer space (R60). -/
def Config.cap (c : Config) : Space → Nat
  | .pw => c.capPw
  | .s => c.capS
  | .b => c.capB
  | .v => c.capV
  | .xy => c.capXy
  | .dk => c.capDk

/-- `BASE_<space>`: where the platform places a buffer space on its bus (R69). -/
def Config.base (c : Config) : Space → Nat
  | .pw => c.basePw
  | .s => c.baseS
  | .b => c.baseB
  | .v => c.baseV
  | .xy => c.baseXy
  | .dk => c.baseDk

/-- FREE VALUE (log entry 1). The byte at an offset of a buffer space that nothing has written since the reset number
`epoch`: unspecified (R50 to R52), the same at every read until it is written (R68). It has no body, so no proof can
use a value of it. -/
opaque Config.residue (epoch : Nat) (sp : Space) (off : Nat) : Byte

/-- FREE VALUE (log entry 3). The MAC of an instance whose `MAC` is not the default: some total deterministic function
from a key and a message to 32 bytes (R224). -/
opaque Config.otherMac (id : Nat) (key message : List Byte) : Digest

/-- FREE VALUE (DESIGN CHOICE, log entry 13). SHA-256 of a message of `2^61` bytes or more, to which
`spec/47_hmac_sha256_collaborator.md` R227 gives no value although R224 makes `MAC` total. -/
opaque Config.overlongDigest (message : List Byte) : Digest

end Sys2Proof
end

