-- ==== Sys2Proof/Machine/Defaults.lean ====
section
/-! DEFINITION. The instance that `State.reset` describes: the defaults of `spec/00_scope.md` R6 where it gives one, and the
capacities that `spec/95_test_vectors.md` section 8 assumes for its programs (log entry 4). -/

namespace Sys2Proof

/-- `MAX = 2^31 − 1`, `MAC_PRESENT` true and `MAC` = HMAC-SHA256 are the defaults of R6. The capacities are those of the
spec's programs (DESIGN CHOICE, log entry 4) and so is the placement, one behind the other. -/
def Config.standard : Config where
  max := 2 ^ 31 - 1
  capPw := 64
  capS := 64
  capB := 4096
  capV := 65536
  capXy := 1024
  capDk := 128
  macPresent := true
  mac := .hmacSha256
  baseReg := 0x00000
  basePw := 0x01000
  baseS := 0x02000
  baseB := 0x04000
  baseV := 0x10000
  baseXy := 0x08000
  baseDk := 0x03000

end Sys2Proof
end

