-- ==== Sys2Proof/Machine/State.lean ====
section
/-! DEFINITION. The state of the block as plain data, and the state after reset.

`spec/10_state.md` (registers, STATUS, sequencer position, the MAC's hidden state, reset values) and `spec/20_memory.md`
(the buffer spaces). What is the model's own and not the spec's is said at the field. -/

namespace Sys2Proof.Machine

/-- The error codes (`spec/60_exceptions.md` R241). No other code is ever produced, so none is in the type
(`spec/93_implementation_defined.md` U19). -/
inductive ErrCode where
  | noError
  | nNotPow2
  | nTooLarge
  | rTooLarge
  | keylenTooLong
  | zeroParameter
  | algorithmUnavailable
  | illegalCommand
  | notKeyed
  | capacity
  | badIndex
  deriving DecidableEq, Repr

/-- The fields of STATUS (R30). The reserved bits read as 0 and a write to STATUS is ignored, so they are no state. -/
structure Status where
  /-- BUSY (R31) -/
  busy : Bool
  /-- DONE (R32) -/
  done : Bool
  /-- ERR, sticky (R33) -/
  err : Bool
  /-- KEYED (R34) -/
  keyed : Bool
  /-- ERRCODE (R35) -/
  errcode : ErrCode
  deriving DecidableEq, Repr

/-- The seven read-write host registers (R24 to R28), 32 bits each. -/
structure ParamRegs where
  n : Word
  r : Word
  p : Word
  plen : Word
  slen : Word
  olen : Word
  iter : Word
  deriving DecidableEq, Repr

/-- The working registers (R20 to R22). The host reaches none of them, and every command writes those it uses before it
reads them (R23). -/
structure WorkRegs where
  /-- `in[0..15]`, the words of the input block -/
  inw : Vector Word 16
  /-- `x[0..15]`, the words being permuted -/
  x : Vector Word 16
  /-- `Xb`, the running block of BlockMix -/
  xb : Block
  /-- `j`, the slot index of ROMix -/
  j : Word
  /-- `ctr`, the block counter of PBKDF2 -/
  ctr : Word
  /-- `U`, the current `U_j` of PBKDF2 -/
  u : Digest
  /-- `T`, the accumulating `T_i` of PBKDF2 -/
  t : Digest
  deriving DecidableEq, Repr

/-- The hidden state of the keyed MAC (R45). `key` means something only while KEYED is 1. -/
structure MacState where
  key : List Byte
  /-- the message bytes absorbed since the last `finalize` -/
  buf : List Byte
  deriving DecidableEq, Repr

/-- The part of a command, with its loop counters (R41). `blocks i t`: the next MAC call is number `t` of block `i`. -/
inductive Phase where
  | check
  | core (t : Nat)
  | loadX
  | step (i : Nat)
  | even (i : Nat)
  | odd (i : Nat)
  | copyIn
  | fill (i : Nat)
  | mix (i : Nat)
  | copyOut
  | blocks (i t : Nat)
  | exec
  deriving DecidableEq, Repr

/-- The sequencer position `pos = (op, phase, i, t)` (R40), the analogue of a program counter. -/
inductive Pos where
  | idle
  | running (op : Instr) (phase : Phase)
  deriving DecidableEq, Repr

/-- The bytes of one buffer space that something has written since reset: (offset, byte) pairs. An offset that is not
listed holds no known byte: `Config.residue` says what it reads as. -/
abbrev Cells := List Host.Cell

/-- The six buffer spaces (`spec/20_memory.md` R60). -/
structure Memory where
  pw : Cells
  s : Cells
  b : Cells
  v : Cells
  xy : Cells
  dk : Cells
  deriving DecidableEq, Repr

/-- One access of the host (`spec/30_encoding.md` R99, `spec/10_state.md` R37, `spec/20_memory.md` R68), or reset
(`spec/70_reset_and_hazards.md` R270). -/
inductive HostAccess where
  /-- `WR`: a 32-bit write at a byte offset of the register block -/
  | regWrite (off : Nat) (v : Word)
  /-- `RD`: a 32-bit read at a byte offset of the register block -/
  | regRead (off : Nat)
  /-- an access to the register block whose width is not 32 bits (R38) -/
  | regSized (off bits : Nat)
  /-- one byte of `LD` -/
  | bufWrite (sp : Space) (off : Nat) (v : Byte)
  /-- one byte of `ST` -/
  | bufRead (sp : Space) (off : Nat)
  /-- the reset input -/
  | reset
  /-- the host makes no access for now -/
  | pause
  deriving DecidableEq, Repr

/-- What a host read returned. -/
inductive HostReply where
  | word (v : Word)
  | byte (v : Byte)
  deriving DecidableEq, Repr

/-- The state of the block, its configuration, and the host's side of the interface. -/
structure State where
  /-- the configuration (R6, R48): no step changes it -/
  cfg : Config
  regs : ParamRegs
  status : Status
  pos : Pos
  work : WorkRegs
  mac : MacState
  mem : Memory
  /-- the model's own: how many resets there have been, the argument of `Config.residue` (log entry 1) -/
  epoch : Nat
  /-- the model's own: the host accesses still to be made, the next one first (log entry 6) -/
  port : List HostAccess
  /-- the model's own: what the latest host read returned, if there was one (log entry 6) -/
  reply : Option HostReply
  deriving DecidableEq, Repr

/-- Why the model stops: no error of the hardware is among these (an error is a next state, R250). -/
inductive Fault where
  /-- raised by a host read or write of a buffer offset at or above `CAP_<space>`: the spec says that the space has no
  such byte (R60). Safe: the hardware has no access of that kind. -/
  | bufferOffsetOutsideSpace (sp : Space) (off : Nat)
  deriving DecidableEq, Repr

/-- What is outside the spec and refused by its own words. -/
inductive Refusal where
  /-- an instruction without a meaning; no arm of `exec` answers with it. Safe. -/
  | notModelled (mnemonic : String)
  /-- raised by a host access other than a read of STATUS while BUSY is 1 (R37, R68; U3: "a model refuses it"). Safe. -/
  | hostAccessWhileBusy
  /-- raised by an access to an offset of the register block that is no register, or is not 4-byte aligned (R38; U4: "a
  model refuses them"). Safe. -/
  | registerOffsetNotDefined (off : Nat)
  /-- raised by a register access narrower or wider than 32 bits (R38, U4). Safe. -/
  | registerWidthNotDefined (bits : Nat)
  deriving DecidableEq, Repr

/-- No byte written. -/
def Memory.empty : Memory := { pw := [], s := [], b := [], v := [], xy := [], dk := [] }

/-- The machine right after power-on reset (R50). The working registers and `mac_key`, to which R50 gives no value, are
0 and empty (DESIGN CHOICE, log entry 2): no command reads them before it writes them. -/
def State.reset : State where
  cfg := Config.standard
  regs := { n := 0, r := 0, p := 0, plen := 0, slen := 0, olen := 0, iter := 0 }
  status := { busy := false, done := false, err := false, keyed := false, errcode := .noError }
  pos := .idle
  work := { inw := Vector.replicate 16 0, x := Vector.replicate 16 0, xb := Vector.replicate 64 0, j := 0, ctr := 0,
            u := Vector.replicate 32 0, t := Vector.replicate 32 0 }
  mac := { key := [], buf := [] }
  mem := Memory.empty
  epoch := 0
  port := []
  reply := none

end Sys2Proof.Machine
end

