-- ==== Sys2Proof/Machine/Flags.lean ====
section
/-! DEFINITION. The status register: the code numbers, the word a host reads, and every change a command makes to a flag
(`spec/10_state.md` R30 to R36, `spec/60_exceptions.md` R241, R250, `spec/30_encoding.md` R96). There are no arithmetic
condition codes (R36). -/

namespace Sys2Proof.Machine

/-- The code numbers (R241). -/
def ErrCode.toByte : ErrCode → Byte
  | .noError => 0x00
  | .nNotPow2 => 0x01
  | .nTooLarge => 0x02
  | .rTooLarge => 0x03
  | .keylenTooLong => 0x04
  | .zeroParameter => 0x05
  | .algorithmUnavailable => 0x10
  | .illegalCommand => 0x20
  | .notKeyed => 0x21
  | .capacity => 0x22
  | .badIndex => 0x23

/-- The word a host reads from STATUS (R30). -/
def Status.toWord (st : Status) : Word :=
  (0#16 ++ st.errcode.toByte ++ 0#4 ++ BitVec.ofBool st.keyed ++ BitVec.ofBool st.err ++ BitVec.ofBool st.done
    ++ BitVec.ofBool st.busy : BitVec 32)

/-- A command starts: `STATUS.BUSY <- 1`, `STATUS.DONE <- 0` (R96 step 2). -/
def Status.begin (st : Status) : Status := { st with busy := true, done := false }

/-- A command ends without raising: `STATUS.BUSY <- 0`, `STATUS.DONE <- 1` (R96 step 6). -/
def Status.complete (st : Status) : Status := { st with busy := false, done := true }

/-- A command raises (R250 point 2). KEYED keeps its value. -/
def Status.raise (st : Status) (code : ErrCode) : Status :=
  { st with busy := false, done := false, err := true, errcode := code }

/-- `STATUS.ERR <- 0; STATUS.ERRCODE <- 0` (R198). -/
def Status.clearError (st : Status) : Status := { st with err := false, errcode := .noError }

/-- `STATUS.KEYED <- 1` (R190). -/
def Status.setKeyed (st : Status) : Status := { st with keyed := true }

end Sys2Proof.Machine
end

