-- ==== Sys2Proof/Machine/Ops.lean ====
section
/-! DEFINITION. The named operations over memory, registers and the MAC: all reads and writes of the state go through
these. Taking an error (`State.raise`) and returning from it (`State.clearError`) stand here, once. -/

namespace Sys2Proof.Machine

/-! ### One buffer space -/

/-- The byte last written at an offset since reset, if there was one. -/
def Cells.read : Cells → Nat → Option Byte
  | [], _ => none
  | (k, v) :: t, a => if a = k then some v else Cells.read t a

/-- Write one byte, keeping the list sorted by offset. -/
def Cells.write : Cells → Nat → Byte → Cells
  | [], a, b => [(a, b)]
  | (k, v) :: t, a, b =>
    if a < k then (a, b) :: (k, v) :: t
    else if a = k then (a, b) :: t
    else (k, v) :: Cells.write t a b

/-- The canonical form: offsets strictly rising. (An offset that is not listed reads as no known byte, so no listed byte
equals it.) -/
def Cells.wf : Cells → Bool
  | [] => true
  | [_] => true
  | (k, _) :: (k', v') :: t => decide (k < k') && Cells.wf ((k', v') :: t)

/-- Every listed offset is one the space has (R60). -/
def Cells.below (c : Cells) (cap : Nat) : Bool := c.all fun e => decide (e.1 < cap)

/-! ### The six spaces -/

def Memory.get (m : Memory) : Space → Cells
  | .pw => m.pw
  | .s => m.s
  | .b => m.b
  | .v => m.v
  | .xy => m.xy
  | .dk => m.dk

def Memory.set (m : Memory) (sp : Space) (c : Cells) : Memory :=
  match sp with
  | .pw => { m with pw := c }
  | .s => { m with s := c }
  | .b => { m with b := c }
  | .v => { m with v := c }
  | .xy => { m with xy := c }
  | .dk => { m with dk := c }

/-- Each of the six spaces is in canonical form. -/
def Memory.wf (m : Memory) : Bool :=
  m.pw.wf && m.s.wf && m.b.wf && m.v.wf && m.xy.wf && m.dk.wf

/-- No space lists a byte at an offset it does not have (R60). -/
def Memory.below (m : Memory) (c : Config) : Bool :=
  m.pw.below c.capPw && m.s.below c.capS && m.b.below c.capB && m.v.below c.capV && m.xy.below c.capXy
    && m.dk.below c.capDk

/-- What an offset that is not listed reads as: a free value, fixed until it is written (R50 to R52, R68). -/
def State.unlisted (s : State) (sp : Space) (off : Nat) : Byte := Config.residue s.epoch sp off

/-- `MemRead(SP:off, 1)`. -/
def State.readByte (s : State) (sp : Space) (off : Nat) : Byte :=
  ((s.mem.get sp).read off).getD (s.unlisted sp off)

/-- `MemWrite(SP:off, 1, v)`. -/
def State.writeByte (s : State) (sp : Space) (off : Nat) (v : Byte) : State :=
  { s with mem := s.mem.set sp ((s.mem.get sp).write off v) }

/-- `MemRead(SP:off, n)` (R10). -/
def State.readBytes (s : State) (sp : Space) (off n : Nat) : List Byte :=
  (List.range n).map fun k => s.readByte sp (off + k)

/-- `MemRead(SP:off, 64)`. -/
def State.readBlock (s : State) (sp : Space) (off : Nat) : Block :=
  Vector.ofFn fun k => s.readByte sp (off + k.val)

/-- `MemWrite(SP:off, n, v)` (R10): the bytes at offsets `off`, `off + 1`, …. -/
def State.writeBytes (s : State) (sp : Space) (off : Nat) : List Byte → State
  | [] => s
  | v :: vs => State.writeBytes (s.writeByte sp off v) sp (off + 1) vs

/-! ### The working registers -/

def State.setWork (s : State) (w : WorkRegs) : State := { s with work := w }

/-! ### Starting, ending and failing a command -/

/-- `STATUS.BUSY <- 1; STATUS.DONE <- 0` (R96 step 2). -/
def State.begin (s : State) : State := { s with status := s.status.begin }

/-- The command has ended without raising (R96 step 6). -/
def State.complete (s : State) : State := { s with status := s.status.complete, pos := .idle }

/-- TAKING AN ERROR: `raise <kind>(code)` (`spec/60_exceptions.md` R250). STATUS and `pos` change, nothing else: no
buffer byte, no other register, no hidden state; nothing is saved and control goes nowhere. -/
def State.raise (s : State) (code : ErrCode) : State := { s with status := s.status.raise code, pos := .idle }

/-- RETURN FROM AN ERROR: what CLRERR clears (R198, R252); there is nothing to restore. -/
def State.clearError (s : State) : State := { s with status := s.status.clearError }

/-- A whole command (R96 from step 2, R246): the checks in their order, the first that fails raising its code before
anything is changed; else the effect. While ERR is 1 the command is ignored entirely (R33, R96 step 1). -/
def runCommand (check : State → Option ErrCode) (effect : State → State) (s : State) :
    Host.Outcome State Fault Refusal :=
  if s.status.err then .next s
  else match check s with
    | some code => .next (s.begin.raise code)
    | none => .next (effect s.begin).complete

/-! ### Reset -/

/-- The reset event (`spec/70_reset_and_hazards.md` R270, `spec/10_state.md` R50, R51): every buffer byte is unspecified
anew, whatever it held. The configuration stays (R48); the host's side of the interface is no state of the block. -/
def State.resetEvent (s : State) : State :=
  { State.reset with cfg := s.cfg, epoch := s.epoch + 1, port := s.port, reply := s.reply }

end Sys2Proof.Machine
end

