-- ==== Sys2Proof/Machine/Operands.lean ====
section
/-! DEFINITION. The operand forms: the parameters a command reads from the registers, as natural numbers
(`spec/00_scope.md` R7), and every effective address the block forms (`spec/20_memory.md` R76). -/

namespace Sys2Proof.Machine

/-! ### Parameters: registers read when the command starts (R96 step 4); no command changes one (R24) -/

def State.pN (s : State) : Nat := s.regs.n.toNat
def State.pR (s : State) : Nat := s.regs.r.toNat
def State.pP (s : State) : Nat := s.regs.p.toNat
def State.pPlen (s : State) : Nat := s.regs.plen.toNat
def State.pSlen (s : State) : Nat := s.regs.slen.toNat
def State.pOlen (s : State) : Nat := s.regs.olen.toNat
def State.pIter (s : State) : Nat := s.regs.iter.toNat

/-! ### Sizes and effective addresses -/

/-- `SLOT(r) = L = 128·r`: the length of a lane, a slot and a region (R6, R145). -/
def slotLen (r : Nat) : Nat := 128 * r

/-- Lane `k` of B (R63). -/
def laneOff (r k : Nat) : Nat := k * slotLen r

/-- Slot `k` of V (R64). -/
def slotOff (r k : Nat) : Nat := k * slotLen r

/-- Block `k` of the X region of XY, and the block SALSA names (R65, R76). -/
def xBlockOff (k : Nat) : Nat := 64 * k

/-- Block `k` of the Y region of XY (R65). -/
def yBlockOff (r k : Nat) : Nat := slotLen r + 64 * k

/-- The Integerify word: the first four bytes of the last block of the X region (R71, R150). -/
def integerifyOff (r : Nat) : Nat := 64 * (2 * r - 1)

/-- PBKDF2 output block `i`, numbered from 1 (R76, R170). -/
def outBlockOff (i : Nat) : Nat := 32 * (i - 1)

/-- The length of PBKDF2 output block `i` (R170, R174). -/
def outBlockLen (outLen i : Nat) : Nat := min 32 (outLen - 32 * (i - 1))

/-- `l = ceil(outLen / 32)`: the number of PBKDF2 output blocks (R169). -/
def outBlocks (outLen : Nat) : Nat := ceilDiv outLen 32

/-- The greatest `outLen` of PBKDF2, `(2^32 − 1)·32` (R168). -/
def maxOutLen : Nat := (2 ^ 32 - 1) * 32

/-! ### The places on the platform's bus (R69) -/

/-- Where a register offset stands in the host's address map. -/
def regBusAddr (c : Config) (off : Nat) : Nat := c.baseReg + off

/-- Where a buffer offset stands in the host's address map. -/
def bufBusAddr (c : Config) (sp : Space) (off : Nat) : Nat := c.base sp + off

end Sys2Proof.Machine
end

