-- ==== Sys2Proof/Machine/Checks.lean ====
section
/-! DEFINITION. The checks of every command in their fixed order (`spec/60_exceptions.md` R246): a table of conditions
that fail, each with its code; the first that holds is raised. All products are over the naturals (R7). -/

namespace Sys2Proof.Machine

/-- The code of the first failing check, if one fails (R246). -/
def firstFailure : List (Bool × ErrCode) → Option ErrCode
  | [] => none
  | (fails, code) :: rest => if fails then some code else firstFailure rest

/-- The rows of `Validate(N, r, p)` (`spec/44_system_and_driver.md` R193). -/
def validateRows (max n r p : Nat) : List (Bool × ErrCode) :=
  [(decide (n < 2) || !isPow2 n, .nNotPow2),
   (decide (r = 0) || decide (p = 0), .zeroParameter),
   (decide (128 * r * n > max), .nTooLarge),
   (decide (128 * r * p > max), .rTooLarge)]

/-- `Validate(N, r, p)` (R193): the first code whose condition holds, or 0. -/
def validate (max n r p : Nat) : ErrCode := (firstFailure (validateRows max n r p)).getD .noError

/-- `SALSA k` (R110). -/
def checkSalsa (k : Nat) (s : State) : Option ErrCode :=
  firstFailure
    [(decide (s.pR = 0), .zeroParameter),
     (decide (k ≥ 4 * s.pR), .badIndex),
     (decide (256 * s.pR > s.cfg.capXy), .capacity)]

/-- `BMIX` (R130). -/
def checkBmix (s : State) : Option ErrCode :=
  firstFailure
    [(decide (s.pR = 0), .zeroParameter),
     (decide (256 * s.pR > s.cfg.capXy), .capacity)]

/-- `ROMIX lane` (R147). -/
def checkRomix (lane : Nat) (s : State) : Option ErrCode :=
  firstFailure (validateRows s.cfg.max s.pN s.pR s.pP ++
    [(decide (lane ≥ s.pP), .badIndex),
     (decide (slotLen s.pR * s.pP > s.cfg.capB) || decide (slotLen s.pR * s.pN > s.cfg.capV)
        || decide (2 * slotLen s.pR > s.cfg.capXy), .capacity)])

/-- `PBKDF2 src, dst` (R167, checks 2 to 5; check 1 is the decoder's). -/
def checkPbkdf2 (src dst : Space) (s : State) : Option ErrCode :=
  firstFailure
    [(!s.status.keyed, .notKeyed),
     (decide (s.pIter = 0), .zeroParameter),
     (decide (s.pOlen > maxOutLen), .keylenTooLong),
     (decide (s.pSlen > s.cfg.cap src) || decide (s.pOlen > s.cfg.cap dst), .capacity)]

/-- `MACKEY` (R190). -/
def checkMackey (s : State) : Option ErrCode :=
  firstFailure
    [(!s.cfg.macPresent, .algorithmUnavailable),
     (decide (s.pPlen > s.cfg.capPw), .capacity)]

/-- `VALID` (R192). -/
def checkValid (s : State) : Option ErrCode := firstFailure (validateRows s.cfg.max s.pN s.pR s.pP)

/-- `CLRERR` has no check (R198). -/
def checkClrerr (_ : State) : Option ErrCode := firstFailure []

/-- The table of R246, by command. -/
def checks : Instr → State → Option ErrCode
  | .salsa k => checkSalsa k
  | .bmix => checkBmix
  | .romix lane => checkRomix lane
  | .pbkdf2SB => checkPbkdf2 .s .b
  | .pbkdf2SDk => checkPbkdf2 .s .dk
  | .pbkdf2BDk => checkPbkdf2 .b .dk
  | .mackey => checkMackey
  | .valid => checkValid
  | .clrerr => checkClrerr

end Sys2Proof.Machine
end

