-- ==== Sys2Proof/Machine/Mac.lean ====
section
/-! DEFINITION. The keyed MAC collaborator (`spec/47_hmac_sha256_collaborator.md`): SHA-256 and HMAC-SHA256, which are the
default of the open parameter `MAC` (R226 to R232), and the three operations on the MAC's state (R220 to R223). -/

namespace Sys2Proof.Machine

/-! ### SHA-256 -/

/-- R228: right rotation of a word. -/
def rotr32 (x : Word) (n : Nat) : Word := (x >>> n) ||| (x <<< (32 - n))

/-- R228: `Ch`. -/
def shaCh (e f g : Word) : Word := (e &&& f) ^^^ (~~~e &&& g)

/-- R228: `Maj`. -/
def shaMaj (a b c : Word) : Word := (a &&& b) ^^^ (a &&& c) ^^^ (b &&& c)

/-- R228: `S0`. -/
def shaBigS0 (a : Word) : Word := rotr32 a 2 ^^^ rotr32 a 13 ^^^ rotr32 a 22

/-- R228: `S1`. -/
def shaBigS1 (e : Word) : Word := rotr32 e 6 ^^^ rotr32 e 11 ^^^ rotr32 e 25

/-- R228: `s0`. -/
def shaSmallS0 (w : Word) : Word := rotr32 w 7 ^^^ rotr32 w 18 ^^^ (w >>> 3)

/-- R228: `s1`. -/
def shaSmallS1 (w : Word) : Word := rotr32 w 17 ^^^ rotr32 w 19 ^^^ (w >>> 10)

/-- The eight words `a` to `h`, and the hash state `H[0..7]`. -/
structure ShaWords where
  a : Word
  b : Word
  c : Word
  d : Word
  e : Word
  f : Word
  g : Word
  h : Word
  deriving DecidableEq, Repr

/-- R229: the initial hash value. -/
def shaInit : ShaWords :=
  ⟨0x6a09e667, 0xbb67ae85, 0x3c6ef372, 0xa54ff53a, 0x510e527f, 0x9b05688c, 0x1f83d9ab, 0x5be0cd19⟩

/-- R230: the round constants `K[0..63]`. -/
def shaK : List Word :=
  [0x428a2f98, 0x71374491, 0xb5c0fbcf, 0xe9b5dba5, 0x3956c25b, 0x59f111f1, 0x923f82a4, 0xab1c5ed5] ++
  [0xd807aa98, 0x12835b01, 0x243185be, 0x550c7dc3, 0x72be5d74, 0x80deb1fe, 0x9bdc06a7, 0xc19bf174] ++
  [0xe49b69c1, 0xefbe4786, 0x0fc19dc6, 0x240ca1cc, 0x2de92c6f, 0x4a7484aa, 0x5cb0a9dc, 0x76f988da] ++
  [0x983e5152, 0xa831c66d, 0xb00327c8, 0xbf597fc7, 0xc6e00bf3, 0xd5a79147, 0x06ca6351, 0x14292967] ++
  [0x27b70a85, 0x2e1b2138, 0x4d2c6dfc, 0x53380d13, 0x650a7354, 0x766a0abb, 0x81c2c92e, 0x92722c85] ++
  [0xa2bfe8a1, 0xa81a664b, 0xc24b8b70, 0xc76c51a3, 0xd192e819, 0xd6990624, 0xf40e3585, 0x106aa070] ++
  [0x19a4c116, 0x1e376c08, 0x2748774c, 0x34b0bcb5, 0x391c0cb3, 0x4ed8aa4a, 0x5b9cca4f, 0x682e6ff3] ++
  [0x748f82ee, 0x78a5636f, 0x84c87814, 0x8cc70208, 0x90befffa, 0xa4506ceb, 0xbef9a3f7, 0xc67178f2]

/-- R231: the big-endian word at chunk bytes `4t .. 4t+3`. -/
def shaWord (chunk : List Byte) (t : Nat) : Word :=
  le32 (chunk.getD (4 * t + 3) 0) (chunk.getD (4 * t + 2) 0) (chunk.getD (4 * t + 1) 0) (chunk.getD (4 * t) 0)

/-- R231: `W[0], …, W[15]` of a chunk, the latest first. -/
def shaFirstWords (chunk : List Byte) : List Word := ((List.range 16).map (shaWord chunk)).reverse

/-- R231: the next word of the schedule, from those before it, the latest first. -/
def shaNextWord (w : List Word) : Word :=
  w.getD 15 0 + shaSmallS0 (w.getD 14 0) + w.getD 6 0 + shaSmallS1 (w.getD 1 0)

/-- R231: the schedule with `n` more words, the latest first. -/
def shaExtend : Nat → List Word → List Word
  | 0, w => w
  | n + 1, w => shaExtend n (shaNextWord w :: w)

/-- R231: the schedule `W[0..63]`. -/
def shaSchedule (chunk : List Byte) : List Word := (shaExtend 48 (shaFirstWords chunk)).reverse

/-- R231: one of the 64 rounds, with `K[t]` and `W[t]`. -/
def shaRound (v : ShaWords) (kw : Word × Word) : ShaWords :=
  let t1 := v.h + shaBigS1 v.e + shaCh v.e v.f v.g + kw.1 + kw.2
  let t2 := shaBigS0 v.a + shaMaj v.a v.b v.c
  ⟨t1 + t2, v.a, v.b, v.c, v.d + t1, v.e, v.f, v.g⟩

/-- R231: add the eight words into the hash state. -/
def ShaWords.add (x y : ShaWords) : ShaWords :=
  ⟨x.a + y.a, x.b + y.b, x.c + y.c, x.d + y.d, x.e + y.e, x.f + y.f, x.g + y.g, x.h + y.h⟩

/-- R231: the compression of one 64-byte chunk into the hash state. -/
def shaCompress (hash : ShaWords) (chunk : List Byte) : ShaWords :=
  hash.add ((shaK.zip (shaSchedule chunk)).foldl shaRound hash)

/-- R227: the padding of an `n`-byte message, `n < 2^61`. -/
def shaPadding (n : Nat) : List Byte :=
  0x80#8 :: List.replicate ((119 - n % 64) % 64) 0x00#8 ++
    (List.range 8).map fun k => BitVec.ofNat 8 (8 * n / 2 ^ (8 * (7 - k)))

/-- R232: chunk after chunk. -/
def shaChunks (padded : List Byte) : Nat → ShaWords
  | 0 => shaInit
  | n + 1 => shaCompress (shaChunks padded n) ((padded.drop (64 * n)).take 64)

/-- R232: the eight words, each big-endian. -/
def ShaWords.digest (x : ShaWords) : Digest :=
  let w : Vector Word 8 := #v[x.a, x.b, x.c, x.d, x.e, x.f, x.g, x.h]
  Vector.ofFn fun k => byteOf w[k.val / 4] (3 - k.val % 4)

/-- R232: SHA-256. R227 defines it for fewer than `2^61` bytes; beyond that the model has a free value (DESIGN CHOICE,
log entry 13), which no command of a run from reset reaches. -/
@[irreducible] def sha256 (m : List Byte) : Digest :=
  if m.length < 2 ^ 61 then
    let padded := m ++ shaPadding m.length
    (shaChunks padded (padded.length / 64)).digest
  else Config.overlongDigest m

/-! ### HMAC-SHA256 -/

/-- R226: `k0`, the key hashed if it is longer than 64 bytes, then padded with `00` to 64. -/
def hmacBlockKey (key : List Byte) : List Byte :=
  let k := if key.length > 64 then (sha256 key).toList else key
  k ++ List.replicate (64 - k.length) 0x00#8

/-- R226: HMAC-SHA256. -/
@[irreducible] def hmacSha256 (key m : List Byte) : Digest :=
  sha256 ((hmacBlockKey key).map (· ^^^ 0x5c#8) ++ (sha256 ((hmacBlockKey key).map (· ^^^ 0x36#8) ++ m)).toList)

/-! ### The collaborator -/

/-- R224: `MAC(key, message)`, the function the configuration names. -/
def macFun : MacChoice → List Byte → List Byte → Digest
  | .hmacSha256 => hmacSha256
  | .other id => Config.otherMac id

/-- R221: `init(key)`. -/
def MacState.init (_ : MacState) (key : List Byte) : MacState := { key := key, buf := [] }

/-- R222: `update(data)`. -/
def MacState.update (m : MacState) (data : List Byte) : MacState := { m with buf := m.buf ++ data }

/-- R223: the result of `finalize()`. -/
def MacState.result (mac : MacChoice) (m : MacState) : Digest := macFun mac m.key m.buf

/-- R223: after `finalize()` the message is empty and the key is kept. -/
def MacState.finalize (m : MacState) : MacState := { m with buf := [] }

def State.setMac (s : State) (m : MacState) : State := { s with mac := m }

/-- `update` on the MAC of the block. -/
def State.macUpdate (s : State) (data : List Byte) : State := s.setMac (s.mac.update data)

/-- `finalize` on the MAC of the block, its result in the register `U`. -/
def State.macFinalize (s : State) : State :=
  { s with work := { s.work with u := s.mac.result s.cfg.mac }, mac := s.mac.finalize }

end Sys2Proof.Machine
end

