-- ==== Sys2Proof/Machine/Pbkdf2.lean ====
section
/-! DEFINITION. The PBKDF2 engine and the three forms of the command PBKDF2 (`spec/43_pbkdf2.md` R165 to R179). -/

namespace Sys2Proof.Machine

/-- R170: the first MAC call of block `ctr`: `U <- MACcall(S ‖ BE32bytes(ctr)); T <- U`. The message is absorbed by two
updates (R172). -/
def State.pbkdf2First (src : Space) (i : Nat) (s : State) : State :=
  let s1 := s.setWork { s.work with ctr := BitVec.ofNat 32 i }
  let s2 := ((s1.macUpdate (s1.readBytes src 0 s1.pSlen)).macUpdate (be32Bytes s1.work.ctr)).macFinalize
  s2.setWork { s2.work with t := s2.work.u }

/-- R170: a later MAC call: `U <- MACcall(U); T <- xorbytes(T, U)`. -/
def State.pbkdf2Next (s : State) : State :=
  let s1 := (s.macUpdate s.work.u.toList).macFinalize
  s1.setWork { s1.work with t := xorVec s1.work.t s1.work.u }

/-- R170: write `T_i`, the last one truncated (R174). -/
def State.pbkdf2Store (dst : Space) (outLen i : Nat) (s : State) : State :=
  s.writeBytes dst (outBlockOff i) (s.work.t.toList.take (outBlockLen outLen i))

/-- R170: output block `i`, with `c` MAC calls. -/
def State.pbkdf2Block (src dst : Space) (c outLen i : Nat) (s : State) : State :=
  (loop (fun _ => State.pbkdf2Next) (c - 1) (s.pbkdf2First src i)).pbkdf2Store dst outLen i

/-- R170: blocks `1 .. l`, `l = ceil(outLen / 32)`. -/
def State.pbkdf2 (src dst : Space) (c outLen : Nat) (s : State) : State :=
  loop (fun k => State.pbkdf2Block src dst c outLen (k + 1)) (outBlocks outLen) s

/-- The effect of `PBKDF2 src, dst` (R166). -/
def effectPbkdf2 (src dst : Space) (s : State) : State := s.pbkdf2 src dst s.pIter s.pOlen

/-- `PBKDF2 S, B` (R166): "expand passwd/salt → B" (R93). -/
def execPbkdf2SB (s : State) : Host.Outcome State Fault Refusal :=
  runCommand (checkPbkdf2 .s .b) (effectPbkdf2 .s .b) s

/-- `PBKDF2 S, DK` (R166): plain PBKDF2 of the salt into DK (R93). -/
def execPbkdf2SDk (s : State) : Host.Outcome State Fault Refusal :=
  runCommand (checkPbkdf2 .s .dk) (effectPbkdf2 .s .dk) s

/-- `PBKDF2 B, DK` (R166): "compress B → derived key DK" (R93). -/
def execPbkdf2BDk (s : State) : Host.Outcome State Fault Refusal :=
  runCommand (checkPbkdf2 .b .dk) (effectPbkdf2 .b .dk) s

end Sys2Proof.Machine
end

