-- ==== Sys2Proof/Machine/Salsa.lean ====
section
/-! DEFINITION. The Salsa20/8 core and the command SALSA (`spec/40_salsa20_8.md` R110 to R124). -/

namespace Sys2Proof.Machine

/-! ### The function -/

/-- The parameters `(t, a, b, n)` of one step (R114). -/
structure QuarterStep where
  t : Fin 16
  a : Fin 16
  b : Fin 16
  n : Nat
  deriving DecidableEq, Repr

/-- R114: `x[t] <- x[t] XOR rotl32(add32(x[a], x[b]), n)`. -/
def quarterStep (x : Vector Word 16) (q : QuarterStep) : Vector Word 16 :=
  x.set q.t (x[q.t] ^^^ rotl32 (add32 x[q.a] x[q.b]) q.n)

/-- R115: the sixteen steps of a column round. -/
def columnSteps : List QuarterStep :=
  [⟨4, 0, 12, 7⟩, ⟨8, 4, 0, 9⟩, ⟨12, 8, 4, 13⟩, ⟨0, 12, 8, 18⟩,
   ⟨9, 5, 1, 7⟩, ⟨13, 9, 5, 9⟩, ⟨1, 13, 9, 13⟩, ⟨5, 1, 13, 18⟩,
   ⟨14, 10, 6, 7⟩, ⟨2, 14, 10, 9⟩, ⟨6, 2, 14, 13⟩, ⟨10, 6, 2, 18⟩,
   ⟨3, 15, 11, 7⟩, ⟨7, 3, 15, 9⟩, ⟨11, 7, 3, 13⟩, ⟨15, 11, 7, 18⟩]

/-- R116: the sixteen steps of a row round. -/
def rowSteps : List QuarterStep :=
  [⟨1, 0, 3, 7⟩, ⟨2, 1, 0, 9⟩, ⟨3, 2, 1, 13⟩, ⟨0, 3, 2, 18⟩,
   ⟨6, 5, 4, 7⟩, ⟨7, 6, 5, 9⟩, ⟨4, 7, 6, 13⟩, ⟨5, 4, 7, 18⟩,
   ⟨11, 10, 9, 7⟩, ⟨8, 11, 10, 9⟩, ⟨9, 8, 11, 13⟩, ⟨10, 9, 8, 18⟩,
   ⟨12, 15, 14, 7⟩, ⟨13, 12, 15, 9⟩, ⟨14, 13, 12, 13⟩, ⟨15, 14, 13, 18⟩]

/-- Steps one after another, each reading what the earlier ones wrote (R114). -/
def runSteps (qs : List QuarterStep) (x : Vector Word 16) : Vector Word 16 := qs.foldl quarterStep x

/-- R117: a column round, then a row round. -/
@[irreducible] def doubleRound (x : Vector Word 16) : Vector Word 16 := runSteps rowSteps (runSteps columnSteps x)

/-- R117: the round network, four double-rounds. -/
@[irreducible] def roundNetwork (x : Vector Word 16) : Vector Word 16 := loop (fun _ => doubleRound) 4 x

/-- R118: feed-forward and store. -/
def feedForward (inw x : Vector Word 16) : Block := wordsBlock (Vector.zipWith add32 inw x)

/-- R119: `Salsa20_8(blk)`. -/
@[irreducible] def salsa20_8 (blk : Block) : Block := feedForward (blockWords blk) (roundNetwork (blockWords blk))

/-! ### The function on the working registers `in` and `x` -/

/-- R112, R113: load the block into `in`, and copy `in` to `x`. -/
def State.coreLoad (s : State) (blk : Block) : State :=
  s.setWork { s.work with inw := blockWords blk, x := blockWords blk }

/-- R117: one double-round on `x`. -/
def State.coreRound (s : State) : State := s.setWork { s.work with x := doubleRound s.work.x }

/-- R118: the result, from `in` and `x`. -/
def State.coreOut (s : State) : Block := feedForward s.work.inw s.work.x

/-- R119: the whole function; its result is `coreOut` of the state it leaves. -/
def State.coreRun (s : State) (blk : Block) : State := loop (fun _ => State.coreRound) 4 (s.coreLoad blk)

/-! ### The command -/

/-- The effect of `SALSA k` (R110): in place on `XY[64·k .. 64·k+64)`. -/
def effectSalsa (k : Nat) (s : State) : State :=
  let s' := s.coreRun (s.readBlock .xy (xBlockOff k))
  s'.writeBytes .xy (xBlockOff k) s'.coreOut.toList

/-- `SALSA k` (R110). -/
def execSalsa (k : Nat) (s : State) : Host.Outcome State Fault Refusal :=
  runCommand (checkSalsa k) (effectSalsa k) s

end Sys2Proof.Machine
end

