-- ==== Sys2Proof/Machine/BlockMix.lean ====
section
/-! DEFINITION. BlockMix and the command BMIX (`spec/41_blockmix.md` R130 to R138). -/

namespace Sys2Proof.Machine

/-- R132 step 1: `Xb` is the last block of the X region. -/
def State.mixLoad (r : Nat) (s : State) : State :=
  s.setWork { s.work with xb := s.readBlock .xy (xBlockOff (2 * r - 1)) }

/-- R132 step 2, one iteration: `Xb <- Salsa20_8(Xb XOR block_i)`, into Y block `i`. -/
def State.mixStep (r i : Nat) (s : State) : State :=
  let s' := s.coreRun (xorVec s.work.xb (s.readBlock .xy (xBlockOff i)))
  let s'' := s'.setWork { s'.work with xb := s'.coreOut }
  s''.writeBytes .xy (yBlockOff r i) s''.work.xb.toList

/-- R132 step 3, first half, one iteration: X block `i` is Y block `2i`. -/
def State.mixEven (r i : Nat) (s : State) : State :=
  s.writeBytes .xy (xBlockOff i) (s.readBytes .xy (yBlockOff r (2 * i)) 64)

/-- R132 step 3, second half, one iteration: X block `r + i` is Y block `2i + 1`. -/
def State.mixOdd (r i : Nat) (s : State) : State :=
  s.writeBytes .xy (xBlockOff (r + i)) (s.readBytes .xy (yBlockOff r (2 * i + 1)) 64)

/-- R132: `BlockMix(r)`. -/
def State.blockMix (r : Nat) (s : State) : State :=
  loop (State.mixOdd r) r (loop (State.mixEven r) r (loop (State.mixStep r) (2 * r) (s.mixLoad r)))

/-- The effect of `BMIX` (R130). -/
def effectBmix (s : State) : State := s.blockMix s.pR

/-- `BMIX` (R130). -/
def execBmix (s : State) : Host.Outcome State Fault Refusal := runCommand checkBmix effectBmix s

end Sys2Proof.Machine
end

