-- ==== Sys2Proof/Machine/Romix.lean ====
section
/-! DEFINITION. ROMix, Integerify and the command ROMIX (`spec/42_romix.md` R145 to R156). -/

namespace Sys2Proof.Machine

/-- R150: `Integerify(r)`, little-endian, of the X region as it stands. -/
def State.integerify (r : Nat) (s : State) : Word :=
  le32 (s.readByte .xy (integerifyOff r)) (s.readByte .xy (integerifyOff r + 1))
    (s.readByte .xy (integerifyOff r + 2)) (s.readByte .xy (integerifyOff r + 3))

/-- R151: `Integerify(r) AND (N − 1)`, the value of the index register `j`. -/
def State.slotIndex (r : Nat) (s : State) : Word := s.integerify r &&& (s.regs.n - 1#32)

/-- R148 step 1: copy the lane into X. -/
def State.romixCopyIn (lane r : Nat) (s : State) : State :=
  s.writeBytes .xy 0 (s.readBytes .b (laneOff r lane) (slotLen r))

/-- R148 step 2, one iteration of the fill phase: X into slot `i`, then BlockMix. -/
def State.romixFill (r i : Nat) (s : State) : State :=
  (s.writeBytes .v (slotOff r i) (s.readBytes .xy 0 (slotLen r))).blockMix r

/-- R148 step 3, one iteration of the mix phase: XOR slot `j` into X, then BlockMix. -/
def State.romixMix (r : Nat) (s : State) : State :=
  let s' := s.setWork { s.work with j := s.slotIndex r }
  (s'.writeBytes .xy 0
    (xorBytes (s'.readBytes .xy 0 (slotLen r)) (s'.readBytes .v (slotOff r s'.work.j.toNat) (slotLen r)))).blockMix r

/-- R148 step 4: write X back into the lane. -/
def State.romixCopyOut (lane r : Nat) (s : State) : State :=
  s.writeBytes .b (laneOff r lane) (s.readBytes .xy 0 (slotLen r))

/-- R148: `ROMix(lane, N, r)`. -/
def State.romix (lane n r : Nat) (s : State) : State :=
  (loop (fun _ => State.romixMix r) n (loop (State.romixFill r) n (s.romixCopyIn lane r))).romixCopyOut lane r

/-- The effect of `ROMIX lane` (R146). -/
def effectRomix (lane : Nat) (s : State) : State := s.romix lane s.pN s.pR

/-- `ROMIX lane` (R146, R147). -/
def execRomix (lane : Nat) (s : State) : Host.Outcome State Fault Refusal :=
  runCommand (checkRomix lane) (effectRomix lane) s

end Sys2Proof.Machine
end

