-- ==== Sys2Proof/Machine/System.lean ====
section
/-! DEFINITION. The system commands MACKEY, VALID and CLRERR (`spec/44_system_and_driver.md` R190 to R198). -/

namespace Sys2Proof.Machine

/-- The effect of `MACKEY` (R190): `mac_key <- MemRead(PW:0, PLEN); mac_buf <- empty; STATUS.KEYED <- 1`. -/
def effectMackey (s : State) : State :=
  { s with mac := s.mac.init (s.readBytes .pw 0 s.pPlen), status := s.status.setKeyed }

/-- `MACKEY` (R190). -/
def execMackey (s : State) : Host.Outcome State Fault Refusal := runCommand checkMackey effectMackey s

/-- The effect of `VALID` once its checks have passed (R192): nothing but the end of the command. -/
def effectValid (s : State) : State := s

/-- `VALID` (R192). -/
def execValid (s : State) : Host.Outcome State Fault Refusal := runCommand checkValid effectValid s

/-- The effect of `CLRERR` (R198). -/
def effectClrerr (s : State) : State := s.clearError

/-- `CLRERR` (R198): the only command that runs while ERR is 1 (R33), so `runCommand` does not guard it. -/
def execClrerr (s : State) : Host.Outcome State Fault Refusal := .next (effectClrerr s.begin).complete

end Sys2Proof.Machine
end

