-- ==== Sys2Proof/Machine/Dispatch.lean ====
section
/-! DEFINITION. The meaning of each command: one arm per constructor of `Instr`. -/

namespace Sys2Proof.Machine

def exec (i : Instr) (s : State) : Host.Outcome State Fault Refusal :=
  match i with
  | .salsa k => Sys2Proof.Machine.execSalsa k s
  | .bmix => Sys2Proof.Machine.execBmix s
  | .romix lane => Sys2Proof.Machine.execRomix lane s
  | .pbkdf2SB => Sys2Proof.Machine.execPbkdf2SB s
  | .pbkdf2SDk => Sys2Proof.Machine.execPbkdf2SDk s
  | .pbkdf2BDk => Sys2Proof.Machine.execPbkdf2BDk s
  | .mackey => Sys2Proof.Machine.execMackey s
  | .valid => Sys2Proof.Machine.execValid s
  | .clrerr => Sys2Proof.Machine.execClrerr s

end Sys2Proof.Machine
end

