-- ==== Sys2Proof/Machine/Port.lean ====
section
/-! DEFINITION. The host interface: the register block (`spec/10_state.md` R24, R29, R37, R38), the write of CMD that starts
a command (`spec/30_encoding.md` R96), byte accesses to the buffers (`spec/20_memory.md` R68) and reset. -/

namespace Sys2Proof.Machine

/-! ### The register block -/

/-- The nine host-visible registers (R24). -/
inductive HostReg where
  | cmd
  | status
  | n
  | r
  | p
  | plen
  | slen
  | olen
  | iter
  deriving DecidableEq, Repr

/-- The register at a byte offset from `BASE_REG` (R24). Any other offset is not defined (R38). -/
def regAt (off : Nat) : Option HostReg :=
  if off = 0x00 then some .cmd
  else if off = 0x04 then some .status
  else if off = 0x08 then some .n
  else if off = 0x0C then some .r
  else if off = 0x10 then some .p
  else if off = 0x14 then some .plen
  else if off = 0x18 then some .slen
  else if off = 0x1C then some .olen
  else if off = 0x20 then some .iter
  else none

/-- What a read of a register returns: CMD reads 0 (R29), STATUS its fields (R30), the others the last value written. -/
def State.readReg (s : State) : HostReg → Word
  | .cmd => 0#32
  | .status => s.status.toWord
  | .n => s.regs.n
  | .r => s.regs.r
  | .p => s.regs.p
  | .plen => s.regs.plen
  | .slen => s.regs.slen
  | .olen => s.regs.olen
  | .iter => s.regs.iter

/-- A write of a register other than CMD: a write to STATUS is ignored (R37), the others take any value (R24). -/
def State.writeReg (s : State) (reg : HostReg) (v : Word) : State :=
  match reg with
  | .cmd => s
  | .status => s
  | .n => { s with regs := { s.regs with n := v } }
  | .r => { s with regs := { s.regs with r := v } }
  | .p => { s with regs := { s.regs with p := v } }
  | .plen => { s with regs := { s.regs with plen := v } }
  | .slen => { s with regs := { s.regs with slen := v } }
  | .olen => { s with regs := { s.regs with olen := v } }
  | .iter => { s with regs := { s.regs with iter := v } }

/-- A write of a word to CMD while BUSY is 0 (R96). A legal word is its command; an illegal one raises ILLEGAL_COMMAND
and does nothing else (R95); either is ignored while ERR is 1, unless it is CLRERR (R33). -/
def State.cmdWrite (s : State) (w : Word) : Host.Outcome State Fault Refusal :=
  match decode w with
  | .instr i => exec i s
  | .illegal _ => runCommand (fun _ => some .illegalCommand) id s

/-! ### One access -/

/-- The host gets a value back; nothing of the block changes (R68). -/
def State.answer (s : State) (v : HostReply) : State := { s with reply := some v }

/-- An access that is outside the spec while BUSY is 1 (R37, R68). -/
def whenIdle (s : State) (o : Host.Outcome State Fault Refusal) : Host.Outcome State Fault Refusal :=
  if s.status.busy then .refused .hostAccessWhileBusy else o

/-- An access to a byte that the space must have (R60). -/
def whenInside (s : State) (sp : Space) (off : Nat) (o : Host.Outcome State Fault Refusal) :
    Host.Outcome State Fault Refusal :=
  if off < s.cfg.cap sp then o else .fault (.bufferOffsetOutsideSpace sp off)

/-- A 32-bit read of the register block (R37, R38). STATUS may be read at any time. -/
def hostRegRead (off : Nat) (s : State) : Host.Outcome State Fault Refusal :=
  match regAt off with
  | none => .refused (.registerOffsetNotDefined off)
  | some .status => .next (s.answer (.word (s.readReg .status)))
  | some reg => whenIdle s (.next (s.answer (.word (s.readReg reg))))

/-- A 32-bit write to the register block (R37, R38); `cmd` is what a write of CMD does. -/
def hostRegWrite (cmd : State → Word → Host.Outcome State Fault Refusal) (off : Nat) (v : Word) (s : State) :
    Host.Outcome State Fault Refusal :=
  match regAt off with
  | none => .refused (.registerOffsetNotDefined off)
  | some .cmd => whenIdle s (cmd s v)
  | some reg => whenIdle s (.next (s.writeReg reg v))

/-- One access of the host; `cmd` is what a write of CMD does, `quiet` what the block does when there is no access. -/
def hostAccessWith (cmd : State → Word → Host.Outcome State Fault Refusal) (quiet : State → State) (a : HostAccess)
    (s : State) : Host.Outcome State Fault Refusal :=
  match a with
  | .regWrite off v => hostRegWrite cmd off v s
  | .regRead off => hostRegRead off s
  | .regSized _ bits => .refused (.registerWidthNotDefined bits)
  | .bufWrite sp off v => whenIdle s (whenInside s sp off (.next (s.writeByte sp off v)))
  | .bufRead sp off => whenIdle s (whenInside s sp off (.next (s.answer (.byte (s.readByte sp off)))))
  | .reset => .next s.resetEvent
  | .pause => .next (quiet s)

end Sys2Proof.Machine
end

