-- ==== Sys2Proof/Machine/Sequencer.lean ====
section
/-! DEFINITION. The sequencer: the positions a command passes through, one after another (`spec/10_state.md` R40 to R42).

`exec` takes a command as one transition. Here the same command is taken position by position, with BUSY at 1 in
between: R42 requires that both reach the same end state. -/

namespace Sys2Proof.Machine

/-- `pos <- (op, phase, i, t)`. -/
def State.goto (s : State) (op : Instr) (ph : Phase) : State := { s with pos := .running op ph }

/-- CHECK (R41): the checks of the command, then its first phase. -/
def seqCheck (op : Instr) (first : Phase) (s : State) : State :=
  match checks op s with
  | some code => s.raise code
  | none => s.goto op first

/-- One position of SALSA: CORE `t = 0 .. 3`, then feed-forward and store. -/
def seqSalsa (k : Nat) (ph : Phase) (s : State) : State :=
  match ph with
  | .check => seqCheck (.salsa k) (.core 0) s
  | .core t =>
    let s1 := (if t = 0 then s.coreLoad (s.readBlock .xy (xBlockOff k)) else s).coreRound
    if t + 1 < 4 then s1.goto (.salsa k) (.core (t + 1))
    else (s1.writeBytes .xy (xBlockOff k) s1.coreOut.toList).complete
  | _ => s

/-- One position of BMIX: LOADX; STEP `i = 0 .. 2r−1`; EVEN `i = 0 .. r−1`; ODD `i = 0 .. r−1`. -/
def seqBmix (ph : Phase) (s : State) : State :=
  match ph with
  | .check => seqCheck .bmix .loadX s
  | .loadX => (s.mixLoad s.pR).goto .bmix (.step 0)
  | .step i => (s.mixStep s.pR i).goto .bmix (if i + 1 < 2 * s.pR then .step (i + 1) else .even 0)
  | .even i => (s.mixEven s.pR i).goto .bmix (if i + 1 < s.pR then .even (i + 1) else .odd 0)
  | .odd i =>
    if i + 1 < s.pR then (s.mixOdd s.pR i).goto .bmix (.odd (i + 1)) else (s.mixOdd s.pR i).complete
  | _ => s

/-- One position of ROMIX: COPYIN; FILL `i = 0 .. N−1`; MIX `i = 0 .. N−1`; COPYOUT. Each FILL and MIX position contains
one whole BlockMix. -/
def seqRomix (lane : Nat) (ph : Phase) (s : State) : State :=
  match ph with
  | .check => seqCheck (.romix lane) .copyIn s
  | .copyIn => (s.romixCopyIn lane s.pR).goto (.romix lane) (.fill 0)
  | .fill i => (s.romixFill s.pR i).goto (.romix lane) (if i + 1 < s.pN then .fill (i + 1) else .mix 0)
  | .mix i => (s.romixMix s.pR).goto (.romix lane) (if i + 1 < s.pN then .mix (i + 1) else .copyOut)
  | .copyOut => (s.romixCopyOut lane s.pR).complete
  | _ => s

/-- One position of PBKDF2: BLOCKS `i = 1 .. l`, inner `t = 1 .. c`, one MAC call each; `T_i` is written after the last.
With `outLen = 0` there is no block (R177). -/
def seqPbkdf2 (op : Instr) (src dst : Space) (ph : Phase) (s : State) : State :=
  match ph with
  | .check =>
    match checks op s with
    | some code => s.raise code
    | none => if 1 ≤ outBlocks s.pOlen then s.goto op (.blocks 1 1) else s.complete
  | .blocks i t =>
    let s1 := if t = 1 then s.pbkdf2First src i else s.pbkdf2Next
    if t + 1 ≤ s.pIter then s1.goto op (.blocks i (t + 1))
    else if i + 1 ≤ outBlocks s.pOlen then (s1.pbkdf2Store dst s.pOlen i).goto op (.blocks (i + 1) 1)
    else (s1.pbkdf2Store dst s.pOlen i).complete
  | _ => s

/-- One position of MACKEY, VALID or CLRERR: EXEC, the whole command. -/
def seqExec (op : Instr) (effect : State → State) (ph : Phase) (s : State) : State :=
  match ph with
  | .check => seqCheck op .exec s
  | .exec => (effect s).complete
  | _ => s

/-- The sequencer's move from its position (R41). Idle, the block waits and keeps all its state (R264). -/
def State.seqTick (s : State) : State :=
  match s.pos with
  | .idle => s
  | .running (.salsa k) ph => seqSalsa k ph s
  | .running .bmix ph => seqBmix ph s
  | .running (.romix lane) ph => seqRomix lane ph s
  | .running .pbkdf2SB ph => seqPbkdf2 .pbkdf2SB .s .b ph s
  | .running .pbkdf2SDk ph => seqPbkdf2 .pbkdf2SDk .s .dk ph s
  | .running .pbkdf2BDk ph => seqPbkdf2 .pbkdf2BDk .b .dk ph s
  | .running .mackey ph => seqExec .mackey effectMackey ph s
  | .running .valid ph => seqExec .valid effectValid ph s
  | .running .clrerr ph => seqExec .clrerr effectClrerr ph s

/-- A write of CMD that only starts its command (R96 steps 1 to 3): the sequencer does the rest. -/
def State.cmdStart (s : State) (w : Word) : Host.Outcome State Fault Refusal :=
  if s.status.err && decide (w ≠ 0x00000007#32) then .next s
  else match decode w with
    | .illegal _ => .next (s.begin.raise .illegalCommand)
    | .instr i => .next (s.begin.goto i .check)

/-- One access of the host, commands taken as one transition (R42). -/
def hostAccess (a : HostAccess) (s : State) : Host.Outcome State Fault Refusal :=
  hostAccessWith State.cmdWrite State.seqTick a s

/-- One access of the host, commands taken position by position: between them the host can read STATUS and find BUSY
at 1 (R31), make an access that is refused (R37), or reset the block (R272). -/
def fineAccess (a : HostAccess) (s : State) : Host.Outcome State Fault Refusal :=
  hostAccessWith State.cmdStart State.seqTick a s

/-- The machine moves: the next access of the host, or, if it makes none, the sequencer. -/
def stepWith (access : HostAccess → State → Host.Outcome State Fault Refusal) (s : State) :
    Host.Outcome State Fault Refusal :=
  match s.port with
  | [] => .next s.seqTick
  | a :: rest => access a { s with port := rest }

end Sys2Proof.Machine
end

