-- ==== Sys2Proof/Machine/Step.lean ====
section
/-! DEFINITION. One step of the machine, and the host's way to place the next instruction.

The block fetches nothing (`spec/20_memory.md` R86): its next instruction is the word the host writes to CMD, so the next
instruction stands at the head of the host's accesses. -/

namespace Sys2Proof.Machine

/-- One step: one access of the host, a command being one transition (`spec/10_state.md` R42). -/
def step (s : State) : Host.Outcome State Fault Refusal := stepWith hostAccess s

/-- One step of the machine that takes a command position by position (R41). -/
def fineStep (s : State) : Host.Outcome State Fault Refusal := stepWith fineAccess s

/-- The next access of the host is the write of this word to CMD (offset 0x00 of the register block, R24). -/
def State.withFetchWord (s : State) (nbits w : Nat) : State :=
  { s with port := .regWrite 0x00 (tableWord nbits w) :: s.port }

end Sys2Proof.Machine
end

