-- ==== Sys2Proof/Machine/Derive.lean ====
section
/-! DEFINITION. The host procedure DERIVE, the source's top-level driver (`spec/44_system_and_driver.md` R200 to R206), a
pseudo-instruction that expands to host accesses and commands (`spec/30_encoding.md` R99, R100). -/

namespace Sys2Proof.Machine

/-- One line of a host procedure. -/
inductive HostOp where
  /-- an access that starts no command: one byte of `LD` or `ST` -/
  | access (a : HostAccess)
  /-- `WR reg, value` at an offset of R24; the value must fit the 32-bit register -/
  | write (off v : Nat)
  /-- write a command word, then read STATUS, and stop if ERR is 1; the operand must fit its 24-bit field -/
  | command (i : Instr)
  deriving DecidableEq, Repr

/-- How a host procedure ends. -/
inductive HostEnd where
  /-- all lines done: the bytes read by `ST`, and the state -/
  | finished (bytes : List Byte) (s : State)
  /-- a command raised: the ERRCODE field of the STATUS word read -/
  | error (code : Byte) (s : State)
  /-- STATUS.ERR or STATUS.BUSY is 1 at entry -/
  | notReady
  /-- the next value to be written does not fit its register or field (R204, log entry 10); nothing further of the
  procedure has been issued -/
  | doesNotFit (s : State)
  | fault (r : Fault)
  | refused (r : Refusal)
  deriving DecidableEq, Repr

/-- The byte a host read of a buffer returned. -/
def replyBytes (a : HostAccess) (s : State) : List Byte :=
  match a, s.reply with
  | .bufRead _ _, some (.byte v) => [v]
  | _, _ => []

/-- After a command the host has read STATUS: `some code` if its ERR bit is 1. -/
def replyError (s : State) : Option Byte :=
  match s.reply with
  | some (.word v) => if v.getLsbD 2 then some (v.extractLsb' 8 8) else none
  | _ => none

/-- The lines of a procedure one after another; `read` is what `ST` has read so far. -/
def runHost : List HostOp → List Byte → State → HostEnd
  | [], read, s => .finished read s
  | .access a :: rest, read, s =>
    match hostAccess a s with
    | .next s' => runHost rest (read ++ replyBytes a s') s'
    | .fault r => .fault r
    | .refused r => .refused r
  | .write off v :: rest, read, s =>
    if v < 2 ^ 32 then
      match hostAccess (.regWrite off (BitVec.ofNat 32 v)) s with
      | .next s' => runHost rest read s'
      | .fault r => .fault r
      | .refused r => .refused r
    else .doesNotFit s
  | .command i :: rest, read, s =>
    if i.wellFormed then
      match hostAccess (.regWrite 0x00 (encode i)) s with
      | .next s1 =>
        match hostAccess (.regRead 0x04) s1 with
        | .next s2 =>
          match replyError s2 with
          | some code => .error code s2
          | none => runHost rest read s2
        | .fault r => .fault r
        | .refused r => .refused r
      | .fault r => .fault r
      | .refused r => .refused r
    else .doesNotFit s

/-- `LD space:off, bytes`: a byte at a time, in increasing offset order (R68). -/
def ld (sp : Space) : Nat → List Byte → List HostOp
  | _, [] => []
  | off, v :: vs => .access (.bufWrite sp off v) :: ld sp (off + 1) vs

/-- `ST space:0, n`. -/
def st (sp : Space) (n : Nat) : List HostOp := (List.range n).map fun k => .access (.bufRead sp k)

/-- Every value the procedure writes fits (R204): `128·r·p` and the lengths a 32-bit register, a lane index the 24-bit
field. The procedure itself does not ask this ahead: it tests each value at the line that writes it. -/
def deriveFits (passwd salt : List Byte) (r p : Nat) : Bool :=
  decide (128 * r * p < 2 ^ 32) && decide (p ≤ 2 ^ 24) && decide (passwd.length < 2 ^ 32)
    && decide (salt.length < 2 ^ 32)

/-- The expansion of `DERIVE passwd, salt, N, r, p, dkLen` (R200, lines 1 to 10). -/
def deriveScript (passwd salt : List Byte) (n r p dkLen : Word) : List HostOp :=
  [.write 0x08 n.toNat, .write 0x0C r.toNat, .write 0x10 p.toNat,
   .command .valid] ++
  ld .pw 0 passwd ++
  [.write 0x14 passwd.length,
   .command .mackey] ++
  ld .s 0 salt ++
  [.write 0x18 salt.length, .write 0x20 1, .write 0x1C (128 * r.toNat * p.toNat),
   .command .pbkdf2SB] ++
  (List.range p.toNat).map (fun i => HostOp.command (.romix i)) ++
  [.write 0x18 (128 * r.toNat * p.toNat), .write 0x1C dkLen.toNat,
   .command .pbkdf2BDk] ++
  st .dk dkLen.toNat

/-- `DERIVE passwd, salt, N, r, p, dkLen` run by the host on the block (R200). -/
def derive (passwd salt : List Byte) (n r p dkLen : Word) (s : State) : HostEnd :=
  if s.status.err || s.status.busy then .notReady
  else runHost (deriveScript passwd salt n r p dkLen) [] s

end Sys2Proof.Machine
end

