-- ==== Sys2Proof/Machine/Functional.lean ====
section
/-! DEFINITION. What the commands compute, as functions of byte sequences, with no memory and no register: the forms that
`spec/41_blockmix.md` R133, `spec/42_romix.md` R149, `spec/43_pbkdf2.md` R171 and `spec/44_system_and_driver.md` R202 give
beside the pseudocode. The commands' meanings do not use them. -/

namespace Sys2Proof.Machine

/-! ### BlockMix (R133) -/

/-- Block `i` of a byte sequence, `B_i`. -/
def blockAt (bs : List Byte) (i : Nat) : Block := Vector.ofFn fun k => bs.getD (64 * i + k.val) 0

/-- `Y_0 = Salsa20_8(B_{2r−1} XOR B_0)`, `Y_i = Salsa20_8(Y_{i−1} XOR B_i)`. -/
def mixBlock (r : Nat) (bs : List Byte) : Nat → Block
  | 0 => salsa20_8 (xorVec (blockAt bs (2 * r - 1)) (blockAt bs 0))
  | i + 1 => salsa20_8 (xorVec (mixBlock r bs i) (blockAt bs (i + 1)))

/-- The Y region after BlockMix: `Y_0 ‖ Y_1 ‖ .. ‖ Y_{2r−1}`. -/
def blockMixY (r : Nat) (bs : List Byte) : List Byte :=
  (List.range (2 * r)).flatMap fun i => (mixBlock r bs i).toList

/-- The X region after BlockMix: `Y_0 ‖ Y_2 ‖ .. ‖ Y_{2r−2} ‖ Y_1 ‖ Y_3 ‖ .. ‖ Y_{2r−1}`. -/
def blockMixX (r : Nat) (bs : List Byte) : List Byte :=
  ((List.range r).flatMap fun i => (mixBlock r bs (2 * i)).toList) ++
    (List.range r).flatMap fun i => (mixBlock r bs (2 * i + 1)).toList

/-! ### ROMix (R149) -/

/-- `X_0` is the lane, `X_{i+1} = BlockMix(X_i)`. -/
def romixX (r : Nat) (lane : List Byte) : Nat → List Byte
  | 0 => lane
  | i + 1 => blockMixX r (romixX r lane i)

/-- `Int(Z)`: the first four bytes of the last block (R150). -/
def integerOf (r : Nat) (z : List Byte) : Nat :=
  (le32 (z.getD (integerifyOff r) 0) (z.getD (integerifyOff r + 1) 0) (z.getD (integerifyOff r + 2) 0)
    (z.getD (integerifyOff r + 3) 0)).toNat

/-- `Z_0 = X_N`, `Z_{i+1} = BlockMix(Z_i XOR V_{j_i})` with `j_i = Int(Z_i) mod N` and `V_k = X_k`. -/
def romixZ (r n : Nat) (lane : List Byte) : Nat → List Byte
  | 0 => romixX r lane n
  | i + 1 =>
    blockMixX r (xorBytes (romixZ r n lane i) (romixX r lane (integerOf r (romixZ r n lane i) % n)))

/-- The new lane, `Z_N`. -/
def romixLane (r n : Nat) (lane : List Byte) : List Byte := romixZ r n lane n

/-! ### PBKDF2 (R171), over any MAC -/

/-- `U_{i,t+1}`: `U_{i,1} = MAC(K, S ‖ BE32bytes(i))`, `U_{i,t} = MAC(K, U_{i,t−1})`. -/
def pbkdf2U (mac : List Byte → List Byte → Digest) (key salt : List Byte) (i : Nat) : Nat → Digest
  | 0 => mac key (salt ++ be32Bytes (BitVec.ofNat 32 i))
  | t + 1 => mac key (pbkdf2U mac key salt i t).toList

/-- `U_{i,1} XOR .. XOR U_{i,t+1}`. -/
def pbkdf2Xor (mac : List Byte → List Byte → Digest) (key salt : List Byte) (i : Nat) : Nat → Digest
  | 0 => pbkdf2U mac key salt i 0
  | t + 1 => xorVec (pbkdf2Xor mac key salt i t) (pbkdf2U mac key salt i (t + 1))

/-- `T_i`, for a count `c ≥ 1`. -/
def pbkdf2T (mac : List Byte → List Byte → Digest) (key salt : List Byte) (c i : Nat) : Digest :=
  pbkdf2Xor mac key salt i (c - 1)

/-- `(T_1 ‖ T_2 ‖ .. ‖ T_l)[0 .. outLen)`. -/
def pbkdf2Out (mac : List Byte → List Byte → Digest) (key salt : List Byte) (c outLen : Nat) : List Byte :=
  ((List.range (outBlocks outLen)).flatMap fun k => (pbkdf2T mac key salt c (k + 1)).toList).take outLen

/-! ### The whole derivation (R202) -/

/-- Lane `i` of B: its bytes `i·128·r .. (i+1)·128·r`. -/
def laneAt (r : Nat) (bs : List Byte) (i : Nat) : List Byte := (bs.drop (laneOff r i)).take (slotLen r)

/-- `B' = B'_0 ‖ .. ‖ B'_{p−1}`, `B'_i = ROMix(B_i)`. -/
def mixLanes (n r p : Nat) (bs : List Byte) : List Byte :=
  (List.range p).flatMap fun i => romixLane r n (laneAt r bs i)

/-- `DK = pbkdf2(passwd, B', 1, dkLen)` where `B = pbkdf2(passwd, salt, 1, 128·r·p)`. -/
def scrypt (mac : List Byte → List Byte → Digest) (passwd salt : List Byte) (n r p dkLen : Nat) : List Byte :=
  pbkdf2Out mac passwd (mixLanes n r p (pbkdf2Out mac passwd salt 1 (128 * r * p))) 1 dkLen

end Sys2Proof.Machine
end

