-- ==== Sys2Proof/Safety.lean ====
section
/-! DEFINITION. What a sound state is, in the terms the statements use. -/

namespace Sys2Proof.Machine

/-- The fields of STATUS agree (`spec/10_state.md` R32, R33, R35): ERRCODE is 0 exactly while ERR is 0, and DONE and ERR
are never both 1. -/
def Status.consistent (st : Status) : Prop :=
  (st.err = false ↔ st.errcode = .noError) ∧ ¬ (st.done = true ∧ st.err = true)

/-- The block is at a command boundary (R42, R46): not BUSY, at the idle position, no message in the MAC. -/
def State.atBoundary (s : State) : Prop := s.status.busy = false ∧ s.pos = .idle ∧ s.mac.buf = []

/-- What every step keeps: the block is at a command boundary; STATUS is consistent; every buffer space is in canonical
form and lists no byte it does not have (R60); a key in use has a length `0 .. CAP_PW` (R45), and there is none on an
instance without a MAC (R243). -/
structure State.Inv (s : State) : Prop where
  boundary : s.atBoundary
  status : s.status.consistent
  memWf : s.mem.wf = true
  memBelow : s.mem.below s.cfg = true
  keyLen : s.status.keyed = true → s.mac.key.length ≤ s.cfg.capPw
  keyMac : s.cfg.macPresent = false → s.status.keyed = false

/-! ### Frames -/

/-- The places `off .. off+n−1` of a space. -/
def Place (sp : Space) (off n : Nat) (sp' : Space) (a : Nat) : Prop := sp' = sp ∧ off ≤ a ∧ a < off + n

/-- The places ROMIX writes (`spec/42_romix.md` R146): its lane, all slots of V, both regions of XY. -/
def RomixPlaces (lane n r : Nat) (sp : Space) (a : Nat) : Prop :=
  Place .b (laneOff r lane) (slotLen r) sp a ∨ Place .v 0 (n * slotLen r) sp a ∨ Place .xy 0 (2 * slotLen r) sp a

/-- Every byte outside the places `P` reads as before. -/
def SameBytesOutside (P : Space → Nat → Prop) (s t : State) : Prop :=
  ∀ sp a, ¬ P sp a → t.readByte sp a = s.readByte sp a

/-- What a command that completes leaves as it was: the configuration, every parameter register, the MAC, the host's side,
and of STATUS all but BUSY and DONE. Memory and the working registers are not spoken of here. -/
structure CompletedFrame (s t : State) : Prop where
  cfg : t.cfg = s.cfg
  regs : t.regs = s.regs
  mac : t.mac = s.mac
  epoch : t.epoch = s.epoch
  port : t.port = s.port
  reply : t.reply = s.reply
  pos : t.pos = .idle
  status : t.status = { s.status with busy := false, done := true }

/-! ### Runs -/

/-- The ROMIX commands of these lanes, one after another. -/
def runLanes : List Nat → State → Option State
  | [], s => some s
  | lane :: rest, s =>
    match exec (.romix lane) s with
    | .next t => runLanes rest t
    | .fault _ => none
    | .refused _ => none

/-- `n` moves of the sequencer with no access of the host. -/
def State.ticks (n : Nat) (s : State) : State := loop (fun _ => State.seqTick) n s

/-! ### Blocks that differ in their top bits -/

/-- Bit 31 of all sixteen words complemented (`spec/40_salsa20_8.md` R123). -/
def flipTops (x : Vector Word 16) : Vector Word 16 := x.map (· ^^^ 0x80000000#32)

end Sys2Proof.Machine
end

