-- ==== Sys2Proof/Certificates/Slice0/Obligations.lean ====
section
/-! DEFINITION. The statements for the provers. Each docstring says which rule of `spec/` it formalises. -/

open Sys2Proof Sys2Proof.Machine

/-! ### Encoding -/

/-- Command words written out from `spec/30_encoding.md` R92, R93 and R101. -/
def Obligations.DecodesWordsOfTheOpcodeTable : Prop :=
  decode 0x00000301#32 = .instr (.salsa 3) ∧ decode 0x00000002#32 = .instr .bmix ∧
  decode 0x00000F03#32 = .instr (.romix 15) ∧ decode 0x00000004#32 = .instr .pbkdf2SB ∧
  decode 0x00000204#32 = .instr .pbkdf2SDk ∧ decode 0x00000304#32 = .instr .pbkdf2BDk ∧
  decode 0x00000005#32 = .instr .mackey ∧ decode 0x00000006#32 = .instr .valid ∧
  decode 0x00000007#32 = .instr .clrerr ∧ decode 0x00000104#32 = .illegal .sourceIsDestination

/-- R101: the encoding of every legal command form. -/
def Obligations.EveryLegalFormHasItsWord : Prop :=
  (∀ k, k < 2 ^ 24 → encode (.salsa k) = BitVec.ofNat 32 (0x01 + 0x100 * k) ∧
    decode (BitVec.ofNat 32 (0x01 + 0x100 * k)) = .instr (.salsa k)) ∧
  (∀ lane, lane < 2 ^ 24 → encode (.romix lane) = BitVec.ofNat 32 (0x03 + 0x100 * lane) ∧
    decode (BitVec.ofNat 32 (0x03 + 0x100 * lane)) = .instr (.romix lane)) ∧
  (∀ iw ∈ [(Instr.salsa 0, 0x00000001#32), (.salsa 3, 0x00000301#32), (.bmix, 0x00000002#32),
      (.romix 0, 0x00000003#32), (.romix 15, 0x00000F03#32), (.pbkdf2SB, 0x00000004#32), (.pbkdf2SDk, 0x00000204#32),
      (.pbkdf2BDk, 0x00000304#32), (.mackey, 0x00000005#32), (.valid, 0x00000006#32), (.clrerr, 0x00000007#32)],
    encode iw.1 = iw.2 ∧ decode iw.2 = .instr iw.1)

/-- Decoding the encoding of a well-formed instruction gives it back, at every value of its operand. -/
def Obligations.DecodeOfEncodeGivesTheInstruction : Prop :=
  ∀ i : Instr, i.wellFormed = true → decode (encode i) = .instr i

/-- Every legal word is the encoding of the one well-formed instruction it decodes to: the words have one meaning each. -/
def Obligations.EncodeOfDecodeGivesTheWord : Prop :=
  ∀ (w : Word) (i : Instr), decode w = .instr i → encode i = w ∧ i.wellFormed = true

/-- R95 (with R94): which of the `2^32` words are illegal, and what writing one to CMD while ERR is 0 does. -/
def Obligations.IllegalWordsRaiseIllegalCommand : Prop :=
  (∀ w : Word, (∃ why, decode w = .illegal why) ↔
    (w.toNat % 2 ^ 8 = 0x00 ∨ 0x08 ≤ w.toNat % 2 ^ 8 ∨
      ((w.toNat % 2 ^ 8 = 0x02 ∨ w.toNat % 2 ^ 8 = 0x05 ∨ w.toNat % 2 ^ 8 = 0x06 ∨ w.toNat % 2 ^ 8 = 0x07) ∧
        w.toNat / 2 ^ 8 ≠ 0) ∨
      (w.toNat % 2 ^ 8 = 0x04 ∧ (w.toNat / 2 ^ 10 ≠ 0 ∨ w.toNat / 2 ^ 8 = 1)))) ∧
  (∀ (w : Word) (why : IllegalWord) (s : State) (rest : List HostAccess), decode w = .illegal why →
    s.port = .regWrite 0x00 w :: rest → s.status.busy = false → s.status.err = false → s.pos = .idle →
    step s = .next { s with port := rest, status := { s.status with done := false, err := true, errcode := .illegalCommand } }) ∧
  ErrCode.illegalCommand.toByte = 0x20#8

/-! ### The step and the CMD write -/

/-- A write of a legal word to CMD is `exec` of the instruction it decodes to, on the state without that access (R42, R86).
That the host's accesses stand in a queue is the model's form (log entry 6). -/
def Obligations.StepRunsTheDecodedInstruction : Prop :=
  (∀ (s : State) (w : Word) (i : Instr) (rest : List HostAccess), s.port = .regWrite 0x00 w :: rest →
    s.status.busy = false → decode w = .instr i → step s = exec i { s with port := rest }) ∧
  (∀ (s : State) (w : Nat) (i : Instr), s.status.busy = false → decodeTableWord 32 w = some i →
    step (s.withFetchWord 32 w) = exec i s)

/-- R33: ERR is sticky. Only a raise sets it, only CLRERR and reset clear it, and while it is 1 every other command word is
ignored. -/
def Obligations.ErrIsSticky : Prop :=
  (∀ (s : State) (w : Word) (rest : List HostAccess), s.port = .regWrite 0x00 w :: rest → s.status.busy = false →
    s.status.err = true → w ≠ 0x00000007#32 → step s = .next { s with port := rest }) ∧
  (∀ s t : State, s.Inv → step s = .next t → s.status.err = true → t.status.err = false →
    ∃ rest, s.port = .regWrite 0x00 0x00000007#32 :: rest ∨ s.port = .reset :: rest) ∧
  (∀ s t : State, s.Inv → step s = .next t → s.status.err = false → t.status.err = true →
    ∃ w rest code, s.port = .regWrite 0x00 w :: rest ∧ t = State.raise { s with port := rest } code) ∧
  (∀ (s : State) (code : ErrCode), (s.raise code).status.err = true) ∧
  (∀ s : State, ∃ t, exec .clrerr s = .next t ∧ t.status.err = false) ∧
  (∀ s : State, s.resetEvent.status.err = false)

/-- R32: DONE is set by a command that ends without raising, cleared by one that raises, by the start of a command and by
reset, and by nothing else; a CMD write that is ignored changes nothing. -/
def Obligations.DoneTellsHowTheLastCommandEnded : Prop :=
  (∀ (i : Instr) (s t : State), exec i s = .next t → (s.status.err = false ∨ i = .clrerr) →
    t.status.done = !t.status.err) ∧
  (∀ (s : State) (w : Word), s.status.err = true → w ≠ 0x00000007#32 → s.cmdWrite w = .next s) ∧
  (∀ (s : State) (code : ErrCode), (s.raise code).status.done = false) ∧
  (∀ (s t : State) (w : Word), s.cmdStart w = .next t → s.status.err = false → t.status.done = false) ∧
  (∀ s : State, s.resetEvent.status.done = false) ∧
  (∀ s t : State, s.Inv → step s = .next t → t.status.done ≠ s.status.done →
    ∃ w rest, s.port = .regWrite 0x00 w :: rest ∨ s.port = .reset :: rest)

/-! ### Primitives -/

/-- R14: `LE32` and `LE32bytes`. -/
def Obligations.LittleEndianWords : Prop :=
  (∀ b0 b1 b2 b3 : Byte, (le32 b0 b1 b2 b3).toNat =
    b0.toNat + 2 ^ 8 * b1.toNat + 2 ^ 16 * b2.toNat + 2 ^ 24 * b3.toNat) ∧
  (∀ (w : Word) (k : Nat), k < 4 → (byteOf w k).toNat = w.toNat / 2 ^ (8 * k) % 2 ^ 8) ∧
  (∀ w : Word, le32 (byteOf w 0) (byteOf w 1) (byteOf w 2) (byteOf w 3) = w) ∧
  (∀ b : Block, wordsBlock (blockWords b) = b) ∧ (∀ x : Vector Word 16, blockWords (wordsBlock x) = x)

/-- R18: the test for a power of two, and what the validator asks of N. -/
def Obligations.PowerOfTwoTest : Prop :=
  (∀ n : Nat, isPow2 n = true ↔ ∃ k, n = 2 ^ k) ∧ (∀ n : Nat, 1 ≤ n → (isPow2 n = true ↔ n &&& (n - 1) = 0)) ∧
  (∀ max n r p : Nat, validate max n r p = .nNotPow2 ↔ ¬ (2 ≤ n ∧ isPow2 n = true))

/-! ### SALSA -/

/-- R110: what SALSA does once its checks pass, and all it leaves as it was. -/
def Obligations.SalsaAppliesTheCoreInPlace : Prop :=
  ∀ (k : Nat) (s : State), s.status.err = false → s.pR ≠ 0 → k < 4 * s.pR → 256 * s.pR ≤ s.cfg.capXy →
    ∃ t, exec (.salsa k) s = .next t ∧
      t.readBytes .xy (xBlockOff k) 64 = (salsa20_8 (s.readBlock .xy (xBlockOff k))).toList ∧
      SameBytesOutside (Place .xy (xBlockOff k) 64) s t ∧ CompletedFrame s t ∧
      t.work = { s.work with inw := t.work.inw, x := t.work.x }

/-- R110: the checks of SALSA in their order. -/
def Obligations.SalsaRaisesInOrder : Prop :=
  ∀ (k : Nat) (s : State), s.status.err = false →
    (s.pR = 0 → exec (.salsa k) s = .next (s.raise .zeroParameter)) ∧
    (s.pR ≠ 0 → 4 * s.pR ≤ k → exec (.salsa k) s = .next (s.raise .badIndex)) ∧
    (s.pR ≠ 0 → k < 4 * s.pR → s.cfg.capXy < 256 * s.pR → exec (.salsa k) s = .next (s.raise .capacity))

/-- R121: the all-zero block is a fixed point. -/
def Obligations.ZeroBlockIsFixed : Prop := salsa20_8 (Vector.replicate 64 0#8) = Vector.replicate 64 0#8

/-- R122: the core is not self-inverse, although it is so on the all-zero block. -/
def Obligations.CoreIsNotSelfInverse : Prop :=
  salsa20_8 (salsa20_8 (Vector.ofFn fun i => BitVec.ofNat 8 i.val)) ≠ (Vector.ofFn fun i => BitVec.ofNat 8 i.val) ∧
  salsa20_8 (salsa20_8 (Vector.replicate 64 0#8)) = Vector.replicate 64 0#8

/-- R123: the round network is a bijection, each of its steps being undone by repeating it; the whole core is not one:
complementing bit 31 of all sixteen input words leaves its output unchanged. -/
def Obligations.RoundsAreABijectionTheCoreIsNot : Prop :=
  (∀ q ∈ columnSteps ++ rowSteps, ∀ x, quarterStep (quarterStep x q) q = x) ∧
  Function.Bijective roundNetwork ∧
  (∀ x : Vector Word 16, salsa20_8 (wordsBlock (flipTops x)) = salsa20_8 (wordsBlock x)) ∧
  ¬ Function.Injective salsa20_8

/-- R124: the worked example. -/
def Obligations.WorkedExampleOfTheCore : Prop :=
  let x0 : Vector Word 16 := Vector.ofFn fun i => if i.val = 0 then 1#32 else 0#32
  let x4 := runSteps (columnSteps.take 4) x0
  (x4[4] = 0x00000080#32 ∧ x4[8] = 0x00010200#32 ∧ x4[12] = 0x20500000#32 ∧ x4[0] = 0x08008145#32) ∧
  rotl32 (add32 x4[12] x4[8]) 18 = 0x08008144#32 ∧
  (roundNetwork x0)[0] = 0x72e9e959#32 ∧
  (salsa20_8 (wordsBlock x0)).toList.take 4 = [0x5a#8, 0xe9#8, 0xe9#8, 0x72#8]

/-! ### BMIX -/

/-- R133 (with R130): BMIX computes BlockMix, block for block, and leaves everything else as it was. -/
def Obligations.BmixComputesBlockMix : Prop :=
  (∀ s : State, s.status.err = false → s.pR ≠ 0 → 256 * s.pR ≤ s.cfg.capXy →
    ∃ t, exec .bmix s = .next t ∧
      t.readBytes .xy (xBlockOff 0) (slotLen s.pR) = blockMixX s.pR (s.readBytes .xy (xBlockOff 0) (slotLen s.pR)) ∧
      t.readBytes .xy (yBlockOff s.pR 0) (slotLen s.pR) = blockMixY s.pR (s.readBytes .xy (xBlockOff 0) (slotLen s.pR)) ∧
      SameBytesOutside (Place .xy 0 (2 * slotLen s.pR)) s t ∧ CompletedFrame s t ∧
      t.work = { s.work with inw := t.work.inw, x := t.work.x, xb := t.work.xb }) ∧
  (∀ (r k : Nat) (bs : List Byte), k < 2 * r →
    blockAt (blockMixX r bs) k = mixBlock r bs (if k < r then 2 * k else 2 * (k - r) + 1))

/-- R130: the checks of BMIX in their order. -/
def Obligations.BmixRaisesInOrder : Prop :=
  ∀ s : State, s.status.err = false →
    (s.pR = 0 → exec .bmix s = .next (s.raise .zeroParameter)) ∧
    (s.pR ≠ 0 → s.cfg.capXy < 256 * s.pR → exec .bmix s = .next (s.raise .capacity))

/-! ### ROMIX -/

/-- R149 (with R146): ROMIX computes ROMix of its lane, and leaves everything else as it was; the fill phase stores
`V_i = X_i` and leaves `X = X_N`. -/
def Obligations.RomixComputesROMix : Prop :=
  ∀ (lane : Nat) (s : State), s.status.err = false → validate s.cfg.max s.pN s.pR s.pP = .noError → lane < s.pP →
    slotLen s.pR * s.pP ≤ s.cfg.capB → slotLen s.pR * s.pN ≤ s.cfg.capV → 2 * slotLen s.pR ≤ s.cfg.capXy →
    ∃ t, exec (.romix lane) s = .next t ∧
      t.readBytes .b (laneOff s.pR lane) (slotLen s.pR) =
        romixLane s.pR s.pN (s.readBytes .b (laneOff s.pR lane) (slotLen s.pR)) ∧
      SameBytesOutside (RomixPlaces lane s.pN s.pR) s t ∧ CompletedFrame s t ∧
      t.work = { s.work with inw := t.work.inw, x := t.work.x, xb := t.work.xb, j := t.work.j } ∧
      (let input := s.readBytes .b (laneOff s.pR lane) (slotLen s.pR)
       let filled := loop (State.romixFill s.pR) s.pN (s.romixCopyIn lane s.pR)
       (∀ i, i < s.pN → filled.readBytes .v (slotOff s.pR i) (slotLen s.pR) = romixX s.pR input i) ∧
       filled.readBytes .xy 0 (slotLen s.pR) = romixX s.pR input s.pN)

/-- R153: what ROMIX leaves in V and XY. -/
def Obligations.RomixLeavesItsTable : Prop :=
  ∀ (lane : Nat) (s t : State), s.status.err = false → validate s.cfg.max s.pN s.pR s.pP = .noError → lane < s.pP →
    slotLen s.pR * s.pP ≤ s.cfg.capB → slotLen s.pR * s.pN ≤ s.cfg.capV → 2 * slotLen s.pR ≤ s.cfg.capXy →
    exec (.romix lane) s = .next t →
    let input := s.readBytes .b (laneOff s.pR lane) (slotLen s.pR)
    let last := romixZ s.pR s.pN input (s.pN - 1)
    (∀ i, i < s.pN → t.readBytes .v (slotOff s.pR i) (slotLen s.pR) = romixX s.pR input i) ∧
    t.readBytes .xy (xBlockOff 0) (slotLen s.pR) = t.readBytes .b (laneOff s.pR lane) (slotLen s.pR) ∧
    t.readBytes .xy (yBlockOff s.pR 0) (slotLen s.pR) =
      blockMixY s.pR (xorBytes last (romixX s.pR input (integerOf s.pR last % s.pN)))

/-- R147: the checks of ROMIX in their order. -/
def Obligations.RomixRaisesInOrder : Prop :=
  ∀ (lane : Nat) (s : State), s.status.err = false →
    (∀ code, validate s.cfg.max s.pN s.pR s.pP = code → code ≠ .noError →
      exec (.romix lane) s = .next (s.raise code)) ∧
    (validate s.cfg.max s.pN s.pR s.pP = .noError → s.pP ≤ lane → exec (.romix lane) s = .next (s.raise .badIndex)) ∧
    (validate s.cfg.max s.pN s.pR s.pP = .noError → lane < s.pP →
      (s.cfg.capB < slotLen s.pR * s.pP ∨ s.cfg.capV < slotLen s.pR * s.pN ∨ s.cfg.capXy < 2 * slotLen s.pR) →
      exec (.romix lane) s = .next (s.raise .capacity))

/-- R151: the mask gives `Integerify(r) mod N`, the slot lies inside the table, and 32 bits always suffice for it. -/
def Obligations.SlotIndexIsIntegerifyModN : Prop :=
  (∀ (r : Nat) (s : State), isPow2 s.pN = true →
    (s.slotIndex r).toNat = (s.integerify r).toNat % s.pN ∧ (s.slotIndex r).toNat < s.pN ∧ s.pN ≤ 2 ^ 31) ∧
  (∀ n r p : Nat, validate (2 ^ 31 - 1) n r p = .noError → n ≤ 2 ^ 23)

/-- R155: lanes are independent. The new lane depends on the lane's input, N and r alone; no other lane is touched; and the
`p` commands give the same B in any order. -/
def Obligations.LanesAreIndependent : Prop :=
  (∀ (lane lane' : Nat) (s s' t t' : State), s.status.err = false → s'.status.err = false →
    checkRomix lane s = none → checkRomix lane' s' = none → s.pN = s'.pN → s.pR = s'.pR →
    s.readBytes .b (laneOff s.pR lane) (slotLen s.pR) = s'.readBytes .b (laneOff s'.pR lane') (slotLen s'.pR) →
    exec (.romix lane) s = .next t → exec (.romix lane') s' = .next t' →
    t.readBytes .b (laneOff s.pR lane) (slotLen s.pR) = t'.readBytes .b (laneOff s'.pR lane') (slotLen s'.pR)) ∧
  (∀ (lane other : Nat) (s t : State), other ≠ lane → exec (.romix lane) s = .next t →
    t.readBytes .b (laneOff s.pR other) (slotLen s.pR) = s.readBytes .b (laneOff s.pR other) (slotLen s.pR)) ∧
  (∀ (s : State) (order : List Nat), s.status.err = false → (∀ lane, lane < s.pP → checkRomix lane s = none) →
    order.Perm (List.range s.pP) →
    ∃ t t', runLanes order s = some t ∧ runLanes (List.range s.pP) s = some t' ∧
      ∀ a, t.readByte .b a = t'.readByte .b a)

/-! ### PBKDF2 -/

/-- R171 (with R166): each form of PBKDF2 writes `pbkdf2(K, S, c, outLen)` to its destination, and leaves everything else
as it was. That no message is pending in the MAC is part of the invariant (R46). -/
def Obligations.Pbkdf2ComputesItsOutput : Prop :=
  ∀ form ∈ [(Instr.pbkdf2SB, Space.s, Space.b), (.pbkdf2SDk, .s, .dk), (.pbkdf2BDk, .b, .dk)],
  ∀ s : State, s.status.err = false → s.status.keyed = true → s.mac.buf = [] → s.pIter ≠ 0 →
    s.pSlen ≤ s.cfg.cap form.2.1 → s.pOlen ≤ s.cfg.cap form.2.2 →
    ∃ t, exec form.1 s = .next t ∧
      t.readBytes form.2.2 0 s.pOlen =
        pbkdf2Out (macFun s.cfg.mac) s.mac.key (s.readBytes form.2.1 0 s.pSlen) s.pIter s.pOlen ∧
      SameBytesOutside (Place form.2.2 0 s.pOlen) s t ∧ CompletedFrame s t ∧
      t.work = { s.work with ctr := t.work.ctr, u := t.work.u, t := t.work.t }

/-- R167, R168: the checks of PBKDF2 in their order; the illegal words of op 0x04 come first, and the fourth check never
fails, since OLEN has 32 bits. -/
def Obligations.Pbkdf2RaisesInOrder : Prop :=
  (∀ (w : Word) (s : State), w.toNat % 2 ^ 8 = 0x04 → w.toNat / 2 ^ 10 ≠ 0 ∨ w.toNat / 2 ^ 8 = 1 →
    s.status.err = false → s.cmdWrite w = .next (s.raise .illegalCommand)) ∧
  (∀ form ∈ [(Instr.pbkdf2SB, Space.s, Space.b), (.pbkdf2SDk, .s, .dk), (.pbkdf2BDk, .b, .dk)],
   ∀ s : State, s.status.err = false →
    (s.status.keyed = false → exec form.1 s = .next (s.raise .notKeyed)) ∧
    (s.status.keyed = true → s.pIter = 0 → exec form.1 s = .next (s.raise .zeroParameter)) ∧
    s.pOlen ≤ (2 ^ 32 - 1) * 32 ∧
    (s.status.keyed = true → s.pIter ≠ 0 →
      (s.cfg.cap form.2.1 < s.pSlen ∨ s.cfg.cap form.2.2 < s.pOlen) → exec form.1 s = .next (s.raise .capacity)))

/-- R175: with an iteration count of 1 the output is `MAC(S‖BE32(1)) ‖ MAC(S‖BE32(2)) ‖ …`, truncated to `outLen`. -/
def Obligations.Pbkdf2SingleIteration : Prop :=
  ∀ form ∈ [(Instr.pbkdf2SB, Space.s, Space.b), (.pbkdf2SDk, .s, .dk), (.pbkdf2BDk, .b, .dk)],
  ∀ s t : State, s.status.err = false → s.status.keyed = true → s.mac.buf = [] → s.pIter = 1 →
    s.pSlen ≤ s.cfg.cap form.2.1 → s.pOlen ≤ s.cfg.cap form.2.2 → exec form.1 s = .next t →
    t.readBytes form.2.2 0 s.pOlen =
      ((List.range (outBlocks s.pOlen)).flatMap fun k =>
        (macFun s.cfg.mac s.mac.key
          (s.readBytes form.2.1 0 s.pSlen ++ be32Bytes (BitVec.ofNat 32 (k + 1)))).toList).take s.pOlen

/-- R177: `outLen = 0` writes nothing and makes no MAC call. -/
def Obligations.Pbkdf2OfLengthZero : Prop :=
  ∀ form ∈ [(Instr.pbkdf2SB, Space.s), (.pbkdf2SDk, .s), (.pbkdf2BDk, .b)],
  ∀ s : State, s.status.err = false → s.status.keyed = true → s.pIter ≠ 0 → s.pOlen = 0 →
    s.pSlen ≤ s.cfg.cap form.2 →
    exec form.1 s = .next { s with status := { s.status with busy := false, done := true }, pos := .idle }

/-! ### MACKEY, VALID, CLRERR -/

/-- R190: MACKEY keys the MAC with the password, and changes nothing else. -/
def Obligations.MackeyKeysTheMac : Prop :=
  ∀ s : State, s.status.err = false → s.cfg.macPresent = true → s.pPlen ≤ s.cfg.capPw →
    exec .mackey s = .next { s with
      mac := { key := s.readBytes .pw 0 s.pPlen, buf := [] },
      status := { s.status with busy := false, done := true, keyed := true }, pos := .idle }

/-- R190: the checks of MACKEY in their order. -/
def Obligations.MackeyRaisesInOrder : Prop :=
  ∀ s : State, s.status.err = false →
    (s.cfg.macPresent = false → exec .mackey s = .next (s.raise .algorithmUnavailable)) ∧
    (s.cfg.macPresent = true → s.cfg.capPw < s.pPlen → exec .mackey s = .next (s.raise .capacity))

/-- R192, R193: VALID completes for parameters that pass every test of the validator. -/
def Obligations.ValidAcceptsLegalParameters : Prop :=
  ∀ s : State, s.status.err = false → 2 ≤ s.pN → (∃ k, s.pN = 2 ^ k) → s.pR ≠ 0 → s.pP ≠ 0 →
    128 * s.pR * s.pN ≤ s.cfg.max → 128 * s.pR * s.pP ≤ s.cfg.max →
    exec .valid s = .next { s with status := { s.status with busy := false, done := true }, pos := .idle }

/-- R193: VALID raises the first code whose condition holds, with its number, and completes if none holds. -/
def Obligations.ValidRaisesTheFirstFailure : Prop :=
  (∀ s : State, s.status.err = false →
    (s.pN < 2 ∨ (¬ ∃ k, s.pN = 2 ^ k) → exec .valid s = .next (s.raise .nNotPow2)) ∧
    (2 ≤ s.pN → (∃ k, s.pN = 2 ^ k) → s.pR = 0 ∨ s.pP = 0 → exec .valid s = .next (s.raise .zeroParameter)) ∧
    (2 ≤ s.pN → (∃ k, s.pN = 2 ^ k) → s.pR ≠ 0 → s.pP ≠ 0 → s.cfg.max < 128 * s.pR * s.pN →
      exec .valid s = .next (s.raise .nTooLarge)) ∧
    (2 ≤ s.pN → (∃ k, s.pN = 2 ^ k) → s.pR ≠ 0 → s.pP ≠ 0 → 128 * s.pR * s.pN ≤ s.cfg.max →
      s.cfg.max < 128 * s.pR * s.pP → exec .valid s = .next (s.raise .rTooLarge)) ∧
    (2 ≤ s.pN → (∃ k, s.pN = 2 ^ k) → s.pR ≠ 0 → s.pP ≠ 0 → 128 * s.pR * s.pN ≤ s.cfg.max →
      128 * s.pR * s.pP ≤ s.cfg.max → exec .valid s = .next s.complete)) ∧
  ErrCode.nNotPow2.toByte = 0x01#8 ∧ ErrCode.zeroParameter.toByte = 0x05#8 ∧ ErrCode.nTooLarge.toByte = 0x02#8 ∧
  ErrCode.rTooLarge.toByte = 0x03#8

/-- R17 in the place it is used: the validator's products are the source's quotients, `N ≤ MAX/(128·r)` and
`r ≤ MAX/(128·p)`. -/
def Obligations.ValidatorMatchesTheQuotients : Prop :=
  ∀ max n r p : Nat, validate max n r p = .noError ↔
    2 ≤ n ∧ (∃ k, n = 2 ^ k) ∧ r ≠ 0 ∧ p ≠ 0 ∧ n ≤ max / (128 * r) ∧ r ≤ max / (128 * p)

/-- R196: the source's rejection property, with its codes. -/
def Obligations.RejectionExamples : Prop :=
  (validate (2 ^ 31 - 1) 0 1 1).toByte = 0x01#8 ∧ (validate (2 ^ 31 - 1) 1 1 1).toByte = 0x01#8 ∧
  (validate (2 ^ 31 - 1) 3 1 1).toByte = 0x01#8 ∧ (validate (2 ^ 31 - 1) (2 ^ 24) 1 1).toByte = 0x02#8 ∧
  (validate (2 ^ 31 - 1) 2 1 1).toByte = 0x00#8 ∧
  (∀ max n r p : Nat, r ≠ 0 → p ≠ 0 → 2 ≤ n → isPow2 n = true → max < 128 * r * n →
    (validate max n r p).toByte = 0x02#8)

/-- R198: CLRERR clears ERR and ERRCODE, sets DONE, keeps everything else, and runs whether or not ERR is 1. -/
def Obligations.ClrerrClearsTheError : Prop :=
  ∀ s : State, exec .clrerr s = .next { s with
    status := { busy := false, done := true, err := false, keyed := s.status.keyed, errcode := .noError }, pos := .idle }

/-! ### Errors and flags, over all commands -/

/-- R250: a command that raises has changed STATUS and nothing else. R248: once its checks have passed it cannot raise. -/
def Obligations.ErrorsArePrecise : Prop :=
  (∀ (i : Instr) (s t : State), s.status.err = false → exec i s = .next t → t.status.err = true →
    t = { s with status := { s.status with busy := false, done := false, err := true, errcode := t.status.errcode },
                 pos := .idle } ∧ t.status.errcode ≠ .noError ∧ checks i s = some t.status.errcode) ∧
  (∀ (s : State) (code : ErrCode), s.raise code =
    { s with status := { s.status with busy := false, done := false, err := true, errcode := code }, pos := .idle }) ∧
  (∀ (i : Instr) (s : State), s.status.err = false → checks i s = none →
    ∃ t, exec i s = .next t ∧ t.status.err = false)

/-- R290, R42: every command ends, in every state, with a next state. -/
def Obligations.EveryCommandEnds : Prop := ∀ (i : Instr) (s : State), ∃ t, exec i s = .next t

/-- R34: KEYED is set by MACKEY, cleared by reset, and read by PBKDF2. -/
def Obligations.KeyedIsSetByMackeyOnly : Prop :=
  (∀ s t : State, s.Inv → step s = .next t → s.status.keyed = false → t.status.keyed = true →
    ∃ rest, s.port = .regWrite 0x00 0x00000005#32 :: rest) ∧
  (∀ s t : State, s.Inv → step s = .next t → s.status.keyed = true → t.status.keyed = false →
    ∃ rest, s.port = .reset :: rest) ∧
  (∀ i ∈ [Instr.pbkdf2SB, .pbkdf2SDk, .pbkdf2BDk], ∀ s : State, s.status.err = false → s.status.keyed = false →
    exec i s = .next (s.raise .notKeyed)) ∧
  (∀ s t : State, s.status.err = false → exec .mackey s = .next t → t.status.err = false → t.status.keyed = true) ∧
  (∀ s : State, s.resetEvent.status.keyed = false)

/-- R46, R47: the key is written by MACKEY only (reset makes it undefined), and no message is pending between commands. -/
def Obligations.MacKeyIsWrittenByMackeyOnly : Prop :=
  ∀ s t : State, s.Inv → step s = .next t →
    t.mac.buf = [] ∧ (t.mac.key ≠ s.mac.key →
      ∃ rest, s.port = .regWrite 0x00 0x00000005#32 :: rest ∨ s.port = .reset :: rest)

/-- R24, R61, R62: no command changes a parameter register, a byte of PW or a byte of S. -/
def Obligations.NoCommandWritesParametersPasswordOrSalt : Prop :=
  ∀ (i : Instr) (s t : State), exec i s = .next t →
    t.regs = s.regs ∧ (∀ a, t.readByte .pw a = s.readByte .pw a) ∧ (∀ a, t.readByte .s a = s.readByte .s a)

/-- R48: nothing changes the configuration. -/
def Obligations.ConfigurationIsFixed : Prop := ∀ s t : State, step s = .next t → t.cfg = s.cfg

/-! ### The host interface -/

/-- R30: the layout of STATUS. -/
def Obligations.StatusLayout : Prop :=
  ∀ st : Status, st.toWord.getLsbD 0 = st.busy ∧ st.toWord.getLsbD 1 = st.done ∧ st.toWord.getLsbD 2 = st.err ∧
    st.toWord.getLsbD 3 = st.keyed ∧ st.toWord.extractLsb' 4 4 = 0#4 ∧
    st.toWord.extractLsb' 8 8 = st.errcode.toByte ∧ st.toWord.extractLsb' 16 16 = 0#16

/-- R24: a read-write register reads back the last value written, and a write of it changes nothing else. -/
def Obligations.ParameterRegistersReadBack : Prop :=
  ∀ off ∈ [0x08, 0x0C, 0x10, 0x14, 0x18, 0x1C, 0x20], ∀ (v : Word) (s : State) (rest : List HostAccess),
    s.status.busy = false → s.port = .regWrite off v :: rest →
    ∃ t, step s = .next t ∧ step { t with port := [.regRead off] } = .next { t with port := [], reply := some (.word v) } ∧
      (∀ off' ∈ [0x00, 0x04, 0x08, 0x0C, 0x10, 0x14, 0x18, 0x1C, 0x20], off' ≠ off →
        hostRegRead off' t = .next (t.answer (.word (((regAt off').map { s with port := rest }.readReg).getD 0)))) ∧
      t = { s with port := rest, regs := t.regs }

/-- R29, R37: CMD reads 0, and a write to STATUS is ignored. -/
def Obligations.CmdReadsZeroAndStatusIsReadOnly : Prop :=
  ∀ (s : State) (rest : List HostAccess) (v : Word), s.status.busy = false →
    (s.port = .regRead 0x00 :: rest → step s = .next { s with port := rest, reply := some (.word 0) }) ∧
    (s.port = .regRead 0x04 :: rest → step s = .next { s with port := rest, reply := some (.word s.status.toWord) }) ∧
    (s.port = .regWrite 0x04 v :: rest → step s = .next { s with port := rest })

/-- R38: offsets 0x24 and above, accesses that are not 4-byte aligned and accesses that are not 32 bits wide are refused.
The model's choices here (log entry 9): an undefined offset is refused by this name also while BUSY is 1, and a term
`regSized` of width 32, which stands for no access, is refused like the others. -/
def Obligations.UndefinedRegisterAccessesAreRefused : Prop :=
  ∀ (s : State) (off bits : Nat) (v : Word) (rest : List HostAccess),
    (0x24 ≤ off ∨ off % 4 ≠ 0 →
      (s.port = .regRead off :: rest → step s = .refused (.registerOffsetNotDefined off)) ∧
      (s.port = .regWrite off v :: rest → step s = .refused (.registerOffsetNotDefined off))) ∧
    (s.port = .regSized off bits :: rest → step s = .refused (.registerWidthNotDefined bits))

/-- R37, R68: while BUSY is 1 the host may read STATUS, and any other access to a register or a buffer is refused. -/
def Obligations.OnlyStatusMayBeReadWhileBusy : Prop :=
  ∀ (s : State) (rest : List HostAccess), s.status.busy = true →
    (s.port = .regRead 0x04 :: rest → step s = .next { s with port := rest, reply := some (.word s.status.toWord) }) ∧
    (∀ off ∈ [0x00, 0x08, 0x0C, 0x10, 0x14, 0x18, 0x1C, 0x20], s.port = .regRead off :: rest →
      step s = .refused .hostAccessWhileBusy) ∧
    (∀ off ∈ [0x00, 0x04, 0x08, 0x0C, 0x10, 0x14, 0x18, 0x1C, 0x20], ∀ v, s.port = .regWrite off v :: rest →
      step s = .refused .hostAccessWhileBusy) ∧
    (∀ sp off v, s.port = .bufWrite sp off v :: rest → step s = .refused .hostAccessWhileBusy) ∧
    (∀ sp off, s.port = .bufRead sp off :: rest → step s = .refused .hostAccessWhileBusy)

/-- R60, R68: the host writes one byte of a space and changes no other; a read returns the byte and changes nothing; an
offset the space does not have is no place, and that the model faults there is the model's choice (log entry 8). -/
def Obligations.BufferBytesReadBack : Prop :=
  ∀ (s : State) (rest : List HostAccess) (sp : Space) (off : Nat) (v : Byte), s.status.busy = false →
    (s.port = .bufWrite sp off v :: rest → off < s.cfg.cap sp →
      ∃ t, step s = .next t ∧ t.readByte sp off = v ∧ SameBytesOutside (Place sp off 1) s t ∧
        t = { s with port := rest, mem := t.mem }) ∧
    (s.port = .bufRead sp off :: rest → off < s.cfg.cap sp →
      step s = .next { s with port := rest, reply := some (.byte (s.readByte sp off)) }) ∧
    (s.port = .bufWrite sp off v :: rest ∨ s.port = .bufRead sp off :: rest → s.cfg.cap sp ≤ off →
      step s = .fault (.bufferOffsetOutsideSpace sp off))

/-! ### Reset and invariants -/

/-- R50, R51: the values reset gives, at power-on and at every later reset; every buffer byte is unspecified anew. That
an unspecified byte is `Config.residue` is the model's form of it (log entry 1). -/
def Obligations.ResetValues : Prop :=
  ∀ s : State, s = State.reset ∨ (∃ s' rest, s'.port = .reset :: rest ∧ step s' = .next s) →
    s.regs = { n := 0, r := 0, p := 0, plen := 0, slen := 0, olen := 0, iter := 0 } ∧
    s.status = { busy := false, done := false, err := false, keyed := false, errcode := .noError } ∧
    s.status.toWord = 0x00000000#32 ∧ s.pos = .idle ∧ s.mac.buf = [] ∧
    (∀ sp a, s.readByte sp a = Config.residue s.epoch sp a)

/-- R270, R272: reset acts in every state, also while BUSY is 1, clears STATUS and keeps the configuration. The rest is the
model's choice and speaks of its own fields: reset is one access of the host's queue (log entries 6, 11) and counts up
`epoch`, the argument of the free value of an unwritten byte (log entry 1); `ResetValues` states the bytes. -/
def Obligations.ResetActsInEveryState : Prop :=
  ∀ (s : State) (rest : List HostAccess), s.port = .reset :: rest →
    ∃ t, step s = .next t ∧ fineStep s = .next t ∧ t.status.toWord = 0#32 ∧ t.cfg = s.cfg ∧ t.epoch = s.epoch + 1 ∧
      t.port = rest

/-- The invariant holds at reset. -/
def Obligations.InvariantAtReset : Prop := State.reset.Inv

/-- Every step keeps the invariant: the command boundary (R42, R46), a consistent STATUS (R32, R33, R35), canonical buffer
spaces inside their capacities (R60, R246), a key that fits (R45), no key without a MAC (R243). -/
def Obligations.StepKeepsTheInvariant : Prop := ∀ s t : State, s.Inv → step s = .next t → t.Inv

/-- R37, R38, R60: from a state at a command boundary a step stops only at an access that the spec does not define. The
fault at an offset that a space does not have is the model's choice (log entry 8). -/
def Obligations.OnlyUndefinedAccessesStop : Prop :=
  ∀ s : State, s.Inv → (¬ ∃ t, step s = .next t) →
    (∃ off v rest, regAt off = none ∧ (s.port = .regRead off :: rest ∨ s.port = .regWrite off v :: rest)) ∨
    (∃ off bits rest, s.port = .regSized off bits :: rest) ∨
    (∃ sp off v rest, s.cfg.cap sp ≤ off ∧ (s.port = .bufWrite sp off v :: rest ∨ s.port = .bufRead sp off :: rest))

/-! ### The MAC -/

/-- R222, R223: updates concatenate; `finalize` returns `MAC(mac_key, mac_buf)` (in the register `U`), empties the message and
keeps the key. -/
def Obligations.MacUpdatesAndFinalize : Prop :=
  ∀ (s : State) (a b : List Byte),
    (s.macUpdate a).mac = { key := s.mac.key, buf := s.mac.buf ++ a } ∧
    (s.macUpdate a).macUpdate b = s.macUpdate (a ++ b) ∧ s.macUpdate [] = s ∧
    s.macFinalize.work.u = macFun s.cfg.mac s.mac.key s.mac.buf ∧
    s.macFinalize.mac = { key := s.mac.key, buf := [] } ∧
    s.macFinalize.mem = s.mem ∧ s.macFinalize.regs = s.regs ∧ s.macFinalize.status = s.status

/-- R233: the check values of SHA-256 and HMAC-SHA256. -/
def Obligations.ShaCheckValues : Prop :=
  (sha256 []).toList.map BitVec.toNat =
    [0xe3, 0xb0, 0xc4, 0x42, 0x98, 0xfc, 0x1c, 0x14, 0x9a, 0xfb, 0xf4, 0xc8, 0x99, 0x6f, 0xb9, 0x24,
     0x27, 0xae, 0x41, 0xe4, 0x64, 0x9b, 0x93, 0x4c, 0xa4, 0x95, 0x99, 0x1b, 0x78, 0x52, 0xb8, 0x55] ∧
  (sha256 [0x61, 0x62, 0x63]).toList.map BitVec.toNat =
    [0xba, 0x78, 0x16, 0xbf, 0x8f, 0x01, 0xcf, 0xea, 0x41, 0x41, 0x40, 0xde, 0x5d, 0xae, 0x22, 0x23,
     0xb0, 0x03, 0x61, 0xa3, 0x96, 0x17, 0x7a, 0x9c, 0xb4, 0x10, 0xff, 0x61, 0xf2, 0x00, 0x15, 0xad] ∧
  (hmacSha256 (List.replicate 20 0x0b) [0x48, 0x69, 0x20, 0x54, 0x68, 0x65, 0x72, 0x65]).toList.map BitVec.toNat =
    [0xb0, 0x34, 0x4c, 0x61, 0xd8, 0xdb, 0x38, 0x53, 0x5c, 0xa8, 0xaf, 0xce, 0xaf, 0x0b, 0xf1, 0x2b,
     0x88, 0x1d, 0xc2, 0x00, 0xc9, 0x83, 0x3d, 0xa7, 0x26, 0xe9, 0x37, 0x6c, 0x2e, 0x32, 0xcf, 0xf7]

/-! ### The sequencer and the driver -/

/-- R42 (with R41, R31): for every command word and every start state the sequencer, position by position, reaches exactly
the end state of the command, in finitely many moves, and BUSY is 1 until then. Which work stands in which position is
inferred where R41 does not say it (log entry 7). -/
def Obligations.SequencerReachesTheCommandsEndState : Prop :=
  ∀ (s : State) (w : Word), s.status.busy = false → s.pos = .idle →
    ∃ t u n, s.cmdWrite w = .next t ∧ s.cmdStart w = .next u ∧ u.ticks n = t ∧
      ∀ m, m < n → (u.ticks m).status.busy = true

/-- R202 (with R200): for inputs that pass every check, on a block with enough capacity (R204) and in any state that is
ready, DERIVE ends with the scrypt derived key. That the parameters are 32-bit values and the premise `deriveFits` are the
model's choice (log entry 10). -/
def Obligations.DeriveComputesScrypt : Prop :=
  ∀ (passwd salt : List Byte) (n r p dkLen : Word) (s : State),
    s.status.err = false → s.status.busy = false → s.cfg.macPresent = true →
    validate s.cfg.max n.toNat r.toNat p.toNat = .noError → deriveFits passwd salt r.toNat p.toNat = true →
    passwd.length ≤ s.cfg.capPw → salt.length ≤ s.cfg.capS → 128 * r.toNat * p.toNat ≤ s.cfg.capB →
    128 * r.toNat * n.toNat ≤ s.cfg.capV → 256 * r.toNat ≤ s.cfg.capXy → dkLen.toNat ≤ s.cfg.capDk →
    ∃ t, derive passwd salt n r p dkLen s =
      .finished (scrypt (macFun s.cfg.mac) passwd salt n.toNat r.toNat p.toNat dkLen.toNat) t

/-- R201, R203: for parameters the validator refuses DERIVE ends with the validator's code, also on an instance without a
MAC, and no buffer byte has been written. -/
def Obligations.DeriveReportsBadParametersFirst : Prop :=
  ∀ (passwd salt : List Byte) (n r p dkLen : Word) (s : State) (code : ErrCode),
    s.status.err = false → s.status.busy = false →
    validate s.cfg.max n.toNat r.toNat p.toNat = code → code ≠ .noError →
    ∃ t, derive passwd salt n r p dkLen s = .error code.toByte t ∧ t.mem = s.mem ∧ t.mac = s.mac

/-- R200, R203: DERIVE stops at the first command that raises and reports its code: ALGORITHM_UNAVAILABLE (0x10) of MACKEY on
an instance without a MAC, CAPACITY (0x22) of `PBKDF2 S, B`, of ROMIX or of `PBKDF2 B, DK` where a space is too small.
A value is asked to fit its register or field only at the line that writes it (log entry 10). -/
def Obligations.DeriveReportsTheFailingCommand : Prop :=
  ∀ (passwd salt : List Byte) (n r p dkLen : Word) (s : State),
    s.status.err = false → s.status.busy = false → validate s.cfg.max n.toNat r.toNat p.toNat = .noError →
    passwd.length ≤ s.cfg.capPw → passwd.length < 2 ^ 32 →
    (s.cfg.macPresent = false → ∃ t, derive passwd salt n r p dkLen s = .error 0x10#8 t) ∧
    (s.cfg.macPresent = true → salt.length ≤ s.cfg.capS → salt.length < 2 ^ 32 → 128 * r.toNat * p.toNat < 2 ^ 32 →
      (s.cfg.capB < 128 * r.toNat * p.toNat → ∃ t, derive passwd salt n r p dkLen s = .error 0x22#8 t) ∧
      (128 * r.toNat * p.toNat ≤ s.cfg.capB → s.cfg.capV < 128 * r.toNat * n.toNat ∨ s.cfg.capXy < 256 * r.toNat →
        ∃ t, derive passwd salt n r p dkLen s = .error 0x22#8 t) ∧
      (128 * r.toNat * p.toNat ≤ s.cfg.capB → 128 * r.toNat * n.toNat ≤ s.cfg.capV → 256 * r.toNat ≤ s.cfg.capXy →
        p.toNat ≤ 2 ^ 24 → s.cfg.capDk < dkLen.toNat →
        ∃ t, derive passwd salt n r p dkLen s = .error 0x22#8 t))
end

