-- ==== Sys2Proof/Laws/Loop.lean ====
section
/-! SUPPORT. What holds along a loop. -/

namespace Sys2Proof.Machine

variable {σ : Type}

@[simp] theorem loop_zero (body : Nat → σ → σ) (s : σ) : loop body 0 s = s := rfl

theorem loop_succ (body : Nat → σ → σ) (n : Nat) (s : σ) : loop body (n + 1) s = body n (loop body n s) := rfl

/-- A property that depends on the number of turns done, kept by every turn. -/
theorem loop_induct {body : Nat → σ → σ} {P : Nat → σ → Prop} (n : Nat) {s : σ} (h0 : P 0 s)
    (hstep : ∀ i s, i < n → P i s → P (i + 1) (body i s)) : P n (loop body n s) := by
  induction n with
  | zero => exact h0
  | succ n ih => exact hstep n _ (by omega) (ih fun i s hi => hstep i s (by omega))

/-- What no turn changes, the loop does not change. -/
theorem loop_same {α : Type} (f : σ → α) {body : Nat → σ → σ} (h : ∀ i s, f (body i s) = f s) (n : Nat) (s : σ) :
    f (loop body n s) = f s := by
  induction n with
  | zero => rfl
  | succ n ih => rw [loop_succ, h, ih]

/-- The first turn taken apart: the rest is a loop whose counter is one further on. -/
theorem loop_succ_first (body : Nat → σ → σ) (n : Nat) (s : σ) :
    loop body (n + 1) s = loop (fun i => body (i + 1)) n (body 0 s) := by
  induction n with
  | zero => rfl
  | succ n ih => rw [loop_succ, ih, loop_succ]

/-- Turns in which the counter plays no part can be counted from either end. -/
theorem loop_const_add (f : σ → σ) (m n : Nat) (s : σ) :
    loop (fun _ => f) (m + n) s = loop (fun _ => f) m (loop (fun _ => f) n s) := by
  induction m with
  | zero => simp
  | succ m ih => rw [Nat.succ_add, loop_succ, ih, loop_succ]

end Sys2Proof.Machine
end

