-- ==== Sys2Proof/Laws/State.lean ====
section
/-! SUPPORT. The fields of every named update of the state, each true by `rfl`, so that no proof unfolds a record update. -/

namespace Sys2Proof.Machine

variable (s : State)

/-! ### `writeByte` -/

@[simp] theorem State.writeByte_cfg (sp : Space) (off : Nat) (v : Byte) : (s.writeByte sp off v).cfg = s.cfg := rfl
@[simp] theorem State.writeByte_regs (sp : Space) (off : Nat) (v : Byte) : (s.writeByte sp off v).regs = s.regs := rfl
@[simp] theorem State.writeByte_status (sp : Space) (off : Nat) (v : Byte) : (s.writeByte sp off v).status = s.status := rfl
@[simp] theorem State.writeByte_pos (sp : Space) (off : Nat) (v : Byte) : (s.writeByte sp off v).pos = s.pos := rfl
@[simp] theorem State.writeByte_work (sp : Space) (off : Nat) (v : Byte) : (s.writeByte sp off v).work = s.work := rfl
@[simp] theorem State.writeByte_mac (sp : Space) (off : Nat) (v : Byte) : (s.writeByte sp off v).mac = s.mac := rfl
@[simp] theorem State.writeByte_mem (sp : Space) (off : Nat) (v : Byte) : (s.writeByte sp off v).mem = s.mem.set sp ((s.mem.get sp).write off v) := rfl
@[simp] theorem State.writeByte_epoch (sp : Space) (off : Nat) (v : Byte) : (s.writeByte sp off v).epoch = s.epoch := rfl
@[simp] theorem State.writeByte_port (sp : Space) (off : Nat) (v : Byte) : (s.writeByte sp off v).port = s.port := rfl
@[simp] theorem State.writeByte_reply (sp : Space) (off : Nat) (v : Byte) : (s.writeByte sp off v).reply = s.reply := rfl

/-! ### `setWork` -/

@[simp] theorem State.setWork_cfg (w : WorkRegs) : (s.setWork w).cfg = s.cfg := rfl
@[simp] theorem State.setWork_regs (w : WorkRegs) : (s.setWork w).regs = s.regs := rfl
@[simp] theorem State.setWork_status (w : WorkRegs) : (s.setWork w).status = s.status := rfl
@[simp] theorem State.setWork_pos (w : WorkRegs) : (s.setWork w).pos = s.pos := rfl
@[simp] theorem State.setWork_work (w : WorkRegs) : (s.setWork w).work = w := rfl
@[simp] theorem State.setWork_mac (w : WorkRegs) : (s.setWork w).mac = s.mac := rfl
@[simp] theorem State.setWork_mem (w : WorkRegs) : (s.setWork w).mem = s.mem := rfl
@[simp] theorem State.setWork_epoch (w : WorkRegs) : (s.setWork w).epoch = s.epoch := rfl
@[simp] theorem State.setWork_port (w : WorkRegs) : (s.setWork w).port = s.port := rfl
@[simp] theorem State.setWork_reply (w : WorkRegs) : (s.setWork w).reply = s.reply := rfl

/-! ### `setMac` -/

@[simp] theorem State.setMac_cfg (m : MacState) : (s.setMac m).cfg = s.cfg := rfl
@[simp] theorem State.setMac_regs (m : MacState) : (s.setMac m).regs = s.regs := rfl
@[simp] theorem State.setMac_status (m : MacState) : (s.setMac m).status = s.status := rfl
@[simp] theorem State.setMac_pos (m : MacState) : (s.setMac m).pos = s.pos := rfl
@[simp] theorem State.setMac_work (m : MacState) : (s.setMac m).work = s.work := rfl
@[simp] theorem State.setMac_mac (m : MacState) : (s.setMac m).mac = m := rfl
@[simp] theorem State.setMac_mem (m : MacState) : (s.setMac m).mem = s.mem := rfl
@[simp] theorem State.setMac_epoch (m : MacState) : (s.setMac m).epoch = s.epoch := rfl
@[simp] theorem State.setMac_port (m : MacState) : (s.setMac m).port = s.port := rfl
@[simp] theorem State.setMac_reply (m : MacState) : (s.setMac m).reply = s.reply := rfl

/-! ### `begin` -/

@[simp] theorem State.begin_cfg : s.begin.cfg = s.cfg := rfl
@[simp] theorem State.begin_regs : s.begin.regs = s.regs := rfl
@[simp] theorem State.begin_status : s.begin.status = s.status.begin := rfl
@[simp] theorem State.begin_pos : s.begin.pos = s.pos := rfl
@[simp] theorem State.begin_work : s.begin.work = s.work := rfl
@[simp] theorem State.begin_mac : s.begin.mac = s.mac := rfl
@[simp] theorem State.begin_mem : s.begin.mem = s.mem := rfl
@[simp] theorem State.begin_epoch : s.begin.epoch = s.epoch := rfl
@[simp] theorem State.begin_port : s.begin.port = s.port := rfl
@[simp] theorem State.begin_reply : s.begin.reply = s.reply := rfl

/-! ### `complete` -/

@[simp] theorem State.complete_cfg : s.complete.cfg = s.cfg := rfl
@[simp] theorem State.complete_regs : s.complete.regs = s.regs := rfl
@[simp] theorem State.complete_status : s.complete.status = s.status.complete := rfl
@[simp] theorem State.complete_pos : s.complete.pos = .idle := rfl
@[simp] theorem State.complete_work : s.complete.work = s.work := rfl
@[simp] theorem State.complete_mac : s.complete.mac = s.mac := rfl
@[simp] theorem State.complete_mem : s.complete.mem = s.mem := rfl
@[simp] theorem State.complete_epoch : s.complete.epoch = s.epoch := rfl
@[simp] theorem State.complete_port : s.complete.port = s.port := rfl
@[simp] theorem State.complete_reply : s.complete.reply = s.reply := rfl

/-! ### `raise` -/

@[simp] theorem State.raise_cfg (code : ErrCode) : (s.raise code).cfg = s.cfg := rfl
@[simp] theorem State.raise_regs (code : ErrCode) : (s.raise code).regs = s.regs := rfl
@[simp] theorem State.raise_status (code : ErrCode) : (s.raise code).status = s.status.raise code := rfl
@[simp] theorem State.raise_pos (code : ErrCode) : (s.raise code).pos = .idle := rfl
@[simp] theorem State.raise_work (code : ErrCode) : (s.raise code).work = s.work := rfl
@[simp] theorem State.raise_mac (code : ErrCode) : (s.raise code).mac = s.mac := rfl
@[simp] theorem State.raise_mem (code : ErrCode) : (s.raise code).mem = s.mem := rfl
@[simp] theorem State.raise_epoch (code : ErrCode) : (s.raise code).epoch = s.epoch := rfl
@[simp] theorem State.raise_port (code : ErrCode) : (s.raise code).port = s.port := rfl
@[simp] theorem State.raise_reply (code : ErrCode) : (s.raise code).reply = s.reply := rfl

/-! ### `clearError` -/

@[simp] theorem State.clearError_cfg : s.clearError.cfg = s.cfg := rfl
@[simp] theorem State.clearError_regs : s.clearError.regs = s.regs := rfl
@[simp] theorem State.clearError_status : s.clearError.status = s.status.clearError := rfl
@[simp] theorem State.clearError_pos : s.clearError.pos = s.pos := rfl
@[simp] theorem State.clearError_work : s.clearError.work = s.work := rfl
@[simp] theorem State.clearError_mac : s.clearError.mac = s.mac := rfl
@[simp] theorem State.clearError_mem : s.clearError.mem = s.mem := rfl
@[simp] theorem State.clearError_epoch : s.clearError.epoch = s.epoch := rfl
@[simp] theorem State.clearError_port : s.clearError.port = s.port := rfl
@[simp] theorem State.clearError_reply : s.clearError.reply = s.reply := rfl

/-! ### `resetEvent` -/

@[simp] theorem State.resetEvent_cfg : s.resetEvent.cfg = s.cfg := rfl
@[simp] theorem State.resetEvent_regs : s.resetEvent.regs = State.reset.regs := rfl
@[simp] theorem State.resetEvent_status : s.resetEvent.status = State.reset.status := rfl
@[simp] theorem State.resetEvent_pos : s.resetEvent.pos = .idle := rfl
@[simp] theorem State.resetEvent_work : s.resetEvent.work = State.reset.work := rfl
@[simp] theorem State.resetEvent_mac : s.resetEvent.mac = State.reset.mac := rfl
@[simp] theorem State.resetEvent_mem : s.resetEvent.mem = Memory.empty := rfl
@[simp] theorem State.resetEvent_epoch : s.resetEvent.epoch = s.epoch + 1 := rfl
@[simp] theorem State.resetEvent_port : s.resetEvent.port = s.port := rfl
@[simp] theorem State.resetEvent_reply : s.resetEvent.reply = s.reply := rfl

/-! ### `macUpdate` -/

@[simp] theorem State.macUpdate_cfg (data : List Byte) : (s.macUpdate data).cfg = s.cfg := rfl
@[simp] theorem State.macUpdate_regs (data : List Byte) : (s.macUpdate data).regs = s.regs := rfl
@[simp] theorem State.macUpdate_status (data : List Byte) : (s.macUpdate data).status = s.status := rfl
@[simp] theorem State.macUpdate_pos (data : List Byte) : (s.macUpdate data).pos = s.pos := rfl
@[simp] theorem State.macUpdate_work (data : List Byte) : (s.macUpdate data).work = s.work := rfl
@[simp] theorem State.macUpdate_mac (data : List Byte) : (s.macUpdate data).mac = s.mac.update data := rfl
@[simp] theorem State.macUpdate_mem (data : List Byte) : (s.macUpdate data).mem = s.mem := rfl
@[simp] theorem State.macUpdate_epoch (data : List Byte) : (s.macUpdate data).epoch = s.epoch := rfl
@[simp] theorem State.macUpdate_port (data : List Byte) : (s.macUpdate data).port = s.port := rfl
@[simp] theorem State.macUpdate_reply (data : List Byte) : (s.macUpdate data).reply = s.reply := rfl

/-! ### `macFinalize` -/

@[simp] theorem State.macFinalize_cfg : s.macFinalize.cfg = s.cfg := rfl
@[simp] theorem State.macFinalize_regs : s.macFinalize.regs = s.regs := rfl
@[simp] theorem State.macFinalize_status : s.macFinalize.status = s.status := rfl
@[simp] theorem State.macFinalize_pos : s.macFinalize.pos = s.pos := rfl
@[simp] theorem State.macFinalize_work : s.macFinalize.work = { s.work with u := s.mac.result s.cfg.mac } := rfl
@[simp] theorem State.macFinalize_mac : s.macFinalize.mac = s.mac.finalize := rfl
@[simp] theorem State.macFinalize_mem : s.macFinalize.mem = s.mem := rfl
@[simp] theorem State.macFinalize_epoch : s.macFinalize.epoch = s.epoch := rfl
@[simp] theorem State.macFinalize_port : s.macFinalize.port = s.port := rfl
@[simp] theorem State.macFinalize_reply : s.macFinalize.reply = s.reply := rfl

/-! ### `coreLoad` -/

@[simp] theorem State.coreLoad_cfg (blk : Block) : (s.coreLoad blk).cfg = s.cfg := State.setWork_cfg _ _
@[simp] theorem State.coreLoad_regs (blk : Block) : (s.coreLoad blk).regs = s.regs := State.setWork_regs _ _
@[simp] theorem State.coreLoad_status (blk : Block) : (s.coreLoad blk).status = s.status := State.setWork_status _ _
@[simp] theorem State.coreLoad_pos (blk : Block) : (s.coreLoad blk).pos = s.pos := State.setWork_pos _ _
@[simp] theorem State.coreLoad_work (blk : Block) : (s.coreLoad blk).work = { s.work with inw := blockWords blk, x := blockWords blk } := State.setWork_work _ _
@[simp] theorem State.coreLoad_mac (blk : Block) : (s.coreLoad blk).mac = s.mac := State.setWork_mac _ _
@[simp] theorem State.coreLoad_mem (blk : Block) : (s.coreLoad blk).mem = s.mem := State.setWork_mem _ _
@[simp] theorem State.coreLoad_epoch (blk : Block) : (s.coreLoad blk).epoch = s.epoch := State.setWork_epoch _ _
@[simp] theorem State.coreLoad_port (blk : Block) : (s.coreLoad blk).port = s.port := State.setWork_port _ _
@[simp] theorem State.coreLoad_reply (blk : Block) : (s.coreLoad blk).reply = s.reply := State.setWork_reply _ _

/-! ### `coreRound` -/

@[simp] theorem State.coreRound_cfg : s.coreRound.cfg = s.cfg := State.setWork_cfg _ _
@[simp] theorem State.coreRound_regs : s.coreRound.regs = s.regs := State.setWork_regs _ _
@[simp] theorem State.coreRound_status : s.coreRound.status = s.status := State.setWork_status _ _
@[simp] theorem State.coreRound_pos : s.coreRound.pos = s.pos := State.setWork_pos _ _
@[simp] theorem State.coreRound_work : s.coreRound.work = { s.work with x := doubleRound s.work.x } := State.setWork_work _ _
@[simp] theorem State.coreRound_mac : s.coreRound.mac = s.mac := State.setWork_mac _ _
@[simp] theorem State.coreRound_mem : s.coreRound.mem = s.mem := State.setWork_mem _ _
@[simp] theorem State.coreRound_epoch : s.coreRound.epoch = s.epoch := State.setWork_epoch _ _
@[simp] theorem State.coreRound_port : s.coreRound.port = s.port := State.setWork_port _ _
@[simp] theorem State.coreRound_reply : s.coreRound.reply = s.reply := State.setWork_reply _ _

/-! ### `mixLoad` -/

@[simp] theorem State.mixLoad_cfg (r : Nat) : (State.mixLoad r s).cfg = s.cfg := State.setWork_cfg _ _
@[simp] theorem State.mixLoad_regs (r : Nat) : (State.mixLoad r s).regs = s.regs := State.setWork_regs _ _
@[simp] theorem State.mixLoad_status (r : Nat) : (State.mixLoad r s).status = s.status := State.setWork_status _ _
@[simp] theorem State.mixLoad_pos (r : Nat) : (State.mixLoad r s).pos = s.pos := State.setWork_pos _ _
@[simp] theorem State.mixLoad_work (r : Nat) : (State.mixLoad r s).work = { s.work with xb := s.readBlock .xy (xBlockOff (2 * r - 1)) } := State.setWork_work _ _
@[simp] theorem State.mixLoad_mac (r : Nat) : (State.mixLoad r s).mac = s.mac := State.setWork_mac _ _
@[simp] theorem State.mixLoad_mem (r : Nat) : (State.mixLoad r s).mem = s.mem := State.setWork_mem _ _
@[simp] theorem State.mixLoad_epoch (r : Nat) : (State.mixLoad r s).epoch = s.epoch := State.setWork_epoch _ _
@[simp] theorem State.mixLoad_port (r : Nat) : (State.mixLoad r s).port = s.port := State.setWork_port _ _
@[simp] theorem State.mixLoad_reply (r : Nat) : (State.mixLoad r s).reply = s.reply := State.setWork_reply _ _

/-! ### `answer` -/

@[simp] theorem State.answer_cfg (v : HostReply) : (s.answer v).cfg = s.cfg := rfl
@[simp] theorem State.answer_regs (v : HostReply) : (s.answer v).regs = s.regs := rfl
@[simp] theorem State.answer_status (v : HostReply) : (s.answer v).status = s.status := rfl
@[simp] theorem State.answer_pos (v : HostReply) : (s.answer v).pos = s.pos := rfl
@[simp] theorem State.answer_work (v : HostReply) : (s.answer v).work = s.work := rfl
@[simp] theorem State.answer_mac (v : HostReply) : (s.answer v).mac = s.mac := rfl
@[simp] theorem State.answer_mem (v : HostReply) : (s.answer v).mem = s.mem := rfl
@[simp] theorem State.answer_epoch (v : HostReply) : (s.answer v).epoch = s.epoch := rfl
@[simp] theorem State.answer_port (v : HostReply) : (s.answer v).port = s.port := rfl
@[simp] theorem State.answer_reply (v : HostReply) : (s.answer v).reply = some v := rfl

/-! ### `goto` -/

@[simp] theorem State.goto_cfg (op : Instr) (ph : Phase) : (s.goto op ph).cfg = s.cfg := rfl
@[simp] theorem State.goto_regs (op : Instr) (ph : Phase) : (s.goto op ph).regs = s.regs := rfl
@[simp] theorem State.goto_status (op : Instr) (ph : Phase) : (s.goto op ph).status = s.status := rfl
@[simp] theorem State.goto_pos (op : Instr) (ph : Phase) : (s.goto op ph).pos = .running op ph := rfl
@[simp] theorem State.goto_work (op : Instr) (ph : Phase) : (s.goto op ph).work = s.work := rfl
@[simp] theorem State.goto_mac (op : Instr) (ph : Phase) : (s.goto op ph).mac = s.mac := rfl
@[simp] theorem State.goto_mem (op : Instr) (ph : Phase) : (s.goto op ph).mem = s.mem := rfl
@[simp] theorem State.goto_epoch (op : Instr) (ph : Phase) : (s.goto op ph).epoch = s.epoch := rfl
@[simp] theorem State.goto_port (op : Instr) (ph : Phase) : (s.goto op ph).port = s.port := rfl
@[simp] theorem State.goto_reply (op : Instr) (ph : Phase) : (s.goto op ph).reply = s.reply := rfl

/-! ### STATUS -/

@[simp] theorem Status.begin_err (st : Status) : st.begin.err = st.err := rfl
@[simp] theorem Status.begin_keyed (st : Status) : st.begin.keyed = st.keyed := rfl
@[simp] theorem Status.begin_errcode (st : Status) : st.begin.errcode = st.errcode := rfl
@[simp] theorem Status.begin_busy (st : Status) : st.begin.busy = true := rfl
@[simp] theorem Status.begin_done (st : Status) : st.begin.done = false := rfl
@[simp] theorem Status.complete_err (st : Status) : st.complete.err = st.err := rfl
@[simp] theorem Status.complete_keyed (st : Status) : st.complete.keyed = st.keyed := rfl
@[simp] theorem Status.complete_errcode (st : Status) : st.complete.errcode = st.errcode := rfl
@[simp] theorem Status.complete_busy (st : Status) : st.complete.busy = false := rfl
@[simp] theorem Status.complete_done (st : Status) : st.complete.done = true := rfl
@[simp] theorem Status.raise_err (st : Status) (c : ErrCode) : (st.raise c).err = true := rfl
@[simp] theorem Status.raise_keyed (st : Status) (c : ErrCode) : (st.raise c).keyed = st.keyed := rfl
@[simp] theorem Status.raise_errcode (st : Status) (c : ErrCode) : (st.raise c).errcode = c := rfl
@[simp] theorem Status.raise_busy (st : Status) (c : ErrCode) : (st.raise c).busy = false := rfl
@[simp] theorem Status.raise_done (st : Status) (c : ErrCode) : (st.raise c).done = false := rfl
@[simp] theorem Status.clearError_err (st : Status) : st.clearError.err = false := rfl
@[simp] theorem Status.clearError_keyed (st : Status) : st.clearError.keyed = st.keyed := rfl
@[simp] theorem Status.clearError_errcode (st : Status) : st.clearError.errcode = .noError := rfl
@[simp] theorem Status.clearError_busy (st : Status) : st.clearError.busy = st.busy := rfl
@[simp] theorem Status.clearError_done (st : Status) : st.clearError.done = st.done := rfl
@[simp] theorem Status.setKeyed_err (st : Status) : st.setKeyed.err = st.err := rfl
@[simp] theorem Status.setKeyed_keyed (st : Status) : st.setKeyed.keyed = true := rfl
@[simp] theorem Status.setKeyed_errcode (st : Status) : st.setKeyed.errcode = st.errcode := rfl
@[simp] theorem Status.setKeyed_busy (st : Status) : st.setKeyed.busy = st.busy := rfl
@[simp] theorem Status.setKeyed_done (st : Status) : st.setKeyed.done = st.done := rfl

/-- Raising after the command has begun is raising: BUSY and DONE are written again. -/
@[simp] theorem State.begin_raise (c : ErrCode) : s.begin.raise c = s.raise c := rfl

/-! ### The parameters, which only a change of the registers can change -/

theorem State.pN_congr {s t : State} (h : t.regs = s.regs) : t.pN = s.pN := by simp [State.pN, h]
theorem State.pR_congr {s t : State} (h : t.regs = s.regs) : t.pR = s.pR := by simp [State.pR, h]
theorem State.pP_congr {s t : State} (h : t.regs = s.regs) : t.pP = s.pP := by simp [State.pP, h]
theorem State.pPlen_congr {s t : State} (h : t.regs = s.regs) : t.pPlen = s.pPlen := by simp [State.pPlen, h]
theorem State.pSlen_congr {s t : State} (h : t.regs = s.regs) : t.pSlen = s.pSlen := by simp [State.pSlen, h]
theorem State.pOlen_congr {s t : State} (h : t.regs = s.regs) : t.pOlen = s.pOlen := by simp [State.pOlen, h]
theorem State.pIter_congr {s t : State} (h : t.regs = s.regs) : t.pIter = s.pIter := by simp [State.pIter, h]

end Sys2Proof.Machine
end

