-- ==== Sys2Proof/Laws/Memory.lean ====
section
/-! SUPPORT. Memory: a read after a write to the same place gives what was written, every other place is left alone, and
every operation keeps the canonical form. -/

namespace Sys2Proof.Machine

/-! ### One space -/

theorem Cells.read_write (c : Cells) (a b : Nat) (v : Byte) :
    (c.write a v).read b = if b = a then some v else c.read b := by
  induction c with
  | nil => simp [Cells.write, Cells.read]
  | cons e t ih =>
    obtain ⟨k, w⟩ := e
    simp only [Cells.write]
    split
    · simp [Cells.read]
    · split
      · rename_i h; subst h
        by_cases hb : b = a <;> simp [Cells.read, hb]
      · rename_i hak
        simp only [Cells.read, ih]
        by_cases hb : b = k
        · subst hb
          have : b ≠ a := fun h => hak h.symm
          simp [this]
        · simp [hb]

/-- Every listed offset of `c` is above `k`. -/
def Cells.above (c : Cells) (k : Nat) : Prop := ∀ e ∈ c, k < e.1

theorem Cells.wf_cons (k : Nat) (v : Byte) (t : Cells) :
    Cells.wf ((k, v) :: t) = true ↔ Cells.above t k ∧ Cells.wf t = true := by
  induction t generalizing k v with
  | nil => simp [Cells.wf, Cells.above]
  | cons e t ih =>
    obtain ⟨k', v'⟩ := e
    rw [Cells.wf, Bool.and_eq_true, decide_eq_true_eq]
    constructor
    · rintro ⟨hk, hw⟩
      refine ⟨?_, hw⟩
      intro e he
      rcases List.mem_cons.1 he with rfl | he
      · exact hk
      · exact lt_trans hk (((ih k' v').1 hw).1 e he)
    · rintro ⟨ha, hw⟩
      exact ⟨ha (k', v') (by simp), hw⟩

theorem Cells.mem_write {c : Cells} {a : Nat} {v : Byte} {e : Host.Cell} (h : e ∈ c.write a v) : e = (a, v) ∨ e ∈ c := by
  induction c with
  | nil => simpa [Cells.write] using h
  | cons x t ih =>
    obtain ⟨k, w⟩ := x
    simp only [Cells.write] at h
    split at h
    · simpa using h
    · split at h
      · rcases List.mem_cons.1 h with rfl | h
        · simp
        · simp [h]
      · rcases List.mem_cons.1 h with rfl | h
        · simp
        · rcases ih h with h | h <;> simp [h]

theorem Cells.write_wf {c : Cells} (hc : c.wf = true) (a : Nat) (v : Byte) : (c.write a v).wf = true := by
  induction c with
  | nil => rfl
  | cons x t ih =>
    obtain ⟨k, w⟩ := x
    obtain ⟨ha, ht⟩ := (Cells.wf_cons k w t).1 hc
    simp only [Cells.write]
    split
    · rename_i h
      refine (Cells.wf_cons _ _ _).2 ⟨?_, hc⟩
      intro e he
      rcases List.mem_cons.1 he with rfl | he
      · exact h
      · exact lt_trans h (ha e he)
    · split
      · rename_i h; subst h
        exact (Cells.wf_cons _ _ _).2 ⟨ha, ht⟩
      · refine (Cells.wf_cons _ _ _).2 ⟨?_, ih ht⟩
        intro e he
        rcases Cells.mem_write he with rfl | he
        · simp only; omega
        · exact ha e he

theorem Cells.write_below {c : Cells} {cap a : Nat} (hc : c.below cap = true) (ha : a < cap) (v : Byte) :
    (c.write a v).below cap = true := by
  simp only [Cells.below, List.all_eq_true, decide_eq_true_eq] at *
  intro e he
  rcases Cells.mem_write he with rfl | he
  · exact ha
  · exact hc e he

/-! ### The six spaces -/

@[simp] theorem Memory.get_set_same (m : Memory) (sp : Space) (c : Cells) : (m.set sp c).get sp = c := by
  cases sp <;> rfl

theorem Memory.get_set_other (m : Memory) {sp sp' : Space} (c : Cells) (h : sp' ≠ sp) :
    (m.set sp c).get sp' = m.get sp' := by
  cases sp <;> cases sp' <;> first | rfl | exact absurd rfl h

theorem Memory.wf_iff (m : Memory) : m.wf = true ↔ ∀ sp, (m.get sp).wf = true := by
  constructor
  · intro h sp
    simp only [Memory.wf, Bool.and_eq_true] at h
    cases sp <;> simp [Memory.get, h]
  · intro h
    have := h .pw; have := h .s; have := h .b; have := h .v; have := h .xy; have := h .dk
    simp_all [Memory.wf, Memory.get]

theorem Memory.below_iff (m : Memory) (c : Config) : m.below c = true ↔ ∀ sp, (m.get sp).below (c.cap sp) = true := by
  constructor
  · intro h sp
    simp only [Memory.below, Bool.and_eq_true] at h
    cases sp <;> simp [Memory.get, Config.cap, h]
  · intro h
    have := h .pw; have := h .s; have := h .b; have := h .v; have := h .xy; have := h .dk
    simp_all [Memory.below, Memory.get, Config.cap]

theorem Memory.set_wf {m : Memory} (h : m.wf = true) (sp : Space) {c : Cells} (hc : c.wf = true) :
    (m.set sp c).wf = true := by
  rw [Memory.wf_iff] at *
  intro sp'
  by_cases e : sp' = sp
  · subst e; simpa using hc
  · rw [Memory.get_set_other _ _ e]; exact h sp'

/-! ### Bytes of the state -/

theorem State.readByte_writeByte (s : State) (sp sp' : Space) (off a : Nat) (v : Byte) :
    (s.writeByte sp off v).readByte sp' a = if sp' = sp ∧ a = off then v else s.readByte sp' a := by
  by_cases e : sp' = sp
  · subst e
    simp only [State.readByte, State.unlisted, State.writeByte_mem, State.writeByte_epoch, Memory.get_set_same,
      Cells.read_write, true_and]
    split <;> simp
  · simp [State.readByte, State.unlisted, Memory.get_set_other _ _ e, e]

/-- A read depends on the memory and the epoch alone. -/
theorem State.readByte_congr {s t : State} (hm : t.mem = s.mem) (he : t.epoch = s.epoch) (sp : Space) (a : Nat) :
    t.readByte sp a = s.readByte sp a := by
  simp [State.readByte, State.unlisted, hm, he]

@[simp] theorem State.writeBytes_nil (s : State) (sp : Space) (off : Nat) : s.writeBytes sp off [] = s := rfl

theorem State.writeBytes_cons (s : State) (sp : Space) (off : Nat) (v : Byte) (vs : List Byte) :
    s.writeBytes sp off (v :: vs) = (s.writeByte sp off v).writeBytes sp (off + 1) vs := rfl

/-- Everything a write of a byte sequence does to a byte. -/
theorem State.readByte_writeBytes (s : State) (sp sp' : Space) (off a : Nat) (vs : List Byte) :
    (s.writeBytes sp off vs).readByte sp' a =
      if sp' = sp ∧ off ≤ a ∧ a < off + vs.length then vs.getD (a - off) 0 else s.readByte sp' a := by
  induction vs generalizing s off with
  | nil =>
    have : ¬ (sp' = sp ∧ off ≤ a ∧ a < off + ([] : List Byte).length) := by simp only [List.length_nil]; omega
    rw [if_neg this, State.writeBytes_nil]
  | cons v vs ih =>
    rw [State.writeBytes_cons, ih, State.readByte_writeByte]
    by_cases e : sp' = sp
    · subst e
      simp only [true_and, List.length_cons]
      by_cases h1 : a = off
      · subst h1
        simp
      · by_cases h2 : off + 1 ≤ a ∧ a < off + 1 + vs.length
        · rw [if_pos h2, if_pos ⟨by omega, by omega⟩]
          have : a - off = (a - (off + 1)) + 1 := by omega
          rw [this, List.getD_cons_succ]
        · rw [if_neg h2, if_neg h1, if_neg (by omega)]
    · simp [e]

section fields
variable (s : State) (sp : Space) (off : Nat) (vs : List Byte)

@[simp] theorem State.writeBytes_cfg : (s.writeBytes sp off vs).cfg = s.cfg := by
  induction vs generalizing s off with
  | nil => rfl
  | cons v vs ih => rw [State.writeBytes_cons, ih]; rfl
@[simp] theorem State.writeBytes_regs : (s.writeBytes sp off vs).regs = s.regs := by
  induction vs generalizing s off with
  | nil => rfl
  | cons v vs ih => rw [State.writeBytes_cons, ih]; rfl
@[simp] theorem State.writeBytes_status : (s.writeBytes sp off vs).status = s.status := by
  induction vs generalizing s off with
  | nil => rfl
  | cons v vs ih => rw [State.writeBytes_cons, ih]; rfl
@[simp] theorem State.writeBytes_pos : (s.writeBytes sp off vs).pos = s.pos := by
  induction vs generalizing s off with
  | nil => rfl
  | cons v vs ih => rw [State.writeBytes_cons, ih]; rfl
@[simp] theorem State.writeBytes_work : (s.writeBytes sp off vs).work = s.work := by
  induction vs generalizing s off with
  | nil => rfl
  | cons v vs ih => rw [State.writeBytes_cons, ih]; rfl
@[simp] theorem State.writeBytes_mac : (s.writeBytes sp off vs).mac = s.mac := by
  induction vs generalizing s off with
  | nil => rfl
  | cons v vs ih => rw [State.writeBytes_cons, ih]; rfl
@[simp] theorem State.writeBytes_epoch : (s.writeBytes sp off vs).epoch = s.epoch := by
  induction vs generalizing s off with
  | nil => rfl
  | cons v vs ih => rw [State.writeBytes_cons, ih]; rfl
@[simp] theorem State.writeBytes_port : (s.writeBytes sp off vs).port = s.port := by
  induction vs generalizing s off with
  | nil => rfl
  | cons v vs ih => rw [State.writeBytes_cons, ih]; rfl
@[simp] theorem State.writeBytes_reply : (s.writeBytes sp off vs).reply = s.reply := by
  induction vs generalizing s off with
  | nil => rfl
  | cons v vs ih => rw [State.writeBytes_cons, ih]; rfl

end fields

/-! ### Byte sequences -/

@[simp] theorem State.length_readBytes (s : State) (sp : Space) (off n : Nat) : (s.readBytes sp off n).length = n := by
  simp [State.readBytes]

theorem State.getD_readBytes (s : State) (sp : Space) {off n k : Nat} (h : k < n) :
    (s.readBytes sp off n).getD k 0 = s.readByte sp (off + k) := by
  simp [State.readBytes, List.getD, h]

/-- Two reads of a range agree exactly when every byte of it does. -/
theorem State.readBytes_eq_iff (s t : State) (sp sp' : Space) (off off' n : Nat) :
    s.readBytes sp off n = t.readBytes sp' off' n ↔
      ∀ k, k < n → s.readByte sp (off + k) = t.readByte sp' (off' + k) := by
  simp [State.readBytes]

/-- A byte sequence that a read returns, byte by byte. -/
theorem State.readBytes_eq_of_getD {s : State} {sp : Space} {off : Nat} {vs : List Byte}
    (h : ∀ k, k < vs.length → s.readByte sp (off + k) = vs.getD k 0) : s.readBytes sp off vs.length = vs := by
  apply List.ext_getElem (by simp)
  intro k h1 h2
  have := h k h2
  simp only [State.readBytes, List.getElem_map, List.getElem_range, this]
  simp [List.getD, h2]

/-- A read of what was just written. -/
theorem State.readBytes_writeBytes_same (s : State) (sp : Space) (off : Nat) (vs : List Byte) :
    (s.writeBytes sp off vs).readBytes sp off vs.length = vs := by
  apply State.readBytes_eq_of_getD
  intro k hk
  rw [State.readByte_writeBytes, if_pos ⟨rfl, by omega, by omega⟩]
  congr 1; omega

/-- A read of a range that a write does not meet. -/
theorem State.readBytes_writeBytes_other (s : State) {sp sp' : Space} {off off' n : Nat} {vs : List Byte}
    (h : sp' ≠ sp ∨ off' + n ≤ off ∨ off + vs.length ≤ off') :
    (s.writeBytes sp off vs).readBytes sp' off' n = s.readBytes sp' off' n := by
  rw [State.readBytes_eq_iff]
  intro k hk
  rw [State.readByte_writeBytes, if_neg]
  rintro ⟨rfl, h1, h2⟩
  rcases h with h | h | h
  · exact h rfl
  · omega
  · omega

theorem State.readBytes_congr {s t : State} (hm : t.mem = s.mem) (he : t.epoch = s.epoch) (sp : Space) (off n : Nat) :
    t.readBytes sp off n = s.readBytes sp off n := by
  rw [State.readBytes_eq_iff]; intro k _; exact State.readByte_congr hm he _ _

theorem State.readBlock_congr {s t : State} (hm : t.mem = s.mem) (he : t.epoch = s.epoch) (sp : Space) (off : Nat) :
    t.readBlock sp off = s.readBlock sp off := by
  simp [State.readBlock, State.readByte_congr hm he]

/-- A block read is the 64 bytes read. -/
theorem State.toList_readBlock (s : State) (sp : Space) (off : Nat) :
    (s.readBlock sp off).toList = s.readBytes sp off 64 := by
  apply List.ext_getElem (by simp)
  intro k h1 h2
  simp [State.readBlock, State.readBytes]

/-! ### The canonical form is kept -/

theorem State.writeByte_wf {s : State} (h : s.mem.wf = true) (sp : Space) (off : Nat) (v : Byte) :
    (s.writeByte sp off v).mem.wf = true :=
  Memory.set_wf h sp (Cells.write_wf ((Memory.wf_iff _).1 h sp) off v)

theorem State.writeBytes_wf {s : State} (h : s.mem.wf = true) (sp : Space) (off : Nat) (vs : List Byte) :
    (s.writeBytes sp off vs).mem.wf = true := by
  induction vs generalizing s off with
  | nil => exact h
  | cons v vs ih => rw [State.writeBytes_cons]; exact ih (State.writeByte_wf h sp off v) _

theorem State.writeByte_below {s : State} (h : s.mem.below s.cfg = true) {sp : Space} {off : Nat}
    (hoff : off < s.cfg.cap sp) (v : Byte) : (s.writeByte sp off v).mem.below s.cfg = true := by
  rw [Memory.below_iff] at *
  intro sp'
  by_cases e : sp' = sp
  · subst e; simpa using Cells.write_below (h sp') hoff v
  · rw [State.writeByte_mem, Memory.get_set_other _ _ e]; exact h sp'

theorem State.writeBytes_below {s : State} (h : s.mem.below s.cfg = true) {sp : Space} {off : Nat} {vs : List Byte}
    (hoff : off + vs.length ≤ s.cfg.cap sp) : (s.writeBytes sp off vs).mem.below s.cfg = true := by
  induction vs generalizing s off with
  | nil => exact h
  | cons v vs ih =>
    rw [State.writeBytes_cons]
    simp only [List.length_cons] at hoff
    have := ih (s := s.writeByte sp off v) (off := off + 1) (State.writeByte_below h (by omega) v)
      (by simp only [State.writeByte_cfg]; omega)
    simpa using this

theorem Memory.empty_wf : Memory.empty.wf = true := by decide

theorem State.reset_wf : State.reset.mem.wf = true := by decide

end Sys2Proof.Machine
end

