-- ==== Sys2Proof/Laws/Blocks.lean ====
section
/-! SUPPORT. Sequences of blocks, byte by byte. -/

namespace Sys2Proof.Machine

/-- Two byte registers that agree byte by byte. -/
theorem vec_ext_getD {m : Nat} {v w : Vector Byte m}
    (h : ∀ k, k < m → v.toList.getD k 0 = w.toList.getD k 0) : v = w := by
  apply Vector.ext
  intro k hk
  have := h k hk
  simpa [List.getD, hk] using this

theorem getD_toList_ofFn {m : Nat} (f : Fin m → Byte) {k : Nat} (hk : k < m) :
    (Vector.ofFn f).toList.getD k 0 = f ⟨k, hk⟩ := by
  simp [List.getD, hk]

theorem getD_readBlock (s : State) (sp : Space) (off : Nat) {k : Nat} (hk : k < 64) :
    (s.readBlock sp off).toList.getD k 0 = s.readByte sp (off + k) := by
  rw [State.readBlock, getD_toList_ofFn _ hk]

/-- The length of a row of equal pieces. -/
theorem length_flatMap_blocks {m : Nat} (f : Nat → Vector Byte m) (n : Nat) :
    ((List.range n).flatMap fun i => (f i).toList).length = n * m := by
  induction n with
  | zero => simp
  | succ n ih => rw [List.range_succ, List.flatMap_append, List.length_append, ih]; simp [Nat.succ_mul]

/-- A byte of a row of equal pieces. -/
theorem getD_flatMap_blocks {m : Nat} (f : Nat → Vector Byte m) (n : Nat) {k : Nat} (hk : k < n * m) :
    ((List.range n).flatMap fun i => (f i).toList).getD k 0 = (f (k / m)).toList.getD (k % m) 0 := by
  induction n with
  | zero => simp at hk
  | succ n ih =>
    rw [List.range_succ, List.flatMap_append]
    by_cases h : k < n * m
    · rw [List.getD_append _ _ _ _ (by rw [length_flatMap_blocks]; exact h), ih h]
    · rw [Nat.succ_mul] at hk
      have h1 : k / m = n := Nat.div_eq_of_lt_le (by omega) (by rw [Nat.succ_mul]; omega)
      have h2 : k % m = k - n * m := by
        have := Nat.div_add_mod k m; rw [h1, Nat.mul_comm] at this; omega
      rw [List.getD_append_right _ _ _ _ (by rw [length_flatMap_blocks]; omega), length_flatMap_blocks, h1, h2]
      simp

/-- A byte of two rows, one behind the other. -/
theorem getD_append_ite (l m : List Byte) (k : Nat) :
    (l ++ m).getD k 0 = if k < l.length then l.getD k 0 else m.getD (k - l.length) 0 := by
  split
  · exact List.getD_append _ _ _ _ ‹_›
  · exact List.getD_append_right _ _ _ _ (by omega)

/-- Block `i` of what a read returns is the block read. -/
theorem blockAt_readBytes (s : State) (sp : Space) (off n i : Nat) (h : 64 * i + 64 ≤ n) :
    blockAt (s.readBytes sp off n) i = s.readBlock sp (off + 64 * i) := by
  apply vec_ext_getD
  intro k hk
  rw [blockAt, getD_toList_ofFn _ hk, getD_readBlock _ _ _ hk, State.getD_readBytes _ _ (by simp only; omega)]
  congr 1; simp only; omega

/-- A byte of the XOR of two sequences. -/
theorem getD_xorBytes {a b : List Byte} {k : Nat} (ha : k < a.length) (hb : k < b.length) :
    (xorBytes a b).getD k 0 = a.getD k 0 ^^^ b.getD k 0 := by
  simp [xorBytes, List.getD, ha, hb]

@[simp] theorem length_xorBytes (a b : List Byte) : (xorBytes a b).length = min a.length b.length := by
  simp [xorBytes]

theorem list_ext_getD {l m : List Byte} (hl : l.length = m.length) (h : ∀ k, k < l.length → l.getD k 0 = m.getD k 0) :
    l = m := by
  apply List.ext_getElem hl
  intro k h1 h2
  have := h k h1
  simpa [List.getD, h1, h2] using this

end Sys2Proof.Machine
end

