-- ==== Sys2Proof/Laws/Command.lean ====
section
/-! SUPPORT. What a command can do: it is ignored, it raises, or it completes. -/

namespace Sys2Proof.Machine

/-! ### The checks -/

@[simp] theorem firstFailure_nil : firstFailure [] = none := rfl

theorem firstFailure_cons (fails : Bool) (code : ErrCode) (rest : List (Bool × ErrCode)) :
    firstFailure ((fails, code) :: rest) = if fails then some code else firstFailure rest := rfl

theorem firstFailure_append (l m : List (Bool × ErrCode)) :
    firstFailure (l ++ m) = (firstFailure l).or (firstFailure m) := by
  induction l with
  | nil => simp
  | cons x l ih =>
    obtain ⟨fails, code⟩ := x
    rw [List.cons_append, firstFailure_cons, firstFailure_cons, ih]
    cases fails <;> simp

theorem firstFailure_eq_none_iff (l : List (Bool × ErrCode)) :
    firstFailure l = none ↔ ∀ e ∈ l, e.1 = false := by
  induction l with
  | nil => simp
  | cons x l ih =>
    obtain ⟨fails, code⟩ := x
    rw [firstFailure_cons]
    cases fails <;> simp [ih]

/-- The code raised is the code of a row. -/
theorem firstFailure_mem {l : List (Bool × ErrCode)} {code : ErrCode} (h : firstFailure l = some code) :
    (true, code) ∈ l := by
  induction l with
  | nil => simp at h
  | cons x l ih =>
    obtain ⟨fails, c⟩ := x
    rw [firstFailure_cons] at h
    cases fails <;> simp_all

theorem firstFailure_validateRows_eq_none (max n r p : Nat) :
    firstFailure (validateRows max n r p) = none ↔ validate max n r p = .noError := by
  constructor
  · intro h; rw [validate, h]; rfl
  · intro h
    rw [validate] at h
    cases e : firstFailure (validateRows max n r p) with
    | none => rfl
    | some c =>
      have hm := firstFailure_mem e
      rw [e] at h
      simp only [Option.getD_some] at h
      subst h
      simp [validateRows] at hm

theorem firstFailure_validateRows_eq_some {max n r p : Nat} {code : ErrCode} (hc : code ≠ .noError) :
    firstFailure (validateRows max n r p) = some code ↔ validate max n r p = code := by
  constructor
  · intro h; rw [validate, h]; rfl
  · intro h
    cases e : firstFailure (validateRows max n r p) with
    | none => rw [validate, e] at h; exact absurd h.symm hc
    | some c => rw [validate, e] at h; simpa using h

/-- What the validator accepts. -/
theorem validate_eq_noError_iff (max n r p : Nat) :
    validate max n r p = .noError ↔
      2 ≤ n ∧ isPow2 n = true ∧ r ≠ 0 ∧ p ≠ 0 ∧ 128 * r * n ≤ max ∧ 128 * r * p ≤ max := by
  rw [← firstFailure_validateRows_eq_none, firstFailure_eq_none_iff]
  simp only [validateRows, List.mem_cons, List.not_mem_nil, or_false, forall_eq_or_imp, forall_eq, Bool.or_eq_false_iff,
    decide_eq_false_iff_not, Bool.not_eq_false', Nat.not_lt, gt_iff_lt, and_assoc, ne_eq]

theorem checkSalsa_eq_none_iff (k : Nat) (s : State) :
    checkSalsa k s = none ↔ s.pR ≠ 0 ∧ k < 4 * s.pR ∧ 256 * s.pR ≤ s.cfg.capXy := by
  rw [checkSalsa, firstFailure_eq_none_iff]; simp

theorem checkBmix_eq_none_iff (s : State) :
    checkBmix s = none ↔ s.pR ≠ 0 ∧ 256 * s.pR ≤ s.cfg.capXy := by
  rw [checkBmix, firstFailure_eq_none_iff]; simp

theorem checkRomix_eq_none_iff (lane : Nat) (s : State) :
    checkRomix lane s = none ↔ validate s.cfg.max s.pN s.pR s.pP = .noError ∧ lane < s.pP ∧
      slotLen s.pR * s.pP ≤ s.cfg.capB ∧ slotLen s.pR * s.pN ≤ s.cfg.capV ∧ 2 * slotLen s.pR ≤ s.cfg.capXy := by
  rw [checkRomix, firstFailure_append, Option.or_eq_none_iff, firstFailure_validateRows_eq_none,
    firstFailure_eq_none_iff]
  simp [and_assoc]

theorem checkPbkdf2_eq_none_iff (src dst : Space) (s : State) :
    checkPbkdf2 src dst s = none ↔ s.status.keyed = true ∧ s.pIter ≠ 0 ∧ s.pOlen ≤ maxOutLen ∧
      s.pSlen ≤ s.cfg.cap src ∧ s.pOlen ≤ s.cfg.cap dst := by
  rw [checkPbkdf2, firstFailure_eq_none_iff]; simp

theorem checkMackey_eq_none_iff (s : State) :
    checkMackey s = none ↔ s.cfg.macPresent = true ∧ s.pPlen ≤ s.cfg.capPw := by
  rw [checkMackey, firstFailure_eq_none_iff]; simp

theorem checkValid_eq_none_iff (s : State) :
    checkValid s = none ↔ validate s.cfg.max s.pN s.pR s.pP = .noError :=
  firstFailure_validateRows_eq_none _ _ _ _

/-- A 32-bit OLEN never exceeds the bound of R168. -/
theorem State.pOlen_le_maxOutLen (s : State) : s.pOlen ≤ maxOutLen := by
  have := s.regs.olen.isLt
  simp only [State.pOlen, maxOutLen]; omega

/-- No check raises the code 0. -/
theorem checks_ne_noError {i : Instr} {s : State} {code : ErrCode} (h : checks i s = some code) : code ≠ .noError := by
  rintro rfl
  cases i <;>
    simp only [checks, checkSalsa, checkBmix, checkRomix, checkPbkdf2, checkMackey, checkValid, checkClrerr] at h <;>
    (have := firstFailure_mem h; simp [validateRows] at this)

/-! ### The whole command -/

theorem runCommand_ignored {check : State → Option ErrCode} {effect : State → State} {s : State}
    (h : s.status.err = true) : runCommand check effect s = .next s := by
  rw [runCommand, if_pos h]

theorem runCommand_raises {check : State → Option ErrCode} {effect : State → State} {s : State} {code : ErrCode}
    (h : s.status.err = false) (hc : check s = some code) : runCommand check effect s = .next (s.raise code) := by
  rw [runCommand, if_neg (by simp [h]), hc]; rfl

theorem runCommand_completes {check : State → Option ErrCode} {effect : State → State} {s : State}
    (h : s.status.err = false) (hc : check s = none) :
    runCommand check effect s = .next (effect s.begin).complete := by
  rw [runCommand, if_neg (by simp [h]), hc]

/-- Everything a command can answer. -/
theorem runCommand_cases {check : State → Option ErrCode} {effect : State → State} {s t : State}
    (h : runCommand check effect s = .next t) :
    (s.status.err = true ∧ t = s) ∨
    (s.status.err = false ∧ ∃ code, check s = some code ∧ t = s.raise code) ∨
    (s.status.err = false ∧ check s = none ∧ t = (effect s.begin).complete) := by
  cases he : s.status.err with
  | true => rw [runCommand_ignored he] at h; cases h; simp
  | false =>
    cases hc : check s with
    | none => rw [runCommand_completes he hc] at h; cases h; simp
    | some code => rw [runCommand_raises he hc] at h; cases h; simp

/-- The effect of each command. -/
def effects : Instr → State → State
  | .salsa k => effectSalsa k
  | .bmix => effectBmix
  | .romix lane => effectRomix lane
  | .pbkdf2SB => effectPbkdf2 .s .b
  | .pbkdf2SDk => effectPbkdf2 .s .dk
  | .pbkdf2BDk => effectPbkdf2 .b .dk
  | .mackey => effectMackey
  | .valid => effectValid
  | .clrerr => effectClrerr

/-- Every command but CLRERR is its checks and its effect. -/
theorem exec_eq_runCommand {i : Instr} (h : i ≠ .clrerr) (s : State) : exec i s = runCommand (checks i) (effects i) s := by
  cases i <;> first | rfl | exact absurd rfl h

theorem exec_clrerr (s : State) : exec .clrerr s = .next s.begin.clearError.complete := rfl

/-- Everything `exec` can answer. -/
theorem exec_cases {i : Instr} {s t : State} (h : exec i s = .next t) :
    (i = .clrerr ∧ t = s.begin.clearError.complete) ∨
    (i ≠ .clrerr ∧ s.status.err = true ∧ t = s) ∨
    (i ≠ .clrerr ∧ s.status.err = false ∧ ∃ code, checks i s = some code ∧ t = s.raise code) ∨
    (i ≠ .clrerr ∧ s.status.err = false ∧ checks i s = none ∧ t = (effects i s.begin).complete) := by
  by_cases hi : i = .clrerr
  · subst hi; rw [exec_clrerr] at h; cases h; exact .inl ⟨rfl, rfl⟩
  · rw [exec_eq_runCommand hi] at h
    rcases runCommand_cases h with h | h | h
    · exact .inr (.inl ⟨hi, h⟩)
    · exact .inr (.inr (.inl ⟨hi, h⟩))
    · exact .inr (.inr (.inr ⟨hi, h⟩))

end Sys2Proof.Machine
end

