-- ==== Sys2Proof/Laws/Core.lean ====
section
/-! SUPPORT. The control part of the state, which the effects leave alone, and the Salsa20/8 core. -/

namespace Sys2Proof.Machine

/-- Configuration, registers, STATUS, position and the host's side are the same. -/
structure SameControl (s t : State) : Prop where
  cfg : t.cfg = s.cfg
  regs : t.regs = s.regs
  status : t.status = s.status
  pos : t.pos = s.pos
  epoch : t.epoch = s.epoch
  port : t.port = s.port
  reply : t.reply = s.reply

theorem SameControl.refl (s : State) : SameControl s s := ⟨rfl, rfl, rfl, rfl, rfl, rfl, rfl⟩

theorem SameControl.trans {s t u : State} (h : SameControl s t) (k : SameControl t u) : SameControl s u :=
  ⟨k.cfg.trans h.cfg, k.regs.trans h.regs, k.status.trans h.status, k.pos.trans h.pos, k.epoch.trans h.epoch,
    k.port.trans h.port, k.reply.trans h.reply⟩

theorem sameControl_writeBytes (s : State) (sp : Space) (off : Nat) (vs : List Byte) :
    SameControl s (s.writeBytes sp off vs) := ⟨by simp, by simp, by simp, by simp, by simp, by simp, by simp⟩

theorem sameControl_setWork (s : State) (w : WorkRegs) : SameControl s (s.setWork w) := ⟨rfl, rfl, rfl, rfl, rfl, rfl, rfl⟩

theorem sameControl_setMac (s : State) (m : MacState) : SameControl s (s.setMac m) := ⟨rfl, rfl, rfl, rfl, rfl, rfl, rfl⟩

/-- A command whose effect keeps the control part and the MAC leaves what `CompletedFrame` says. -/
theorem completedFrame_of_sameControl {s t : State} (h : SameControl s.begin t) (hm : t.mac = s.mac) :
    CompletedFrame s t.complete where
  cfg := h.cfg
  regs := h.regs
  mac := hm
  epoch := h.epoch
  port := h.port
  reply := h.reply
  pos := rfl
  status := by rw [State.complete_status, h.status]; rfl

/-! ### The core -/

/-- Everything a run of the core does: `in` and `x`. -/
theorem coreRun_eq (s : State) (blk : Block) :
    s.coreRun blk = s.setWork { s.work with inw := blockWords blk, x := roundNetwork (blockWords blk) } := by
  have h : ∀ n, loop (fun _ => State.coreRound) n (s.coreLoad blk) =
      s.setWork { s.work with inw := blockWords blk, x := loop (fun _ => doubleRound) n (blockWords blk) } := by
    intro n
    induction n with
    | zero => rfl
    | succ n ih => rw [loop_succ, ih]; rfl
  rw [State.coreRun, h, roundNetwork]

/-- The result of the core is `Salsa20_8` of its argument (R119). -/
theorem coreOut_coreRun (s : State) (blk : Block) : (s.coreRun blk).coreOut = salsa20_8 blk := by
  rw [coreRun_eq, State.coreOut, salsa20_8]; rfl

theorem sameControl_coreRun (s : State) (blk : Block) : SameControl s (s.coreRun blk) := by
  rw [coreRun_eq]; exact sameControl_setWork _ _

@[simp] theorem coreRun_mac (s : State) (blk : Block) : (s.coreRun blk).mac = s.mac := by rw [coreRun_eq]; rfl
@[simp] theorem coreRun_mem (s : State) (blk : Block) : (s.coreRun blk).mem = s.mem := by rw [coreRun_eq]; rfl
@[simp] theorem coreRun_xb (s : State) (blk : Block) : (s.coreRun blk).work.xb = s.work.xb := by rw [coreRun_eq]; rfl

@[simp] theorem coreRun_readByte (s : State) (blk : Block) (sp : Space) (a : Nat) :
    (s.coreRun blk).readByte sp a = s.readByte sp a :=
  State.readByte_congr (coreRun_mem s blk) (sameControl_coreRun s blk).epoch sp a

@[simp] theorem setWork_readByte (s : State) (w : WorkRegs) (sp : Space) (a : Nat) :
    (s.setWork w).readByte sp a = s.readByte sp a := State.readByte_congr (by simp) (by simp) sp a

@[simp] theorem setMac_readByte (s : State) (m : MacState) (sp : Space) (a : Nat) :
    (s.setMac m).readByte sp a = s.readByte sp a := State.readByte_congr (by simp) (by simp) sp a

@[simp] theorem begin_readByte (s : State) (sp : Space) (a : Nat) : s.begin.readByte sp a = s.readByte sp a :=
  State.readByte_congr (by simp) (by simp) sp a

@[simp] theorem complete_readByte (s : State) (sp : Space) (a : Nat) : s.complete.readByte sp a = s.readByte sp a :=
  State.readByte_congr (by simp) (by simp) sp a

@[simp] theorem begin_readBytes (s : State) (sp : Space) (a n : Nat) : s.begin.readBytes sp a n = s.readBytes sp a n :=
  State.readBytes_congr (by simp) (by simp) sp a n

@[simp] theorem complete_readBytes (s : State) (sp : Space) (a n : Nat) :
    s.complete.readBytes sp a n = s.readBytes sp a n := State.readBytes_congr (by simp) (by simp) sp a n

@[simp] theorem begin_readBlock (s : State) (sp : Space) (a : Nat) : s.begin.readBlock sp a = s.readBlock sp a :=
  State.readBlock_congr (by simp) (by simp) sp a

/-! ### The effect of SALSA -/

theorem sameControl_effectSalsa (k : Nat) (s : State) : SameControl s (effectSalsa k s) :=
  (sameControl_coreRun s _).trans (sameControl_writeBytes _ _ _ _)

theorem effectSalsa_mac (k : Nat) (s : State) : (effectSalsa k s).mac = s.mac := by simp [effectSalsa]

/-- Every byte after SALSA (R110). -/
theorem effectSalsa_readByte (k : Nat) (s : State) (sp : Space) (a : Nat) :
    (effectSalsa k s).readByte sp a =
      if sp = .xy ∧ xBlockOff k ≤ a ∧ a < xBlockOff k + 64 then
        (salsa20_8 (s.readBlock .xy (xBlockOff k))).toList.getD (a - xBlockOff k) 0
      else s.readByte sp a := by
  simp only [effectSalsa, State.readByte_writeBytes, coreOut_coreRun, Vector.length_toList, coreRun_readByte]

end Sys2Proof.Machine
end

