-- ==== Sys2Proof/Laws/BlockMix.lean ====
section
/-! SUPPORT. BlockMix on the XY space is BlockMix as a function (`spec/41_blockmix.md` R132, R133). -/

namespace Sys2Proof.Machine

/-! ### The function -/

@[simp] theorem length_blockMixX (r : Nat) (bs : List Byte) : (blockMixX r bs).length = slotLen r := by
  rw [blockMixX, List.length_append, length_flatMap_blocks (fun i => mixBlock r bs (2 * i)),
    length_flatMap_blocks (fun i => mixBlock r bs (2 * i + 1)), slotLen]
  omega

@[simp] theorem length_blockMixY (r : Nat) (bs : List Byte) : (blockMixY r bs).length = slotLen r := by
  rw [blockMixY, length_flatMap_blocks, slotLen]; omega

theorem getD_blockMixY (r : Nat) (bs : List Byte) {k : Nat} (hk : k < slotLen r) :
    (blockMixY r bs).getD k 0 = (mixBlock r bs (k / 64)).toList.getD (k % 64) 0 := by
  rw [slotLen] at hk
  exact getD_flatMap_blocks (mixBlock r bs) _ (by omega)

/-- Output block `k` of the X region is `Y_{2k}` for `k < r` and `Y_{2(k−r)+1}` after (R133). -/
theorem getD_blockMixX (r : Nat) (bs : List Byte) {k : Nat} (hk : k < slotLen r) :
    (blockMixX r bs).getD k 0 =
      (mixBlock r bs (if k / 64 < r then 2 * (k / 64) else 2 * (k / 64 - r) + 1)).toList.getD (k % 64) 0 := by
  rw [slotLen] at hk
  rw [blockMixX, getD_append_ite, length_flatMap_blocks (fun i => mixBlock r bs (2 * i))]
  by_cases h : k < r * 64
  · rw [if_pos h, if_pos (by omega), getD_flatMap_blocks (fun i => mixBlock r bs (2 * i)) r h]
  · rw [if_neg h, if_neg (by omega), getD_flatMap_blocks (fun i => mixBlock r bs (2 * i + 1)) r (by omega)]
    have h1 : (k - r * 64) / 64 = k / 64 - r := by omega
    have h2 : (k - r * 64) % 64 = k % 64 := by omega
    rw [h1, h2]

/-! ### The loops of R132 -/

/-- The block that iteration `i` of step 2 starts from: `Y_{i−1}`, with `Y_{−1} = B_{2r−1}`. -/
def chainBlock (r : Nat) (bs : List Byte) : Nat → Block
  | 0 => blockAt bs (2 * r - 1)
  | i + 1 => mixBlock r bs i

theorem mixBlock_eq_chain (r : Nat) (bs : List Byte) (i : Nat) :
    mixBlock r bs i = salsa20_8 (xorVec (chainBlock r bs i) (blockAt bs i)) := by
  cases i <;> rfl

/-- Control part and MAC unchanged. -/
def Quiet (s t : State) : Prop := SameControl s t ∧ t.mac = s.mac

theorem Quiet.refl (s : State) : Quiet s s := ⟨SameControl.refl s, rfl⟩

theorem Quiet.trans {s t u : State} (h : Quiet s t) (k : Quiet t u) : Quiet s u :=
  ⟨h.1.trans k.1, k.2.trans h.2⟩

theorem quiet_writeBytes (s : State) (sp : Space) (off : Nat) (vs : List Byte) : Quiet s (s.writeBytes sp off vs) :=
  ⟨sameControl_writeBytes _ _ _ _, by simp⟩

theorem quiet_setWork (s : State) (w : WorkRegs) : Quiet s (s.setWork w) := ⟨sameControl_setWork _ _, rfl⟩

theorem quiet_coreRun (s : State) (blk : Block) : Quiet s (s.coreRun blk) := ⟨sameControl_coreRun _ _, by simp⟩

theorem quiet_mixStep (r i : Nat) (s : State) : Quiet s (s.mixStep r i) :=
  ((quiet_coreRun s _).trans (quiet_setWork _ _)).trans (quiet_writeBytes _ _ _ _)

theorem quiet_mixEven (r i : Nat) (s : State) : Quiet s (s.mixEven r i) := quiet_writeBytes _ _ _ _

theorem quiet_mixOdd (r i : Nat) (s : State) : Quiet s (s.mixOdd r i) := quiet_writeBytes _ _ _ _

theorem Quiet.loop {body : Nat → State → State} (h : ∀ i s, Quiet s (body i s)) (n : Nat) (s : State) :
    Quiet s (loop body n s) :=
  loop_induct (P := fun _ t => Quiet s t) n (Quiet.refl s) fun i t _ ht => ht.trans (h i t)

theorem quiet_blockMix (r : Nat) (s : State) : Quiet s (s.blockMix r) :=
  (((quiet_setWork s _).trans (Quiet.loop (quiet_mixStep r) _ _)).trans (Quiet.loop (quiet_mixEven r) _ _)).trans
    (Quiet.loop (quiet_mixOdd r) _ _)

/-- One iteration of step 2. -/
theorem mixStep_xb (r i : Nat) (s : State) :
    (s.mixStep r i).work.xb = salsa20_8 (xorVec s.work.xb (s.readBlock .xy (xBlockOff i))) := by
  simp [State.mixStep, coreOut_coreRun]

theorem mixStep_readByte (r i : Nat) (s : State) (sp : Space) (a : Nat) :
    (s.mixStep r i).readByte sp a =
      if sp = .xy ∧ yBlockOff r i ≤ a ∧ a < yBlockOff r i + 64 then
        (salsa20_8 (xorVec s.work.xb (s.readBlock .xy (xBlockOff i)))).toList.getD (a - yBlockOff r i) 0
      else s.readByte sp a := by
  simp only [State.mixStep, State.readByte_writeBytes, State.setWork_work, coreOut_coreRun, Vector.length_toList,
    setWork_readByte, coreRun_readByte]

/-- Step 2 after `i` iterations: the chain, the Y blocks written so far, everything else as before (R134). -/
theorem mixSteps_spec {r : Nat} (hr : r ≠ 0) (s : State) {i : Nat} (hi : i ≤ 2 * r) :
    let bs := s.readBytes .xy 0 (slotLen r)
    let t := loop (State.mixStep r) i (s.mixLoad r)
    t.work.xb = chainBlock r bs i ∧
    ∀ sp a, t.readByte sp a =
      if sp = .xy ∧ slotLen r ≤ a ∧ a < slotLen r + 64 * i then (blockMixY r bs).getD (a - slotLen r) 0
      else s.readByte sp a := by
  intro bs
  induction i with
  | zero =>
    refine ⟨?_, ?_⟩
    · simp only [loop_zero, State.mixLoad, State.setWork_work, chainBlock, bs]
      rw [blockAt_readBytes _ _ _ _ _ (by rw [slotLen]; omega)]
      simp [xBlockOff]
    · intro sp a
      rw [if_neg (by omega)]
      simp [State.mixLoad]
  | succ i ih =>
    obtain ⟨hx, hb⟩ := ih (by omega)
    have hblk : (loop (State.mixStep r) i (s.mixLoad r)).readBlock .xy (xBlockOff i) = blockAt bs i := by
      rw [blockAt_readBytes _ _ _ _ _ (by rw [slotLen]; omega)]
      apply vec_ext_getD
      intro k hk
      rw [getD_readBlock _ _ _ hk, getD_readBlock _ _ _ hk, hb, if_neg (by simp only [slotLen, xBlockOff]; omega)]
      simp [xBlockOff]
    refine ⟨?_, ?_⟩
    · rw [loop_succ, mixStep_xb, hx, hblk, ← mixBlock_eq_chain]; rfl
    · intro sp a
      rw [loop_succ, mixStep_readByte, hx, hblk, ← mixBlock_eq_chain, hb]
      by_cases h1 : sp = .xy ∧ yBlockOff r i ≤ a ∧ a < yBlockOff r i + 64
      · rw [if_pos h1]
        obtain ⟨h0, h1, h2⟩ := h1
        simp only [yBlockOff] at *
        rw [if_pos ⟨h0, by omega, by omega⟩, getD_blockMixY _ _ (by rw [slotLen] at *; omega)]
        have e1 : (a - slotLen r) / 64 = i := by omega
        have e2 : (a - slotLen r) % 64 = a - (slotLen r + 64 * i) := by omega
        rw [e1, e2]
      · rw [if_neg h1]
        simp only [yBlockOff] at h1
        by_cases h2 : sp = .xy ∧ slotLen r ≤ a ∧ a < slotLen r + 64 * i
        · rw [if_pos h2, if_pos ⟨h2.1, h2.2.1, by omega⟩]
        · rw [if_neg h2, if_neg]
          rintro ⟨h0, h3, h4⟩
          exact (by omega : ¬ (slotLen r ≤ a ∧ a < slotLen r + 64 * i) → ¬ (slotLen r + 64 * i ≤ a ∧ a < slotLen r + 64 * i + 64) → False)
            (fun h => h2 ⟨h0, h⟩) (fun h => h1 ⟨h0, h⟩)

/-- Step 3, first half. -/
theorem mixEvens_readByte {r : Nat} (s : State) {i : Nat} (hi : i ≤ r) (sp : Space) (a : Nat) :
    (loop (State.mixEven r) i s).readByte sp a =
      if sp = .xy ∧ a < 64 * i then s.readByte .xy (slotLen r + 64 * (2 * (a / 64)) + a % 64)
      else s.readByte sp a := by
  induction i generalizing sp a with
  | zero => rw [if_neg (by omega)]; rfl
  | succ i ih =>
    have ih := ih (by omega)
    rw [loop_succ, State.mixEven, State.readByte_writeBytes, State.length_readBytes]
    by_cases h1 : sp = .xy ∧ xBlockOff i ≤ a ∧ a < xBlockOff i + 64
    · rw [if_pos h1]
      simp only [xBlockOff] at *
      rw [State.getD_readBytes _ _ (by omega), if_pos ⟨h1.1, by omega⟩, ih,
        if_neg (by simp only [yBlockOff, slotLen]; omega)]
      congr 1
      simp only [yBlockOff]; omega
    · rw [if_neg h1, ih]
      simp only [xBlockOff] at h1
      by_cases h2 : sp = .xy ∧ a < 64 * i
      · rw [if_pos h2, if_pos ⟨h2.1, by omega⟩]
      · rw [if_neg h2, if_neg]
        rintro ⟨h0, h3⟩
        by_cases h4 : a < 64 * i
        · exact h2 ⟨h0, h4⟩
        · exact h1 ⟨h0, by omega, by omega⟩

/-- Step 3, second half. -/
theorem mixOdds_readByte {r : Nat} (s : State) {i : Nat} (hi : i ≤ r) (sp : Space) (a : Nat) :
    (loop (State.mixOdd r) i s).readByte sp a =
      if sp = .xy ∧ 64 * r ≤ a ∧ a < 64 * r + 64 * i then
        s.readByte .xy (slotLen r + 64 * (2 * (a / 64 - r) + 1) + a % 64)
      else s.readByte sp a := by
  induction i generalizing sp a with
  | zero => rw [if_neg (by omega)]; rfl
  | succ i ih =>
    have ih := ih (by omega)
    rw [loop_succ, State.mixOdd, State.readByte_writeBytes, State.length_readBytes]
    by_cases h1 : sp = .xy ∧ xBlockOff (r + i) ≤ a ∧ a < xBlockOff (r + i) + 64
    · rw [if_pos h1]
      simp only [xBlockOff] at *
      rw [State.getD_readBytes _ _ (by omega), if_pos ⟨h1.1, by omega, by omega⟩, ih,
        if_neg (by simp only [yBlockOff, slotLen]; omega)]
      congr 1
      simp only [yBlockOff]; omega
    · rw [if_neg h1, ih]
      simp only [xBlockOff] at h1
      by_cases h2 : sp = .xy ∧ 64 * r ≤ a ∧ a < 64 * r + 64 * i
      · rw [if_pos h2, if_pos ⟨h2.1, h2.2.1, by omega⟩]
      · rw [if_neg h2, if_neg]
        rintro ⟨h0, h3, h5⟩
        by_cases h4 : a < 64 * r + 64 * i
        · exact h2 ⟨h0, h3, h4⟩
        · exact h1 ⟨h0, by omega, by omega⟩

/-- Everything BlockMix does to a byte (R133). -/
theorem blockMix_readByte {r : Nat} (hr : r ≠ 0) (s : State) (sp : Space) (a : Nat) :
    (s.blockMix r).readByte sp a =
      if sp = .xy ∧ a < slotLen r then (blockMixX r (s.readBytes .xy 0 (slotLen r))).getD a 0
      else if sp = .xy ∧ a < 2 * slotLen r then (blockMixY r (s.readBytes .xy 0 (slotLen r))).getD (a - slotLen r) 0
      else s.readByte sp a := by
  have hs := (mixSteps_spec hr s (le_refl (2 * r))).2
  rw [State.blockMix, mixOdds_readByte _ (le_refl r)]
  by_cases h1 : sp = .xy ∧ 64 * r ≤ a ∧ a < 64 * r + 64 * r
  · obtain ⟨h0, h1, h2⟩ := h1
    subst h0
    rw [if_pos ⟨rfl, h1, h2⟩, if_pos ⟨rfl, by rw [slotLen]; omega⟩, mixEvens_readByte _ (le_refl r),
      if_neg (by rw [slotLen]; omega), hs, if_pos ⟨rfl, by omega, by omega⟩, getD_blockMixX _ _ (by rw [slotLen]; omega),
      if_neg (by omega), getD_blockMixY _ _ (by rw [slotLen]; omega)]
    refine congrArg₂ (fun x k => (mixBlock r (s.readBytes .xy 0 (slotLen r)) x).toList.getD k 0) ?_ ?_ <;> omega
  · rw [if_neg h1, mixEvens_readByte _ (le_refl r)]
    by_cases h2 : sp = .xy ∧ a < 64 * r
    · obtain ⟨h0, h2⟩ := h2
      subst h0
      rw [if_pos ⟨rfl, h2⟩, if_pos ⟨rfl, by rw [slotLen]; omega⟩, hs, if_pos ⟨rfl, by omega, by omega⟩,
        getD_blockMixX _ _ (by rw [slotLen]; omega), if_pos (by omega), getD_blockMixY _ _ (by rw [slotLen]; omega)]
      refine congrArg₂ (fun x k => (mixBlock r (s.readBytes .xy 0 (slotLen r)) x).toList.getD k 0) ?_ ?_ <;> omega
    · rw [if_neg h2, hs]
      by_cases h0 : sp = .xy
      · subst h0
        have : slotLen r ≤ a := by
          simp only [true_and] at h1 h2; rw [slotLen]; omega
        rw [if_neg (by omega : ¬ (Space.xy = .xy ∧ a < slotLen r))]
        by_cases h3 : a < 2 * slotLen r
        · rw [if_pos ⟨rfl, this, by rw [slotLen] at *; omega⟩, if_pos ⟨rfl, h3⟩]
        · rw [if_neg (by rw [slotLen] at *; omega), if_neg (by omega)]
      · simp [h0]

/-- The X region after BlockMix. -/
theorem blockMix_X {r : Nat} (hr : r ≠ 0) (s : State) :
    (s.blockMix r).readBytes .xy 0 (slotLen r) = blockMixX r (s.readBytes .xy 0 (slotLen r)) := by
  have h := State.readBytes_eq_of_getD (s := s.blockMix r) (sp := .xy) (off := 0)
    (vs := blockMixX r (s.readBytes .xy 0 (slotLen r)))
    fun k hk => by rw [length_blockMixX] at hk; rw [blockMix_readByte hr, if_pos ⟨rfl, by omega⟩, Nat.zero_add]
  rwa [length_blockMixX] at h

/-- The Y region after BlockMix. -/
theorem blockMix_Y {r : Nat} (hr : r ≠ 0) (s : State) :
    (s.blockMix r).readBytes .xy (slotLen r) (slotLen r) = blockMixY r (s.readBytes .xy 0 (slotLen r)) := by
  have h := State.readBytes_eq_of_getD (s := s.blockMix r) (sp := .xy) (off := slotLen r)
    (vs := blockMixY r (s.readBytes .xy 0 (slotLen r)))
    fun k hk => by
      rw [length_blockMixY] at hk
      rw [blockMix_readByte hr, if_neg (by omega), if_pos ⟨rfl, by omega⟩, Nat.add_sub_cancel_left]
  rwa [length_blockMixY] at h

/-- Outside the two regions BlockMix changes nothing (R137). -/
theorem blockMix_outside {r : Nat} (hr : r ≠ 0) (s : State) {sp : Space} {a : Nat}
    (h : ¬ (sp = .xy ∧ a < 2 * slotLen r)) : (s.blockMix r).readByte sp a = s.readByte sp a := by
  rw [blockMix_readByte hr, if_neg fun hh => h ⟨hh.1, by omega⟩, if_neg h]

end Sys2Proof.Machine
end

