-- ==== Sys2Proof/Laws/Pbkdf2.lean ====
section
/-! SUPPORT. The PBKDF2 engine on the buffer spaces is PBKDF2 as a function (`spec/43_pbkdf2.md` R170, R171). -/

namespace Sys2Proof.Machine

/-! ### The MAC -/

theorem macUpdate_macUpdate (s : State) (a b : List Byte) : (s.macUpdate a).macUpdate b = s.macUpdate (a ++ b) := by
  simp [State.macUpdate, State.setMac, MacState.update]

@[simp] theorem macUpdate_readByte (s : State) (d : List Byte) (sp : Space) (a : Nat) :
    (s.macUpdate d).readByte sp a = s.readByte sp a := State.readByte_congr (by simp) (by simp) sp a

@[simp] theorem macFinalize_readByte (s : State) (sp : Space) (a : Nat) :
    s.macFinalize.readByte sp a = s.readByte sp a := State.readByte_congr (by simp) (by simp) sp a

theorem sameControl_macUpdate (s : State) (d : List Byte) : SameControl s (s.macUpdate d) := ⟨rfl, rfl, rfl, rfl, rfl, rfl, rfl⟩

theorem sameControl_macFinalize (s : State) : SameControl s s.macFinalize := ⟨rfl, rfl, rfl, rfl, rfl, rfl, rfl⟩

/-! ### One block -/

theorem sameControl_pbkdf2First (src : Space) (i : Nat) (s : State) : SameControl s (s.pbkdf2First src i) :=
  (((((sameControl_setWork s _).trans (sameControl_macUpdate _ _)).trans (sameControl_macUpdate _ _)).trans
    (sameControl_macFinalize _))).trans (sameControl_setWork _ _)

theorem sameControl_pbkdf2Next (s : State) : SameControl s s.pbkdf2Next :=
  ((sameControl_macUpdate s _).trans (sameControl_macFinalize _)).trans (sameControl_setWork _ _)

theorem SameControl.loop {body : Nat → State → State} (h : ∀ i s, SameControl s (body i s)) (n : Nat) (s : State) :
    SameControl s (loop body n s) :=
  loop_induct (P := fun _ t => SameControl s t) n (SameControl.refl s) fun i t _ ht => ht.trans (h i t)

theorem sameControl_pbkdf2Block (src dst : Space) (c outLen i : Nat) (s : State) :
    SameControl s (s.pbkdf2Block src dst c outLen i) :=
  ((sameControl_pbkdf2First src i s).trans (SameControl.loop (fun _ => sameControl_pbkdf2Next) _ _)).trans
    (sameControl_writeBytes _ _ _ _)

theorem sameControl_pbkdf2 (src dst : Space) (c outLen : Nat) (s : State) : SameControl s (s.pbkdf2 src dst c outLen) :=
  SameControl.loop (fun k => sameControl_pbkdf2Block src dst c outLen (k + 1)) _ _

/-- The first MAC call of a block, when no message is pending (R46). -/
theorem pbkdf2First_spec (src : Space) (i : Nat) {s : State} (hb : s.mac.buf = []) :
    let t := s.pbkdf2First src i
    let u := pbkdf2U (macFun s.cfg.mac) s.mac.key (s.readBytes src 0 s.pSlen) i 0
    t.work.u = u ∧ t.work.t = u ∧ t.mac = { key := s.mac.key, buf := [] } ∧ t.mem = s.mem := by
  simp [State.pbkdf2First, pbkdf2U, MacState.result, MacState.update, MacState.finalize, hb, State.readBytes, State.pSlen]

/-- A later MAC call. -/
theorem pbkdf2Next_spec {s : State} (hb : s.mac.buf = []) :
    let t := s.pbkdf2Next
    let u := macFun s.cfg.mac s.mac.key s.work.u.toList
    t.work.u = u ∧ t.work.t = xorVec s.work.t u ∧ t.mac = { key := s.mac.key, buf := [] } ∧ t.mem = s.mem := by
  simp [State.pbkdf2Next, MacState.result, MacState.update, MacState.finalize, hb]

/-- The MAC calls of a block, `n + 1` of them (R170, R175). -/
theorem pbkdf2Calls_spec (src : Space) (i n : Nat) {s : State} (hb : s.mac.buf = []) :
    let t := loop (fun _ => State.pbkdf2Next) n (s.pbkdf2First src i)
    let salt := s.readBytes src 0 s.pSlen
    t.work.u = pbkdf2U (macFun s.cfg.mac) s.mac.key salt i n ∧
    t.work.t = pbkdf2Xor (macFun s.cfg.mac) s.mac.key salt i n ∧
    t.mac = { key := s.mac.key, buf := [] } ∧ t.mem = s.mem ∧ t.cfg = s.cfg := by
  induction n with
  | zero =>
    obtain ⟨h1, h2, h3, h4⟩ := pbkdf2First_spec src i hb
    exact ⟨h1, h2, h3, h4, (sameControl_pbkdf2First src i s).cfg⟩
  | succ n ih =>
    obtain ⟨h1, h2, h3, h4, h5⟩ := ih
    obtain ⟨k1, k2, k3, k4⟩ := pbkdf2Next_spec (s := loop (fun _ => State.pbkdf2Next) n (s.pbkdf2First src i)) (by rw [h3])
    have hc := (sameControl_pbkdf2Next (loop (fun _ => State.pbkdf2Next) n (s.pbkdf2First src i))).cfg
    rw [loop_succ]
    refine ⟨?_, ?_, ?_, ?_, ?_⟩
    · rw [k1, h1, h3, h5]; rfl
    · rw [k2, h1, h2, h3, h5]; rfl
    · rw [k3, h3]
    · rw [k4, h4]
    · rw [hc, h5]

/-- One output block: `T_i` in its place, the last one truncated (R170, R174). -/
theorem pbkdf2Block_spec (src dst : Space) {c : Nat} (outLen i : Nat) {s : State} (hb : s.mac.buf = []) :
    let t := s.pbkdf2Block src dst c outLen i
    let salt := s.readBytes src 0 s.pSlen
    t.mac = s.mac ∧
    ∀ sp a, t.readByte sp a =
      if sp = dst ∧ outBlockOff i ≤ a ∧ a < outBlockOff i + outBlockLen outLen i then
        (pbkdf2T (macFun s.cfg.mac) s.mac.key salt c i).toList.getD (a - outBlockOff i) 0
      else s.readByte sp a := by
  intro t salt
  obtain ⟨_, h2, h3, h4, _⟩ := pbkdf2Calls_spec src i (c - 1) hb
  have he := ((sameControl_pbkdf2First src i s).trans
    (SameControl.loop (fun _ => sameControl_pbkdf2Next) (c - 1) (s.pbkdf2First src i))).epoch
  constructor
  · have : t.mac = _ := (State.writeBytes_mac _ _ _ _).trans h3
    rw [this]
    cases hm : s.mac with
    | mk key buf => rw [hm] at hb; simp only at hb; rw [hb]
  · intro sp a
    refine (State.readByte_writeBytes _ _ _ _ _ _).trans ?_
    have hl : (outBlockLen outLen i) ≤ 32 := Nat.min_le_left _ _
    rw [h2, List.length_take, Vector.length_toList, Nat.min_eq_left hl]
    by_cases hin : sp = dst ∧ outBlockOff i ≤ a ∧ a < outBlockOff i + outBlockLen outLen i
    · rw [if_pos hin, if_pos hin, pbkdf2T]
      simp only [List.getD, List.getElem?_take, salt]
      rw [if_pos (by omega)]
    · rw [if_neg hin, if_neg hin, State.readByte_congr h4 he]

/-! ### All blocks -/

theorem pbkdf2Out_row (mac : List Byte → List Byte → Digest) (key salt : List Byte) (c outLen : Nat) :
    ((List.range (outBlocks outLen)).flatMap fun k => (pbkdf2T mac key salt c (k + 1)).toList).length =
      outBlocks outLen * 32 :=
  length_flatMap_blocks (fun k => pbkdf2T mac key salt c (k + 1)) _

theorem outLen_le_outBlocks (outLen : Nat) : outLen ≤ outBlocks outLen * 32 := by
  rw [outBlocks, ceilDiv]; omega

@[simp] theorem length_pbkdf2Out (mac : List Byte → List Byte → Digest) (key salt : List Byte) (c outLen : Nat) :
    (pbkdf2Out mac key salt c outLen).length = outLen := by
  rw [pbkdf2Out, List.length_take, pbkdf2Out_row]
  exact Nat.min_eq_left (outLen_le_outBlocks outLen)

theorem getD_pbkdf2Out (mac : List Byte → List Byte → Digest) (key salt : List Byte) (c outLen : Nat) {a : Nat}
    (ha : a < outLen) :
    (pbkdf2Out mac key salt c outLen).getD a 0 = (pbkdf2T mac key salt c (a / 32 + 1)).toList.getD (a % 32) 0 := by
  rw [pbkdf2Out]
  have h := getD_flatMap_blocks (fun k => pbkdf2T mac key salt c (k + 1)) (outBlocks outLen) (k := a)
    (by have := outLen_le_outBlocks outLen; omega)
  rw [← h]
  simp only [List.getD, List.getElem?_take, if_pos ha]

/-- The first `k` output blocks. -/
theorem pbkdf2Blocks_spec {src dst : Space} (hne : src ≠ dst) (c outLen k : Nat) {s : State} (hb : s.mac.buf = []) :
    let t := loop (fun k => State.pbkdf2Block src dst c outLen (k + 1)) k s
    t.mac = s.mac ∧
    ∀ sp a, t.readByte sp a =
      if sp = dst ∧ a < 32 * k ∧ a < outLen then
        (pbkdf2Out (macFun s.cfg.mac) s.mac.key (s.readBytes src 0 s.pSlen) c outLen).getD a 0
      else s.readByte sp a := by
  induction k with
  | zero => exact ⟨rfl, fun sp a => by rw [if_neg (by omega)]; rfl⟩
  | succ k ih =>
    obtain ⟨hm, hr⟩ := ih
    obtain ⟨bm, br⟩ := pbkdf2Block_spec src dst (c := c) outLen (k + 1)
      (s := loop (fun k => State.pbkdf2Block src dst c outLen (k + 1)) k s) (by rw [hm]; exact hb)
    have hc := SameControl.loop (fun k => sameControl_pbkdf2Block src dst c outLen (k + 1)) k s
    have hsalt : (loop (fun k => State.pbkdf2Block src dst c outLen (k + 1)) k s).readBytes src 0
        (loop (fun k => State.pbkdf2Block src dst c outLen (k + 1)) k s).pSlen = s.readBytes src 0 s.pSlen := by
      rw [State.pSlen_congr hc.regs, State.readBytes_eq_iff]
      intro m _
      rw [hr, if_neg (fun h => hne h.1)]
    rw [loop_succ]
    refine ⟨bm.trans hm, ?_⟩
    intro sp a
    rw [br, hsalt, hc.cfg, hm]
    by_cases h1 : sp = dst ∧ outBlockOff (k + 1) ≤ a ∧ a < outBlockOff (k + 1) + outBlockLen outLen (k + 1)
    · rw [if_pos h1]
      simp only [outBlockOff, outBlockLen, Nat.add_sub_cancel] at h1 ⊢
      rw [if_pos ⟨h1.1, by omega, by omega⟩, getD_pbkdf2Out _ _ _ _ _ (by omega)]
      have e1 : a / 32 = k := by omega
      have e2 : a % 32 = a - 32 * k := by omega
      rw [e1, e2]
    · rw [if_neg h1, hr]
      simp only [outBlockOff, outBlockLen, Nat.add_sub_cancel] at h1
      by_cases h2 : sp = dst ∧ a < 32 * k ∧ a < outLen
      · rw [if_pos h2, if_pos ⟨h2.1, by omega, h2.2.2⟩]
      · rw [if_neg h2, if_neg]
        rintro ⟨h0, h3, h4⟩
        by_cases h5 : a < 32 * k
        · exact h2 ⟨h0, h5, h4⟩
        · exact h1 ⟨h0, by omega, by omega⟩

/-- Everything PBKDF2 does to a byte and to the MAC (R171). -/
theorem pbkdf2_spec {src dst : Space} (hne : src ≠ dst) (c outLen : Nat) {s : State} (hb : s.mac.buf = []) :
    let t := s.pbkdf2 src dst c outLen
    t.mac = s.mac ∧
    ∀ sp a, t.readByte sp a =
      if sp = dst ∧ a < outLen then
        (pbkdf2Out (macFun s.cfg.mac) s.mac.key (s.readBytes src 0 s.pSlen) c outLen).getD a 0
      else s.readByte sp a := by
  obtain ⟨hm, hr⟩ := pbkdf2Blocks_spec hne c outLen (outBlocks outLen) hb
  refine ⟨hm, fun sp a => (hr sp a).trans ?_⟩
  have := outLen_le_outBlocks outLen
  by_cases h : sp = dst ∧ a < outLen
  · rw [if_pos h, if_pos ⟨h.1, by omega, h.2⟩]
  · rw [if_neg h, if_neg (fun hh => h ⟨hh.1, hh.2.2⟩)]

/-- The key is never changed, whatever message is pending (R47). -/
theorem pbkdf2_key (src dst : Space) (c outLen : Nat) (s : State) : (s.pbkdf2 src dst c outLen).mac.key = s.mac.key := by
  refine loop_same (fun s : State => s.mac.key) (fun k s => ?_) _ s
  have h := loop_same (fun s : State => s.mac.key) (body := fun _ => State.pbkdf2Next) (fun _ _ => rfl) (c - 1)
    (s.pbkdf2First src (k + 1))
  simp only [State.pbkdf2Block, State.pbkdf2Store, State.writeBytes_mac]
  exact h.trans rfl

/-- PBKDF2 writes its destination only, whatever message is pending. -/
theorem pbkdf2_outside (src dst : Space) (c outLen : Nat) (s : State) {sp : Space} (h : sp ≠ dst) (a : Nat) :
    (s.pbkdf2 src dst c outLen).readByte sp a = s.readByte sp a := by
  refine loop_same (fun s : State => s.readByte sp a) (fun k s => ?_) _ s
  have h' := loop_same (fun s : State => s.readByte sp a) (body := fun _ => State.pbkdf2Next)
    (fun _ _ => rfl) (c - 1) (s.pbkdf2First src (k + 1))
  simp only [State.pbkdf2Block, State.pbkdf2Store, State.readByte_writeBytes]
  rw [if_neg (fun hh => h hh.1)]
  exact h'.trans rfl

end Sys2Proof.Machine
end

