-- ==== Sys2Proof/Laws/Romix.lean ====
section
/-! SUPPORT. ROMix on the spaces B, V and XY is ROMix as a function (`spec/42_romix.md` R148, R149, R153). -/

namespace Sys2Proof.Machine

/-! ### The slot index -/

theorem exists_of_isPow2 {n : Nat} (h : isPow2 n = true) : ∃ k, n = 2 ^ k := by
  simp only [isPow2, Bool.and_eq_true, decide_eq_true_eq] at h
  obtain ⟨h0, h1⟩ := h
  induction n using Nat.strongRecOn with
  | ind n ih =>
    rcases Nat.even_or_odd' n with ⟨m, rfl | rfl⟩
    · have hm : m ≠ 0 := by omega
      have hand : m &&& (m - 1) = 0 := by
        apply Nat.eq_of_testBit_eq
        intro i
        have h2 := congrArg (fun x => Nat.testBit x (i + 1)) h1
        simp only [Nat.testBit_and, Nat.zero_testBit] at h2
        rw [Nat.testBit_succ, Nat.testBit_succ] at h2
        rw [Nat.testBit_and, Nat.zero_testBit]
        have e1 : 2 * m / 2 = m := by omega
        have e2 : (2 * m - 1) / 2 = m - 1 := by omega
        rwa [e1, e2] at h2
      obtain ⟨k, hk⟩ := ih m (by omega) hm hand
      exact ⟨k + 1, by rw [pow_succ, ← hk, Nat.mul_comm]⟩
    · by_cases hm : m = 0
      · exact ⟨0, by simp [hm]⟩
      · exfalso
        have e : 2 * m + 1 - 1 = 2 * m := by omega
        rw [e] at h1
        apply hm
        apply Nat.eq_of_testBit_eq
        intro i
        have h2 := congrArg (fun x => Nat.testBit x (i + 1)) h1
        simp only [Nat.testBit_and, Nat.zero_testBit] at h2
        rw [Nat.testBit_succ, Nat.testBit_succ] at h2
        have e1 : (2 * m + 1) / 2 = m := by omega
        have e2 : (2 * m) / 2 = m := by omega
        rw [e1, e2, Bool.and_self] at h2
        rw [h2, Nat.zero_testBit]

/-- Masking with `n − 1` is the remainder by a power of two. -/
theorem toNat_and_sub_one (x n : Word) (h : isPow2 n.toNat = true) : (x &&& (n - 1#32)).toNat = x.toNat % n.toNat := by
  obtain ⟨k, hk⟩ := exists_of_isPow2 h
  have h1 : (n - 1#32).toNat = n.toNat - 1 := by
    have := n.isLt
    have h0 : 0 < n.toNat := by rw [hk]; exact Nat.two_pow_pos k
    rw [BitVec.toNat_sub]
    simp only [BitVec.toNat_ofNat]
    omega
  rw [BitVec.toNat_and, h1, hk, Nat.and_two_pow_sub_one_eq_mod]

/-- The Integerify word of the X region is `Int` of its bytes. -/
theorem integerify_toNat {r : Nat} (hr : r ≠ 0) (s : State) :
    (s.integerify r).toNat = integerOf r (s.readBytes .xy 0 (slotLen r)) := by
  rw [integerOf, State.integerify]
  simp only [integerifyOff]
  rw [State.getD_readBytes _ _ (by rw [slotLen]; omega), State.getD_readBytes _ _ (by rw [slotLen]; omega),
    State.getD_readBytes _ _ (by rw [slotLen]; omega), State.getD_readBytes _ _ (by rw [slotLen]; omega)]
  simp only [Nat.zero_add]

/-! ### Lengths -/

theorem length_romixX {r : Nat} {lane : List Byte} (h : lane.length = slotLen r) (i : Nat) :
    (romixX r lane i).length = slotLen r := by
  cases i with
  | zero => exact h
  | succ i => exact length_blockMixX _ _

theorem length_romixZ {r n : Nat} {lane : List Byte} (h : lane.length = slotLen r) (i : Nat) :
    (romixZ r n lane i).length = slotLen r := by
  cases i with
  | zero => exact length_romixX h n
  | succ i => exact length_blockMixX _ _

/-! ### The phases -/

theorem quiet_romixCopyIn (lane r : Nat) (s : State) : Quiet s (s.romixCopyIn lane r) := quiet_writeBytes _ _ _ _

theorem quiet_romixFill (r i : Nat) (s : State) : Quiet s (s.romixFill r i) :=
  (quiet_writeBytes s _ _ _).trans (quiet_blockMix r _)

theorem quiet_romixMix (r : Nat) (s : State) : Quiet s (s.romixMix r) :=
  ((quiet_setWork s _).trans (quiet_writeBytes _ _ _ _)).trans (quiet_blockMix r _)

theorem quiet_romixCopyOut (lane r : Nat) (s : State) : Quiet s (s.romixCopyOut lane r) := quiet_writeBytes _ _ _ _

theorem quiet_romix (lane n r : Nat) (s : State) : Quiet s (s.romix lane n r) :=
  (((quiet_romixCopyIn lane r s).trans (Quiet.loop (quiet_romixFill r) n _)).trans
    (Quiet.loop (fun _ => quiet_romixMix r) n _)).trans (quiet_romixCopyOut lane r _)

/-- Step 1. -/
theorem romixCopyIn_X (lane r : Nat) (s : State) :
    (s.romixCopyIn lane r).readBytes .xy 0 (slotLen r) = s.readBytes .b (laneOff r lane) (slotLen r) := by
  have := State.readBytes_writeBytes_same s .xy 0 (s.readBytes .b (laneOff r lane) (slotLen r))
  rwa [State.length_readBytes] at this

theorem romixCopyIn_outside (lane r : Nat) (s : State) {sp : Space} {a : Nat}
    (h : ¬ (sp = .xy ∧ a < 2 * slotLen r)) : (s.romixCopyIn lane r).readByte sp a = s.readByte sp a := by
  rw [State.romixCopyIn, State.readByte_writeBytes, State.length_readBytes, if_neg fun hh => h ⟨hh.1, by omega⟩]

/-- One iteration of the fill phase. -/
theorem romixFill_X {r : Nat} (hr : r ≠ 0) (i : Nat) (s : State) :
    (s.romixFill r i).readBytes .xy 0 (slotLen r) = blockMixX r (s.readBytes .xy 0 (slotLen r)) := by
  rw [State.romixFill, blockMix_X hr, State.readBytes_writeBytes_other _ (.inl (by decide))]

theorem romixFill_slot {r : Nat} (hr : r ≠ 0) (i : Nat) (s : State) :
    (s.romixFill r i).readBytes .v (slotOff r i) (slotLen r) = s.readBytes .xy 0 (slotLen r) := by
  have := State.readBytes_writeBytes_same s .v (slotOff r i) (s.readBytes .xy 0 (slotLen r))
  rw [State.length_readBytes] at this
  rw [← this, State.readBytes_eq_iff]
  intro k _
  rw [State.romixFill, blockMix_outside hr _ (by simp)]

theorem romixFill_outside {r : Nat} (hr : r ≠ 0) (i : Nat) (s : State) {sp : Space} {a : Nat}
    (h : ¬ (sp = .xy ∧ a < 2 * slotLen r)) (hv : ¬ (sp = .v ∧ slotOff r i ≤ a ∧ a < slotOff r i + slotLen r)) :
    (s.romixFill r i).readByte sp a = s.readByte sp a := by
  rw [State.romixFill, blockMix_outside hr _ h, State.readByte_writeBytes, State.length_readBytes, if_neg hv]

/-- The fill phase after `i` iterations (R149, R153). -/
theorem romixFills_spec {r : Nat} (hr : r ≠ 0) (s : State) (i : Nat) :
    let x := s.readBytes .xy 0 (slotLen r)
    let t := loop (State.romixFill r) i s
    t.readBytes .xy 0 (slotLen r) = romixX r x i ∧
    (∀ k, k < i → t.readBytes .v (slotOff r k) (slotLen r) = romixX r x k) ∧
    (∀ sp a, ¬ (sp = .xy ∧ a < 2 * slotLen r) → ¬ (sp = .v ∧ a < i * slotLen r) → t.readByte sp a = s.readByte sp a) := by
  intro x
  induction i with
  | zero => exact ⟨rfl, fun k hk => absurd hk (Nat.not_lt_zero k), fun _ _ _ _ => rfl⟩
  | succ i ih =>
    obtain ⟨hx, hv, ho⟩ := ih
    refine ⟨?_, ?_, ?_⟩
    · rw [loop_succ, romixFill_X hr, hx]; rfl
    · intro k hk
      rw [loop_succ]
      by_cases e : k = i
      · subst e; rw [romixFill_slot hr, hx]
      · rw [← hv k (by omega), State.readBytes_eq_iff]
        intro m hm
        have hle : (k + 1) * slotLen r ≤ i * slotLen r := Nat.mul_le_mul_right _ (by omega)
        rw [Nat.succ_mul] at hle
        rw [romixFill_outside hr _ _ (by simp) (by simp only [slotOff, true_and]; omega)]
    · intro sp a h1 h2
      rw [Nat.succ_mul] at h2
      rw [loop_succ, romixFill_outside hr _ _ h1 (fun hh => h2 ⟨hh.1, by simp only [slotOff] at hh; omega⟩),
        ho sp a h1 (fun hh => h2 ⟨hh.1, by omega⟩)]

/-- One iteration of the mix phase, with slot `j` of the table. -/
theorem romixMix_X {r : Nat} (hr : r ≠ 0) (s : State) :
    (s.romixMix r).readBytes .xy 0 (slotLen r) =
      blockMixX r (xorBytes (s.readBytes .xy 0 (slotLen r))
        (s.readBytes .v (slotOff r (s.slotIndex r).toNat) (slotLen r))) := by
  rw [State.romixMix, blockMix_X hr]
  congr 1
  have h := State.readBytes_writeBytes_same (s.setWork { s.work with j := s.slotIndex r }) .xy 0
    (xorBytes ((s.setWork { s.work with j := s.slotIndex r }).readBytes .xy 0 (slotLen r))
      ((s.setWork { s.work with j := s.slotIndex r }).readBytes .v (slotOff r (s.slotIndex r).toNat) (slotLen r)))
  rw [length_xorBytes, State.length_readBytes, State.length_readBytes, Nat.min_self] at h
  refine h.trans ?_
  rw [State.readBytes_congr (State.setWork_mem _ _) (State.setWork_epoch _ _),
    State.readBytes_congr (State.setWork_mem _ _) (State.setWork_epoch _ _)]

theorem romixMix_Y {r : Nat} (hr : r ≠ 0) (s : State) :
    (s.romixMix r).readBytes .xy (slotLen r) (slotLen r) =
      blockMixY r (xorBytes (s.readBytes .xy 0 (slotLen r))
        (s.readBytes .v (slotOff r (s.slotIndex r).toNat) (slotLen r))) := by
  rw [State.romixMix, blockMix_Y hr]
  congr 1
  have h := State.readBytes_writeBytes_same (s.setWork { s.work with j := s.slotIndex r }) .xy 0
    (xorBytes ((s.setWork { s.work with j := s.slotIndex r }).readBytes .xy 0 (slotLen r))
      ((s.setWork { s.work with j := s.slotIndex r }).readBytes .v (slotOff r (s.slotIndex r).toNat) (slotLen r)))
  rw [length_xorBytes, State.length_readBytes, State.length_readBytes, Nat.min_self] at h
  refine h.trans ?_
  rw [State.readBytes_congr (State.setWork_mem _ _) (State.setWork_epoch _ _),
    State.readBytes_congr (State.setWork_mem _ _) (State.setWork_epoch _ _)]

/-- The mix phase writes XY only: V is read-only (R64). -/
theorem romixMix_outside {r : Nat} (hr : r ≠ 0) (s : State) {sp : Space} {a : Nat}
    (h : ¬ (sp = .xy ∧ a < 2 * slotLen r)) : (s.romixMix r).readByte sp a = s.readByte sp a := by
  rw [State.romixMix, blockMix_outside hr _ h, State.readByte_writeBytes, length_xorBytes, State.length_readBytes,
    State.length_readBytes, if_neg fun hh => h ⟨hh.1, by omega⟩, setWork_readByte]

theorem slotIndex_toNat {r : Nat} (hr : r ≠ 0) (s : State) (hp : isPow2 s.pN = true) :
    (s.slotIndex r).toNat = integerOf r (s.readBytes .xy 0 (slotLen r)) % s.pN := by
  rw [State.slotIndex, toNat_and_sub_one _ _ hp, integerify_toNat hr]; rfl

/-- The mix phase after `i` iterations, from a table `V_k = X_k` (R149). -/
theorem romixMixes_spec {r n : Nat} (hr : r ≠ 0) {s : State} {lane : List Byte} (hn : s.pN = n) (hp : isPow2 n = true)
    (hx : s.readBytes .xy 0 (slotLen r) = romixX r lane n)
    (hv : ∀ k, k < n → s.readBytes .v (slotOff r k) (slotLen r) = romixX r lane k) (i : Nat) :
    let t := loop (fun _ => State.romixMix r) i s
    t.readBytes .xy 0 (slotLen r) = romixZ r n lane i ∧
    (∀ sp a, ¬ (sp = .xy ∧ a < 2 * slotLen r) → t.readByte sp a = s.readByte sp a) := by
  have hpos : 0 < n := by
    obtain ⟨k, rfl⟩ := exists_of_isPow2 hp; exact Nat.two_pow_pos k
  induction i with
  | zero => exact ⟨hx, fun _ _ _ => rfl⟩
  | succ i ih =>
    obtain ⟨hz, ho⟩ := ih
    refine ⟨?_, ?_⟩
    · have hN : (loop (fun _ => State.romixMix r) i s).pN = n := by
        rw [State.pN_congr (Quiet.loop (fun _ => quiet_romixMix r) i s).1.regs, hn]
      rw [loop_succ, romixMix_X hr, slotIndex_toNat hr _ (by rw [hN]; exact hp), hN, hz, romixZ]
      congr 2
      rw [← hv _ (Nat.mod_lt _ hpos), State.readBytes_eq_iff]
      intro k _
      exact ho _ _ (by simp)
    · intro sp a h
      rw [loop_succ, romixMix_outside hr _ h, ho sp a h]

/-- Everything ROMix does (R149, R153): the lane, the table, the X region, and nothing outside its places. -/
theorem romix_spec {lane n r : Nat} (hr : r ≠ 0) (s : State) (hn : s.pN = n) (hp : isPow2 n = true) :
    let input := s.readBytes .b (laneOff r lane) (slotLen r)
    let t := s.romix lane n r
    t.readBytes .b (laneOff r lane) (slotLen r) = romixLane r n input ∧
    (∀ k, k < n → t.readBytes .v (slotOff r k) (slotLen r) = romixX r input k) ∧
    t.readBytes .xy 0 (slotLen r) = romixLane r n input ∧
    SameBytesOutside (RomixPlaces lane n r) s t := by
  intro input t
  obtain ⟨fx, fv, fo⟩ := romixFills_spec hr (s.romixCopyIn lane r) n
  rw [romixCopyIn_X] at fx fv
  have hN : (loop (State.romixFill r) n (s.romixCopyIn lane r)).pN = n := by
    rw [State.pN_congr ((quiet_romixCopyIn lane r s).trans (Quiet.loop (quiet_romixFill r) n _)).1.regs, hn]
  obtain ⟨mz, mo⟩ := romixMixes_spec hr hN hp fx fv n
  have hb : t.readBytes .b (laneOff r lane) (slotLen r) = romixLane r n input := by
    have := State.readBytes_writeBytes_same
      (loop (fun _ => State.romixMix r) n (loop (State.romixFill r) n (s.romixCopyIn lane r))) .b (laneOff r lane)
      ((loop (fun _ => State.romixMix r) n (loop (State.romixFill r) n (s.romixCopyIn lane r))).readBytes .xy 0 (slotLen r))
    rw [State.length_readBytes] at this
    exact this.trans mz
  refine ⟨hb, ?_, ?_, ?_⟩
  · intro k hk
    rw [← fv k hk]
    refine (State.readBytes_writeBytes_other _ (.inl (by decide))).trans ?_
    rw [State.readBytes_eq_iff]
    exact fun m _ => mo _ _ (by simp)
  · refine (State.readBytes_writeBytes_other _ (.inl (by decide))).trans mz
  · intro sp a h
    simp only [RomixPlaces, Place, not_or] at h
    obtain ⟨h1, h2, h3⟩ := h
    have e : t.readByte sp a =
        (loop (fun _ => State.romixMix r) n (loop (State.romixFill r) n (s.romixCopyIn lane r))).readByte sp a := by
      refine (State.readByte_writeBytes _ _ _ _ _ _).trans ?_
      rw [State.length_readBytes, if_neg h1]
    have hxy : ¬ (sp = .xy ∧ a < 2 * slotLen r) := fun hh => h3 ⟨hh.1, by omega, by omega⟩
    rw [e, mo sp a hxy, fo sp a hxy (fun hh => h2 ⟨hh.1, by omega, by omega⟩), romixCopyIn_outside lane r s hxy]

/-- The Y region after ROMix with at least one mix iteration: the temporary buffer of the last BlockMix (R153). -/
theorem romix_Y {lane n r : Nat} (hr : r ≠ 0) (s : State) (hn : s.pN = n + 1) (hp : isPow2 (n + 1) = true) :
    let input := s.readBytes .b (laneOff r lane) (slotLen r)
    let last := romixZ r (n + 1) input n
    (s.romix lane (n + 1) r).readBytes .xy (slotLen r) (slotLen r) =
      blockMixY r (xorBytes last (romixX r input (integerOf r last % (n + 1)))) := by
  intro input last
  obtain ⟨fx, fv, fo⟩ := romixFills_spec hr (s.romixCopyIn lane r) (n + 1)
  rw [romixCopyIn_X] at fx fv
  have hN : (loop (State.romixFill r) (n + 1) (s.romixCopyIn lane r)).pN = n + 1 := by
    rw [State.pN_congr ((quiet_romixCopyIn lane r s).trans (Quiet.loop (quiet_romixFill r) _ _)).1.regs, hn]
  obtain ⟨mz, mo⟩ := romixMixes_spec hr hN hp fx fv n
  refine (State.readBytes_writeBytes_other _ (.inl (by decide))).trans ?_
  have hN' : (loop (fun _ => State.romixMix r) n (loop (State.romixFill r) (n + 1) (s.romixCopyIn lane r))).pN = n + 1 := by
    rw [State.pN_congr (Quiet.loop (fun _ => quiet_romixMix r) n _).1.regs, hN]
  rw [loop_succ, romixMix_Y hr, slotIndex_toNat hr _ (by rw [hN']; exact hp), hN', mz]
  congr 2
  rw [← fv _ (Nat.mod_lt _ (by omega)), State.readBytes_eq_iff]
  exact fun k _ => mo _ _ (by simp)

end Sys2Proof.Machine
end

