-- ==== Sys2Proof/Laws/Frame.lean ====
section
/-! SUPPORT. What the effects leave alone beyond the control part: working registers they do not use, and the form of
memory. -/

namespace Sys2Proof.Machine

/-! ### The working registers -/

/-- SALSA uses `in` and `x` (R110, R112). -/
theorem effectSalsa_work (k : Nat) (s : State) :
    (effectSalsa k s).work = { s.work with
      inw := blockWords (s.readBlock .xy (xBlockOff k)), x := roundNetwork (blockWords (s.readBlock .xy (xBlockOff k))) } := by
  simp only [effectSalsa, coreRun_eq, State.writeBytes_work, State.setWork_work]

/-- The working registers that BlockMix does not use. -/
def WorkRegs.notOfBlockMix (w : WorkRegs) : Word × Word × Digest × Digest := (w.j, w.ctr, w.u, w.t)

theorem blockMix_work (r : Nat) (s : State) : (s.blockMix r).work.notOfBlockMix = s.work.notOfBlockMix := by
  rw [State.blockMix, loop_same (fun t : State => t.work.notOfBlockMix) (fun i t => by simp [State.mixOdd]),
    loop_same (fun t : State => t.work.notOfBlockMix) (fun i t => by simp [State.mixEven]),
    loop_same (fun t : State => t.work.notOfBlockMix)
      (fun i t => by simp [State.mixStep, coreRun_eq, WorkRegs.notOfBlockMix])]
  simp [WorkRegs.notOfBlockMix]

theorem WorkRegs.eq_of_notOfBlockMix {w w' : WorkRegs} (h : w'.notOfBlockMix = w.notOfBlockMix) :
    w' = { w with inw := w'.inw, x := w'.x, xb := w'.xb } := by
  cases w; cases w'; simp_all [WorkRegs.notOfBlockMix]

/-- The working registers that ROMix does not use. -/
def WorkRegs.notOfRomix (w : WorkRegs) : Word × Digest × Digest := (w.ctr, w.u, w.t)

theorem WorkRegs.eq_of_notOfRomix {w w' : WorkRegs} (h : w'.notOfRomix = w.notOfRomix) :
    w' = { w with inw := w'.inw, x := w'.x, xb := w'.xb, j := w'.j } := by
  cases w; cases w'; simp_all [WorkRegs.notOfRomix]

theorem WorkRegs.notOfRomix_congr {w w' : WorkRegs} (h : w'.notOfBlockMix = w.notOfBlockMix) :
    w'.notOfRomix = w.notOfRomix := by
  simp_all [WorkRegs.notOfBlockMix, WorkRegs.notOfRomix]

theorem romixFill_work (r i : Nat) (s : State) : (s.romixFill r i).work.notOfRomix = s.work.notOfRomix := by
  rw [State.romixFill, WorkRegs.notOfRomix_congr (blockMix_work r _), State.writeBytes_work]

theorem romixMix_work (r : Nat) (s : State) : (s.romixMix r).work.notOfRomix = s.work.notOfRomix := by
  rw [State.romixMix, WorkRegs.notOfRomix_congr (blockMix_work r _), State.writeBytes_work]; rfl

theorem romix_work (lane n r : Nat) (s : State) : (s.romix lane n r).work.notOfRomix = s.work.notOfRomix := by
  rw [State.romix, State.romixCopyOut, State.writeBytes_work,
    loop_same (fun t : State => t.work.notOfRomix) (fun _ t => romixMix_work r t),
    loop_same (fun t : State => t.work.notOfRomix) (romixFill_work r), State.romixCopyIn, State.writeBytes_work]

/-- The working registers that PBKDF2 does not use. -/
def WorkRegs.notOfPbkdf2 (w : WorkRegs) : Vector Word 16 × Vector Word 16 × Block × Word := (w.inw, w.x, w.xb, w.j)

theorem WorkRegs.eq_of_notOfPbkdf2 {w w' : WorkRegs} (h : w'.notOfPbkdf2 = w.notOfPbkdf2) :
    w' = { w with ctr := w'.ctr, u := w'.u, t := w'.t } := by
  cases w; cases w'; simp_all [WorkRegs.notOfPbkdf2]

theorem pbkdf2_work (src dst : Space) (c outLen : Nat) (s : State) :
    (s.pbkdf2 src dst c outLen).work.notOfPbkdf2 = s.work.notOfPbkdf2 := by
  refine loop_same (fun t : State => t.work.notOfPbkdf2) (fun k t => ?_) _ s
  have h := loop_same (fun t : State => t.work.notOfPbkdf2) (body := fun _ => State.pbkdf2Next) (fun _ _ => rfl) (c - 1)
    (t.pbkdf2First src (k + 1))
  simp only [State.pbkdf2Block, State.pbkdf2Store, State.writeBytes_work]
  exact h.trans rfl

/-! ### The form of memory -/

/-- Memory is in canonical form and inside the capacities of this configuration. -/
def MemFits (c : Config) (s : State) : Prop := s.cfg = c ∧ s.mem.wf = true ∧ s.mem.below c = true

theorem MemFits.writeBytes {c : Config} {s : State} (h : MemFits c s) {sp : Space} {off : Nat} {vs : List Byte}
    (hoff : off + vs.length ≤ c.cap sp) : MemFits c (s.writeBytes sp off vs) := by
  obtain ⟨rfl, h1, h2⟩ := h
  exact ⟨by simp, State.writeBytes_wf h1 _ _ _, State.writeBytes_below h2 hoff⟩

theorem MemFits.congr {c : Config} {s t : State} (h : MemFits c s) (hc : t.cfg = s.cfg) (hm : t.mem = s.mem) :
    MemFits c t := by
  obtain ⟨h0, h1, h2⟩ := h
  exact ⟨hc.trans h0, hm ▸ h1, hm ▸ h2⟩

theorem MemFits.setWork {c : Config} {s : State} (h : MemFits c s) (w : WorkRegs) : MemFits c (s.setWork w) :=
  h.congr (State.setWork_cfg _ _) (State.setWork_mem _ _)

theorem MemFits.coreRun {c : Config} {s : State} (h : MemFits c s) (blk : Block) : MemFits c (s.coreRun blk) :=
  h.congr (sameControl_coreRun s blk).cfg (coreRun_mem s blk)

theorem MemFits.effectSalsa {c : Config} {s : State} (h : MemFits c s) {k : Nat} (hk : xBlockOff k + 64 ≤ c.capXy) :
    MemFits c (effectSalsa k s) :=
  (h.coreRun _).writeBytes (by simpa [Config.cap] using hk)

theorem MemFits.blockMix {c : Config} {s : State} (h : MemFits c s) {r : Nat} (hr : 2 * slotLen r ≤ c.capXy) :
    MemFits c (s.blockMix r) := by
  simp only [slotLen] at hr
  refine loop_induct (P := fun _ => MemFits c) r ?_ fun i t hi ht =>
    ht.writeBytes (by simp only [State.length_readBytes, xBlockOff, Config.cap]; omega)
  refine loop_induct (P := fun _ => MemFits c) r ?_ fun i t hi ht =>
    ht.writeBytes (by simp only [State.length_readBytes, xBlockOff, Config.cap]; omega)
  refine loop_induct (P := fun _ => MemFits c) (2 * r) (h.setWork _) fun i t hi ht => ?_
  rw [State.mixStep]
  exact ((ht.coreRun _).setWork _).writeBytes
    (by simp only [Vector.length_toList, yBlockOff, slotLen, Config.cap]; omega)

theorem MemFits.romix {c : Config} {s : State} (h : MemFits c s) {lane n r p : Nat} (hl : lane < p)
    (hb : slotLen r * p ≤ c.capB) (hv : slotLen r * n ≤ c.capV) (hx : 2 * slotLen r ≤ c.capXy) :
    MemFits c (s.romix lane n r) := by
  have hlane : laneOff r lane + slotLen r ≤ c.capB := by
    have := Nat.mul_le_mul_left (slotLen r) hl
    rw [Nat.mul_succ] at this
    rw [laneOff, Nat.mul_comm]; omega
  have hslot : ∀ i, i < n → slotOff r i + slotLen r ≤ c.capV := by
    intro i hi
    have := Nat.mul_le_mul_left (slotLen r) hi
    rw [Nat.mul_succ] at this
    rw [slotOff, Nat.mul_comm]; omega
  have hin : MemFits c (s.romixCopyIn lane r) :=
    h.writeBytes (by rw [State.length_readBytes]; simp only [Config.cap]; omega)
  have hfill : MemFits c (loop (State.romixFill r) n (s.romixCopyIn lane r)) :=
    loop_induct (P := fun _ => MemFits c) n hin fun i t hi ht =>
      (ht.writeBytes (by rw [State.length_readBytes]; exact hslot i hi)).blockMix hx
  have hmix : MemFits c (loop (fun _ => State.romixMix r) n (loop (State.romixFill r) n (s.romixCopyIn lane r))) :=
    loop_induct (P := fun _ => MemFits c) n hfill fun i t hi ht => by
      rw [State.romixMix]
      exact ((ht.setWork _).writeBytes
        (by simp only [length_xorBytes, State.length_readBytes, Config.cap]; omega)).blockMix hx
  exact hmix.writeBytes (by rw [State.length_readBytes]; exact hlane)

/-- Every output block of PBKDF2 lies inside the output (R174). -/
theorem outBlock_inside {outLen i : Nat} (hi : i < outBlocks outLen) :
    outBlockOff (i + 1) + min (outBlockLen outLen (i + 1)) 32 ≤ outLen := by
  simp only [outBlockOff, outBlockLen, outBlocks, ceilDiv] at *
  omega

theorem MemFits.pbkdf2 {c : Config} {s : State} (h : MemFits c s) {src dst : Space} {iter outLen : Nat}
    (ho : outLen ≤ c.cap dst) : MemFits c (s.pbkdf2 src dst iter outLen) := by
  refine loop_induct (P := fun _ => MemFits c) _ h fun i t hi ht => ?_
  have h1 : MemFits c (loop (fun _ => State.pbkdf2Next) (iter - 1) (t.pbkdf2First src (i + 1))) :=
    loop_induct (P := fun _ => MemFits c) _
      (ht.congr (sameControl_pbkdf2First src (i + 1) t).cfg (by simp [State.pbkdf2First]))
      fun _ u _ hu => hu.congr (sameControl_pbkdf2Next u).cfg (by simp [State.pbkdf2Next])
  rw [State.pbkdf2Block, State.pbkdf2Store]
  exact h1.writeBytes (by
    rw [List.length_take, Vector.length_toList]
    exact Nat.le_trans (outBlock_inside hi) ho)

/-- A command whose checks pass keeps the form of memory. -/
theorem effects_memFits {i : Instr} {c : Config} {s : State} (h : MemFits c s) (hc : checks i s = none) :
    MemFits c (effects i s) := by
  have e := h.1
  cases i with
  | salsa k =>
    obtain ⟨_, h2, h3⟩ := (checkSalsa_eq_none_iff k s).1 hc
    exact MemFits.effectSalsa (k := k) h (by rw [← e, xBlockOff]; omega)
  | bmix =>
    obtain ⟨_, h3⟩ := (checkBmix_eq_none_iff s).1 hc
    exact MemFits.blockMix (r := s.pR) h (by rw [← e, slotLen]; omega)
  | romix lane =>
    obtain ⟨_, h2, h3, h4, h5⟩ := (checkRomix_eq_none_iff lane s).1 hc
    rw [e] at h3 h4 h5
    exact h.romix h2 h3 h4 h5
  | pbkdf2SB => exact h.pbkdf2 (by rw [← e]; exact ((checkPbkdf2_eq_none_iff _ _ s).1 hc).2.2.2.2)
  | pbkdf2SDk => exact h.pbkdf2 (by rw [← e]; exact ((checkPbkdf2_eq_none_iff _ _ s).1 hc).2.2.2.2)
  | pbkdf2BDk => exact h.pbkdf2 (by rw [← e]; exact ((checkPbkdf2_eq_none_iff _ _ s).1 hc).2.2.2.2)
  | mackey => exact h.congr rfl rfl
  | valid => exact h
  | clrerr => exact h.congr rfl rfl

end Sys2Proof.Machine
end

