-- ==== Sys2Proof/Laws/Host.lean ====
section
/-! SUPPORT. What each line of a host procedure can do, so that no proof unfolds `runHost` (`spec/44_system_and_driver.md`
R200). -/

namespace Sys2Proof.Machine

/-- One part of a procedure after another. -/
theorem runHost_append (l m : List HostOp) (read : List Byte) (s : State) :
    runHost (l ++ m) read s =
      match runHost l read s with
      | .finished read' s' => runHost m read' s'
      | e => e := by
  induction l generalizing read s with
  | nil => rfl
  | cons op l ih =>
    cases op with
    | access a =>
      simp only [List.cons_append, runHost]
      cases hostAccess a s <;> simp [ih]
    | write off v =>
      simp only [List.cons_append, runHost]
      split
      · cases hostAccess (.regWrite off (BitVec.ofNat 32 v)) s <;> simp [ih]
      · rfl
    | command i =>
      simp only [List.cons_append, runHost]
      split
      · cases hostAccess (.regWrite 0x00 (encode i)) s with
        | next s1 =>
          simp only
          cases hostAccess (.regRead 0x04) s1 with
          | next s2 => simp only; cases replyError s2 <;> simp [ih]
          | fault _ => rfl
          | refused _ => rfl
        | fault _ => rfl
        | refused _ => rfl
      · rfl

/-- `WR`: the register holds the value. -/
theorem runHost_write {off v : Nat} {reg : HostReg} {s : State} {rest : List HostOp} {read : List Byte}
    (hv : v < 2 ^ 32) (hb : s.status.busy = false) (hr : regAt off = some reg) (hc : reg ≠ .cmd) :
    runHost (.write off v :: rest) read s = runHost rest read (s.writeReg reg (BitVec.ofNat 32 v)) := by
  have h : hostAccess (.regWrite off (BitVec.ofNat 32 v)) s = .next (s.writeReg reg (BitVec.ofNat 32 v)) := by
    simp only [hostAccess, hostAccessWith, hostRegWrite, hr, whenIdle, hb]
    cases reg <;> first | exact absurd rfl hc | rfl
  rw [runHost, if_pos hv, h]

/-- A value that does not fit its register ends the procedure at the line that writes it. -/
theorem runHost_write_unfit {off v : Nat} {s : State} {rest : List HostOp} {read : List Byte} (hv : ¬ v < 2 ^ 32) :
    runHost (.write off v :: rest) read s = .doesNotFit s := by
  rw [runHost, if_neg hv]

/-- A command, then a read of STATUS: the procedure goes on, or reports the code. -/
theorem runHost_command {i : Instr} {s t : State} {rest : List HostOp} {read : List Byte} (hw : i.wellFormed = true)
    (hd : decode (encode i) = .instr i) (hb : s.status.busy = false) (h : exec i s = .next t) :
    runHost (.command i :: rest) read s =
      match replyError (t.answer (.word t.status.toWord)) with
      | some code => .error code (t.answer (.word t.status.toWord))
      | none => runHost rest read (t.answer (.word t.status.toWord)) := by
  have h1 : hostAccess (.regWrite 0x00 (encode i)) s = .next t := by
    simp [hostAccess, hostAccessWith, hostRegWrite, regAt, whenIdle, hb, State.cmdWrite, hd, h]
  have h2 : hostAccess (.regRead 0x04) t = .next (t.answer (.word t.status.toWord)) := by
    simp [hostAccess, hostAccessWith, hostRegRead, regAt, State.readReg]
  rw [runHost, if_pos hw, h1]
  simp only [h2] <;> rfl

/-- An operand that does not fit its field ends the procedure at the line that writes it. -/
theorem runHost_command_unfit {i : Instr} {s : State} {rest : List HostOp} {read : List Byte}
    (hw : i.wellFormed = false) : runHost (.command i :: rest) read s = .doesNotFit s := by
  rw [runHost, if_neg (by simp [hw])]

/-- `LD`: the bytes are in the space. -/
theorem runHost_ld (sp : Space) (vs : List Byte) (off : Nat) (s : State) (read : List Byte)
    (hb : s.status.busy = false) (hc : off + vs.length ≤ s.cfg.cap sp) :
    runHost (ld sp off vs) read s = .finished read (s.writeBytes sp off vs) := by
  induction vs generalizing off s with
  | nil => rfl
  | cons v vs ih =>
    simp only [List.length_cons] at hc
    have h : hostAccess (.bufWrite sp off v) s = .next (s.writeByte sp off v) := by
      simp only [hostAccess, hostAccessWith, whenIdle, hb, whenInside]
      rw [if_neg (by simp), if_pos (by omega)]
    simp only [ld, runHost, h, replyBytes, List.append_nil]
    rw [ih _ _ (by exact hb) (by simp only [State.writeByte_cfg]; omega)]
    rfl

end Sys2Proof.Machine
end

