-- ==== Sys2Proof/Laws/PerInstr.lean ====
section
/-! SUPPORT. Statements about every instruction as syntax, one lemma per constructor. -/

namespace Sys2Proof.Laws.EncodedFields

/-- The word of a well-formed instruction has its operation code in bits 7 to 0 and its operand in bits 31 to 8
(`spec/30_encoding.md` R91, R98). -/
def Statement (i : Instr) : Prop :=
  i.wellFormed = true → opField (encode i) = BitVec.ofNat 8 i.op ∧ (argField (encode i)).toNat = i.arg

/-- The two fields of `op + 2^8·arg`. -/
theorem fields_of_word {op arg : Nat} (hop : op < 2 ^ 8) (harg : arg < 2 ^ 24) :
    opField (BitVec.ofNat 32 (op + 2 ^ 8 * arg)) = BitVec.ofNat 8 op ∧
      (argField (BitVec.ofNat 32 (op + 2 ^ 8 * arg))).toNat = arg := by
  constructor
  · apply BitVec.eq_of_toNat_eq
    simp only [opField, BitVec.extractLsb'_toNat, BitVec.toNat_ofNat, Nat.shiftRight_zero]
    omega
  · simp only [argField, BitVec.extractLsb'_toNat, BitVec.toNat_ofNat, Nat.shiftRight_eq_div_pow]
    omega

theorem lt_of_fitsArg {n : Nat} (h : fitsArg n = true) : n < 2 ^ 24 := by simpa only [fitsArg, decide_eq_true_eq] using h

theorem salsa (k : Nat) : Statement (.salsa k) := fun h => fields_of_word (by simp only [Instr.op]; decide) (lt_of_fitsArg h)

theorem bmix : Statement .bmix := fun _ => by decide

theorem romix (lane : Nat) : Statement (.romix lane) := fun h => fields_of_word (by simp only [Instr.op]; decide) (lt_of_fitsArg h)

theorem pbkdf2SB : Statement .pbkdf2SB := fun _ => by decide

theorem pbkdf2SDk : Statement .pbkdf2SDk := fun _ => by decide

theorem pbkdf2BDk : Statement .pbkdf2BDk := fun _ => by decide

theorem mackey : Statement .mackey := fun _ => by decide

theorem valid : Statement .valid := fun _ => by decide

theorem clrerr : Statement .clrerr := fun _ => by decide

end Sys2Proof.Laws.EncodedFields
end

