-- ==== Sys2Proof/Laws/Sequencer.lean ====
section
/-! SUPPORT. The effects neither read nor change the sequencer position, so they commute with a move of it. -/

namespace Sys2Proof.Machine

/-- `f` commutes with a move of the position. -/
def IgnoresPos (f : State → State) : Prop := ∀ s op ph, f (s.goto op ph) = (f s).goto op ph

@[simp] theorem goto_goto (s : State) (op op' : Instr) (ph ph' : Phase) :
    (s.goto op ph).goto op' ph' = s.goto op' ph' := rfl

@[simp] theorem goto_complete (s : State) (op : Instr) (ph : Phase) : (s.goto op ph).complete = s.complete := rfl

@[simp] theorem goto_raise (s : State) (op : Instr) (ph : Phase) (c : ErrCode) : (s.goto op ph).raise c = s.raise c := rfl

@[simp] theorem goto_readByte (s : State) (op : Instr) (ph : Phase) (sp : Space) (a : Nat) :
    (s.goto op ph).readByte sp a = s.readByte sp a := rfl

@[simp] theorem goto_readBytes (s : State) (op : Instr) (ph : Phase) (sp : Space) (a n : Nat) :
    (s.goto op ph).readBytes sp a n = s.readBytes sp a n := rfl

@[simp] theorem goto_readBlock (s : State) (op : Instr) (ph : Phase) (sp : Space) (a : Nat) :
    (s.goto op ph).readBlock sp a = s.readBlock sp a := rfl

theorem goto_setWork (s : State) (op : Instr) (ph : Phase) (w : WorkRegs) :
    (s.goto op ph).setWork w = (s.setWork w).goto op ph := rfl

theorem goto_writeBytes (s : State) (op : Instr) (ph : Phase) (sp : Space) (off : Nat) (vs : List Byte) :
    (s.goto op ph).writeBytes sp off vs = (s.writeBytes sp off vs).goto op ph := by
  induction vs generalizing s off with
  | nil => rfl
  | cons v vs ih => rw [State.writeBytes_cons, State.writeBytes_cons, ← ih]; rfl

theorem IgnoresPos.loop {body : Nat → State → State} (h : ∀ i, IgnoresPos (body i)) (n : Nat) :
    IgnoresPos (loop body n) := by
  intro s op ph
  induction n with
  | zero => rfl
  | succ n ih => rw [loop_succ, loop_succ, ih, h n]

theorem goto_coreLoad (s : State) (op : Instr) (ph : Phase) (blk : Block) :
    (s.goto op ph).coreLoad blk = (s.coreLoad blk).goto op ph := rfl

theorem ignoresPos_coreRound : IgnoresPos State.coreRound := fun _ _ _ => rfl

theorem goto_coreOut (s : State) (op : Instr) (ph : Phase) : (s.goto op ph).coreOut = s.coreOut := rfl

theorem ignoresPos_coreRun (blk : Block) : IgnoresPos fun s => s.coreRun blk := by
  intro s op ph
  simp only [coreRun_eq]
  rfl

theorem ignoresPos_mixLoad (r : Nat) : IgnoresPos (State.mixLoad r) := fun _ _ _ => rfl

theorem ignoresPos_mixStep (r i : Nat) : IgnoresPos (State.mixStep r i) := by
  intro s op ph
  simp only [State.mixStep, ← goto_writeBytes, coreRun_eq]
  rfl

theorem ignoresPos_mixEven (r i : Nat) : IgnoresPos (State.mixEven r i) := fun s op ph => goto_writeBytes s op ph _ _ _

theorem ignoresPos_mixOdd (r i : Nat) : IgnoresPos (State.mixOdd r i) := fun s op ph => goto_writeBytes s op ph _ _ _

theorem ignoresPos_blockMix (r : Nat) : IgnoresPos (State.blockMix r) := by
  intro s op ph
  rw [State.blockMix, State.blockMix, ignoresPos_mixLoad, IgnoresPos.loop (ignoresPos_mixStep r),
    IgnoresPos.loop (ignoresPos_mixEven r), IgnoresPos.loop (ignoresPos_mixOdd r)]

theorem ignoresPos_romixCopyIn (lane r : Nat) : IgnoresPos (State.romixCopyIn lane r) :=
  fun s op ph => goto_writeBytes s op ph _ _ _

theorem ignoresPos_romixFill (r i : Nat) : IgnoresPos (State.romixFill r i) := by
  intro s op ph
  rw [State.romixFill, State.romixFill, goto_writeBytes, ignoresPos_blockMix]; rfl

theorem ignoresPos_romixMix (r : Nat) : IgnoresPos (State.romixMix r) := by
  intro s op ph
  rw [State.romixMix, State.romixMix, ← ignoresPos_blockMix, ← goto_writeBytes]; rfl

theorem ignoresPos_romixCopyOut (lane r : Nat) : IgnoresPos (State.romixCopyOut lane r) :=
  fun s op ph => goto_writeBytes s op ph _ _ _

theorem ignoresPos_pbkdf2First (src : Space) (i : Nat) : IgnoresPos (State.pbkdf2First src i) := fun _ _ _ => rfl

theorem ignoresPos_pbkdf2Next : IgnoresPos State.pbkdf2Next := fun _ _ _ => rfl

theorem ignoresPos_pbkdf2Store (dst : Space) (outLen i : Nat) : IgnoresPos (State.pbkdf2Store dst outLen i) :=
  fun s op ph => goto_writeBytes s op ph _ _ _

/-- The checks read neither the position nor BUSY and DONE. -/
theorem checks_goto_begin (i op : Instr) (ph : Phase) (s : State) : checks i (s.begin.goto op ph) = checks i s := by
  cases i <;> rfl

/-! ### Moves -/

/-- The move of a running command is its command's part. -/
def seqOf : Instr → Phase → State → State
  | .salsa k => seqSalsa k
  | .bmix => seqBmix
  | .romix lane => seqRomix lane
  | .pbkdf2SB => seqPbkdf2 .pbkdf2SB .s .b
  | .pbkdf2SDk => seqPbkdf2 .pbkdf2SDk .s .dk
  | .pbkdf2BDk => seqPbkdf2 .pbkdf2BDk .b .dk
  | .mackey => seqExec .mackey effectMackey
  | .valid => seqExec .valid effectValid
  | .clrerr => seqExec .clrerr effectClrerr

theorem seqTick_goto (s : State) (op : Instr) (ph : Phase) : (s.goto op ph).seqTick = seqOf op ph (s.goto op ph) := by
  rw [State.seqTick]
  cases op <;> simp only [State.goto_pos, seqOf]

theorem ticks_zero (s : State) : s.ticks 0 = s := rfl

theorem ticks_succ (n : Nat) (s : State) : s.ticks (n + 1) = (s.ticks n).seqTick := rfl

theorem ticks_add (m n : Nat) (s : State) : s.ticks (m + n) = (s.ticks n).ticks m := loop_const_add _ m n s

end Sys2Proof.Machine
end

