-- ==== Sys2Proof/Tests/Slice0.lean ====
section
/-! SUPPORT. Tests. Expected values are the spec's (`spec/95_test_vectors.md`, cited at each test) or are written out by hand
from a rule. Beside them, for every statement with hypotheses, a concrete state that meets them (`witness_…`). -/

namespace Sys2Proof.Tests

open Sys2Proof.Machine

/-! ### Helpers -/

/-- The registers of a small derivation. -/
def regs : ParamRegs := { n := 2, r := 1, p := 2, plen := 3, slen := 4, olen := 33, iter := 1 }

/-- A small ready state: the registers above, a key loaded. -/
def ready : State := { State.reset with
  regs := regs
  status := { busy := false, done := true, err := false, keyed := true, errcode := .noError }
  mac := { key := [0x70, 0x61, 0x73], buf := [] } }

/-- The same without a key in use. -/
def unkeyed : State := { ready with
  status := { busy := false, done := true, err := false, keyed := false, errcode := .noError } }

/-- The same while ERR is 1. -/
def failed : State := { ready with
  status := { busy := false, done := false, err := true, keyed := true, errcode := .badIndex } }

/-- The same while a command runs. -/
def running : State := { ready with
  status := { busy := true, done := false, err := false, keyed := true, errcode := .noError }
  pos := .running .bmix (.step 1) }

def withRegs (s : State) (f : ParamRegs → ParamRegs) : State := { s with regs := f s.regs }

/-- The host writes a word to CMD. -/
def cmd (s : State) (w : Word) : State := { s with port := [.regWrite 0x00 w] }

/-- The next state, if there is one. -/
def after (o : Host.Outcome State Fault Refusal) : Option State :=
  match o with
  | .next t => some t
  | .fault _ => none
  | .refused _ => none

/-- The STATUS word after a step. -/
def statusAfter (o : Host.Outcome State Fault Refusal) : Option Word := (after o).map fun t => t.status.toWord

/-- Bytes of a space after a command. -/
def bytesAfter (sp : Space) (off n : Nat) (o : Host.Outcome State Fault Refusal) : List Nat :=
  match after o with
  | some t => (t.readBytes sp off n).map BitVec.toNat
  | none => []

/-- The bytes `from, from+1, …`. -/
def upFrom (first n : Nat) : List Byte := (List.range n).map fun k => BitVec.ofNat 8 (first + k)

/-! ### Well-formed terms: one ill-formed term for each check -/

theorem test_salsa_operand_too_wide : (Instr.salsa (2 ^ 24)).wellFormed = false := by decide

theorem test_romix_operand_too_wide : (Instr.romix (2 ^ 24)).wellFormed = false := by decide

/-- Both ends of the operands (also those of `EveryLegalFormHasItsWord`). -/
theorem witness_wellFormed : (Instr.salsa (2 ^ 24 - 1)).wellFormed = true ∧ (Instr.salsa 0).wellFormed = true ∧
    (Instr.romix (2 ^ 24 - 1)).wellFormed = true ∧ Instr.clrerr.wellFormed = true := by decide

/-! ### Decoding: words written bit by bit from R91 to R93 (op in bits 7..0, arg in bits 31..8), and V6.2 -/

theorem test_decode_salsa :
    decode 0b000000000000000000000011_00000001#32 = .instr (.salsa 3) ∧
    decode 0b111111111111111111111111_00000001#32 = .instr (.salsa 16777215) := by decide

theorem test_decode_bmix : decode 0b000000000000000000000000_00000010#32 = .instr .bmix := by decide

theorem test_decode_romix :
    decode 0b000000000000000000001111_00000011#32 = .instr (.romix 15) ∧
    decode 0b100000000000000000000000_00000011#32 = .instr (.romix 8388608) := by decide

/-- `arg[0]` is the source (0 = S, 1 = B), `arg[1]` the destination (0 = B, 1 = DK). -/
theorem test_decode_pbkdf2 :
    decode 0b0000000000000000000000_0_0_00000100#32 = .instr .pbkdf2SB ∧
    decode 0b0000000000000000000000_1_0_00000100#32 = .instr .pbkdf2SDk ∧
    decode 0b0000000000000000000000_1_1_00000100#32 = .instr .pbkdf2BDk ∧
    decode 0b0000000000000000000000_0_1_00000100#32 = .illegal .sourceIsDestination := by decide

theorem test_decode_mackey : decode 0b000000000000000000000000_00000101#32 = .instr .mackey := by decide

theorem test_decode_valid : decode 0b000000000000000000000000_00000110#32 = .instr .valid := by decide

theorem test_decode_clrerr : decode 0b000000000000000000000000_00000111#32 = .instr .clrerr := by decide

/-- The illegal words of V6.2. -/
theorem test_decode_illegal :
    [0x00000000, 0x00000102, 0x00000104, 0x00000404, 0x00000105, 0x00000106, 0x00000107, 0x00000008, 0x000000FF,
      0xFFFFFFFF].map (decodeTableWord 32) = List.replicate 10 none := by decide +kernel

/-- An unused bit that is set makes a word illegal wherever it stands (R94). -/
theorem test_decode_high_bits :
    decode 0x80000002#32 = .illegal .nonzeroOperand ∧ decode 0x80000004#32 = .illegal .nonzeroOperand := by decide

/-! ### STATUS words (V6.3) -/

theorem test_status_words :
    State.reset.status.toWord = 0x00000000#32 ∧ ready.status.toWord = 0x0000000A#32 ∧
    (State.raise State.reset .nNotPow2).status.toWord = 0x00000104#32 ∧
    (State.raise ready .zeroParameter).status.toWord = 0x0000050C#32 ∧
    (State.raise State.reset .algorithmUnavailable).status.toWord = 0x00001004#32 ∧ running.status.toWord = 0x00000009#32 := by
  decide

/-! ### One instruction each -/

/-- P1: `SALSA 0` on `00 01 .. 3f` (V2.3). -/
theorem test_salsa_vector :
    bytesAfter .xy 0 4 (exec (.salsa 0) ((withRegs State.reset fun x => { x with r := 1 }).writeBytes .xy 0 (upFrom 0 64)))
      = [0x04, 0x80, 0xa9, 0x5c] := by decide +kernel

/-- P1, V6.4: `SALSA 4` with R = 1 is BAD_INDEX, with R = 0 ZERO_PARAMETER. -/
theorem test_salsa_raises :
    statusAfter (exec (.salsa 4) (withRegs State.reset fun x => { x with r := 1 })) = some 0x00002304#32 ∧
    statusAfter (exec (.salsa 4) State.reset) = some 0x00000504#32 := by decide +kernel

/-- V4.1: BlockMix of `00 01 .. 7f` with r = 1 begins `6c b2 21 5a`, and its second block `ef f8 3b d7`. -/
theorem test_bmix_vector :
    let o := exec .bmix ((withRegs State.reset fun x => { x with r := 1 }).writeBytes .xy 0 (upFrom 0 128))
    bytesAfter .xy 0 4 o = [0x6c, 0xb2, 0x21, 0x5a] := by decide +kernel

/-- V6.4: BMIX with R = 3 needs 768 bytes of XY. -/
theorem test_bmix_capacity :
    statusAfter (exec .bmix { withRegs State.reset (fun x => { x with r := 3 }) with
      cfg := { Config.standard with capXy := 512 } }) = some 0x00002204#32 := by decide +kernel

/-- V6.4: the checks of ROMIX in order: N = 3 before the lane, the lane before the capacity, then CAP_V = 1024. -/
theorem test_romix_raises :
    statusAfter (exec (.romix 1) (withRegs State.reset fun x => { x with n := 3, r := 1, p := 1 })) = some 0x00000104#32 ∧
    statusAfter (exec (.romix 1) (withRegs State.reset fun x => { x with n := 16, r := 1, p := 1 })) = some 0x00002304#32 ∧
    statusAfter (exec (.romix 0) { withRegs State.reset (fun x => { x with n := 16, r := 1, p := 1 }) with
      cfg := { Config.standard with capV := 1024 } }) = some 0x00002204#32 := by decide +kernel

/-- V4.1: the Integerify word of an X region whose second block begins `60 30 b0 1e` gives slot 0 of 2, and slot 32 of 64. -/
theorem test_romix_slot :
    let s := (withRegs State.reset fun x => { x with n := 2, r := 1 }).writeBytes .xy 64 [0x60, 0x30, 0xb0, 0x1e]
    s.integerify 1 = 0x1eb03060#32 ∧ s.slotIndex 1 = 0#32 ∧
    (withRegs s fun x => { x with n := 64 }).slotIndex 1 = 32#32 := by decide +kernel

/-- V5.1: key "passwd", S = "salt", one iteration: the output begins `55 ac 04 6e`. -/
theorem test_pbkdf2_vector :
    bytesAfter .dk 0 4 (exec .pbkdf2SDk
      (({ withRegs ready (fun x => { x with olen := 4 }) with
          mac := { key := [0x70, 0x61, 0x73, 0x73, 0x77, 0x64], buf := [] } } : State).writeBytes .s 0 [0x73, 0x61, 0x6c, 0x74]))
      = [0x55, 0xac, 0x04, 0x6e] := by decide +kernel

/-- P6: no key; a key and ITER = 0; SLEN = 65; OLEN = 0 completes. -/
theorem test_pbkdf2_status :
    statusAfter (exec .pbkdf2SB State.reset) = some 0x00002104#32 ∧
    statusAfter (exec .pbkdf2SB (withRegs ready fun x => { x with iter := 0, slen := 65 })) = some 0x0000050C#32 ∧
    statusAfter (exec .pbkdf2SB (withRegs ready fun x => { x with slen := 65 })) = some 0x0000220C#32 ∧
    statusAfter (exec .pbkdf2BDk (withRegs ready fun x => { x with olen := 129 })) = some 0x0000220C#32 ∧
    statusAfter (exec .pbkdf2BDk (withRegs ready fun x => { x with olen := 0 })) = some 0x0000000A#32 := by decide +kernel

/-- P6: MACKEY takes PLEN bytes of PW. -/
theorem test_mackey_key :
    let o := exec .mackey ((withRegs State.reset fun x => { x with plen := 2 }).writeBytes .pw 0 [0x70, 0x61, 0x73])
    (after o).map (fun t => t.mac.key) = some [0x70, 0x61] ∧ statusAfter o = some 0x0000000A#32 := by decide +kernel

/-- P6, V6.4: PLEN = 65 is CAPACITY, but the missing MAC comes first. -/
theorem test_mackey_raises :
    statusAfter (exec .mackey (withRegs State.reset fun x => { x with plen := 65 })) = some 0x00002204#32 ∧
    statusAfter (exec .mackey { withRegs State.reset (fun x => { x with plen := 65 }) with
      cfg := { Config.standard with macPresent := false } }) = some 0x00001004#32 := by decide +kernel

/-- The rows of V6.1. -/
theorem test_validate_rows :
    ∀ row ∈ [((0, 1, 1), ErrCode.nNotPow2), ((1, 1, 1), .nNotPow2), ((2, 1, 1), .noError), ((3, 1, 1), .nNotPow2),
      ((6, 1, 1), .nNotPow2), ((16, 0, 1), .zeroParameter), ((16, 1, 0), .zeroParameter), ((0, 0, 0), .nNotPow2),
      ((2 ^ 23, 1, 1), .noError), ((2 ^ 24, 1, 1), .nTooLarge), ((2 ^ 23, 2, 1), .nTooLarge), ((2 ^ 31, 1, 1), .nTooLarge),
      ((2, 8388607, 1), .noError), ((2, 8388608, 1), .nTooLarge), ((2, 16777215, 1), .nTooLarge),
      ((2, 2 ^ 22, 3), .noError), ((2, 2 ^ 22, 4), .rTooLarge), ((4, 2 ^ 22, 2), .nTooLarge), ((2, 1, 16777215), .noError),
      ((2, 1, 16777216), .rTooLarge)],
    validate (2 ^ 31 - 1) row.1.1 row.1.2.1 row.1.2.2 = row.2 := by decide +kernel

/-- P6: VALID as a command. -/
theorem test_valid_status :
    statusAfter (exec .valid ready) = some 0x0000000A#32 ∧
    statusAfter (exec .valid (withRegs State.reset fun x => { x with n := 3, r := 1, p := 1 })) = some 0x00000104#32 := by
  decide +kernel

/-- P6: CLRERR keeps KEYED and sets DONE; while ERR is 1 every other word is ignored, 0x00000107 too. -/
theorem test_clrerr_status :
    statusAfter (step (cmd failed 0x00000007#32)) = some 0x0000000A#32 ∧
    statusAfter (step (cmd failed 0x00000107#32)) = some 0x0000230C#32 ∧
    statusAfter (step (cmd failed 0x00000001#32)) = some 0x0000230C#32 := by decide +kernel

/-- P6: the illegal words. -/
theorem test_illegal_status :
    [0x00000102#32, 0x00000104#32, 0x00000000#32, 0xFFFFFFFF#32].map (fun w => statusAfter (step (cmd State.reset w))) =
      List.replicate 4 (some 0x00002004#32) := by decide +kernel

/-- `withFetchWord` makes the next step run the word (R98: BMIX is the word 2; R is 0 after reset). -/
theorem test_withFetchWord :
    statusAfter (step (State.reset.withFetchWord 32 2)) = some 0x00000504#32 ∧
    (after (step (State.reset.withFetchWord 32 2))).map (fun t => t.port) = some [] := by decide +kernel

/-- R41: VALID taken position by position: CHECK, EXEC, and the command's STATUS word (V6.3); BUSY is 1 before. -/
theorem test_sequencer_moves :
    (after (State.cmdStart ready 0x00000006#32)).map (fun u => (u.status.busy, u.pos, (u.ticks 1).pos)) =
      some (true, .running .valid .check, .running .valid .exec) ∧
    (after (State.cmdStart ready 0x00000006#32)).map (fun u => (u.ticks 2).status.toWord) = some 0x0000000A#32 := by
  decide +kernel

/-! ### Witnesses: a state that meets the hypotheses of each statement -/

/-- A command of `ready` completes when its checks pass. -/
theorem completes {i : Instr} (hi : i ≠ .clrerr) (h : checks i ready = none) : ∃ t, exec i ready = .next t :=
  ⟨_, (exec_eq_runCommand hi ready).trans (runCommand_completes rfl h)⟩

theorem witness_EncodeOfDecode : ∃ w i, decode w = .instr i := ⟨0xFFFFFF01#32, .salsa 16777215, by decide⟩

theorem witness_IllegalWords :
    decode 0x00000404#32 = .illegal .nonzeroOperand ∧ (cmd ready 0x00000404#32).port = [.regWrite 0x00 0x00000404#32] ∧
    (cmd ready 0x00000404#32).status.busy = false ∧ (cmd ready 0x00000404#32).status.err = false ∧
    (cmd ready 0x00000404#32).pos = .idle := by decide

theorem witness_StepRuns :
    (cmd failed 0x00000F03#32).port = [.regWrite 0x00 0x00000F03#32] ∧ (cmd failed 0x00000F03#32).status.busy = false ∧
    decode 0x00000F03#32 = .instr (.romix 15) ∧ decodeTableWord 32 0xFFFFFF03 = some (.romix 16777215) := by decide

theorem ready_inv (port : List HostAccess) : ({ ready with port := port } : State).Inv :=
  ⟨⟨rfl, rfl, rfl⟩, ⟨by simp [ready], by simp [ready]⟩, rfl, rfl, fun _ => Nat.le_of_ble_eq_true rfl,
    fun h => absurd h (by simp [ready, State.reset, Config.standard])⟩

theorem failed_inv (port : List HostAccess) : ({ failed with port := port } : State).Inv :=
  ⟨⟨rfl, rfl, rfl⟩, ⟨by simp [failed], by simp [failed]⟩, rfl, rfl, fun _ => Nat.le_of_ble_eq_true rfl,
    fun h => absurd h (by simp [failed, ready, State.reset, Config.standard])⟩

theorem unkeyed_inv (port : List HostAccess) : ({ unkeyed with port := port } : State).Inv :=
  ⟨⟨rfl, rfl, rfl⟩, ⟨by simp [unkeyed], by simp [unkeyed]⟩, rfl, rfl, fun _ => Nat.le_of_ble_eq_true rfl, fun _ => rfl⟩

/-- Ignored, cleared by CLRERR, cleared by reset, raised. -/
theorem witness_ErrIsSticky :
    (failed.status.err = true ∧ failed.status.busy = false ∧ (0x00000107#32 : Word) ≠ 0x00000007#32) ∧
    ((cmd failed 0x00000007#32).Inv ∧ ∃ t, step (cmd failed 0x00000007#32) = .next t ∧ t.status.err = false) ∧
    (({ failed with port := [.reset] } : State).Inv ∧
      ∃ t, step { failed with port := [.reset] } = .next t ∧ t.status.err = false) ∧
    ((cmd unkeyed 0x00000004#32).Inv ∧ (cmd unkeyed 0x00000004#32).status.err = false ∧
      ∃ t, step (cmd unkeyed 0x00000004#32) = .next t ∧ t.status.err = true) :=
  ⟨by decide, ⟨failed_inv _, _, rfl, rfl⟩, ⟨failed_inv _, _, rfl, rfl⟩, ⟨unkeyed_inv _, rfl, _, rfl, rfl⟩⟩

theorem witness_Done :
    (ready.status.err = false ∧ ∃ t, exec .valid ready = .next t) ∧
    (failed.status.err = true ∧ ∃ t, exec .clrerr failed = .next t) ∧
    (failed.status.err = true ∧ (0x00000107#32 : Word) ≠ 0x00000007#32) ∧
    (∃ t, ready.cmdStart 0x00000006#32 = .next t) ∧
    ((cmd unkeyed 0x00000004#32).Inv ∧ ∃ t, step (cmd unkeyed 0x00000004#32) = .next t ∧ t.status.done ≠ unkeyed.status.done) :=
  ⟨⟨rfl, completes (by decide) (by decide +kernel)⟩, ⟨rfl, _, rfl⟩, by decide, ⟨_, rfl⟩,
    ⟨unkeyed_inv _, _, rfl, by decide⟩⟩

theorem witness_LittleEndian : (0 : Nat) < 4 ∧ (3 : Nat) < 4 := by decide

theorem witness_PowerOfTwo :
    isPow2 1 = true ∧ isPow2 (2 ^ 31) = true ∧ isPow2 3 = false ∧ isPow2 0 = false ∧ 1 &&& (1 - 1) = 0 := by decide +kernel

/-- The last block, `k = 4·R − 1`, and an XY that is filled exactly: `256·R = CAP_XY`. -/
theorem witness_Salsa :
    let s := withRegs ready fun x => { x with r := 4 }
    s.status.err = false ∧ s.pR ≠ 0 ∧ 15 < 4 * s.pR ∧ 256 * s.pR = s.cfg.capXy := by decide

/-- R = 0; `k = 4·R`; one byte of XY too few. -/
theorem witness_SalsaRaises :
    (withRegs ready fun x => { x with r := 0 }).pR = 0 ∧ (ready.pR ≠ 0 ∧ 4 * ready.pR ≤ 4) ∧
    (let s := { ready with cfg := { Config.standard with capXy := 255 } }
     s.pR ≠ 0 ∧ 3 < 4 * s.pR ∧ s.cfg.capXy < 256 * s.pR ∧ s.status.err = false) := by decide

theorem witness_Bmix :
    (let s := withRegs ready fun x => { x with r := 4 }
     s.status.err = false ∧ s.pR ≠ 0 ∧ 256 * s.pR = s.cfg.capXy) ∧ 1 < 2 * 1 ∧ 0 < 2 * 1 := by decide

theorem witness_BmixRaises :
    (withRegs ready fun x => { x with r := 0 }).pR = 0 ∧
    (let s := withRegs ready fun x => { x with r := 5 }
     s.status.err = false ∧ s.pR ≠ 0 ∧ s.cfg.capXy < 256 * s.pR) := by decide

/-- The last lane. -/
theorem witness_Romix :
    ready.status.err = false ∧ validate ready.cfg.max ready.pN ready.pR ready.pP = .noError ∧ 1 < ready.pP ∧
    slotLen ready.pR * ready.pP ≤ ready.cfg.capB ∧ slotLen ready.pR * ready.pN ≤ ready.cfg.capV ∧
    2 * slotLen ready.pR ≤ ready.cfg.capXy := by decide +kernel

theorem witness_RomixLeaves : ∃ t, exec (.romix 1) ready = .next t := completes (by decide) (by decide +kernel)

/-- The first lane that does not exist; each of the three spaces one byte too small; a code of the validator. -/
theorem witness_RomixRaises :
    2 = ready.pP ∧
    (let s := { ready with cfg := { Config.standard with capB := 255 } }
     validate s.cfg.max s.pN s.pR s.pP = .noError ∧ 0 < s.pP ∧ s.cfg.capB < slotLen s.pR * s.pP) ∧
    (let s := { ready with cfg := { Config.standard with capV := 255 } }
     validate s.cfg.max s.pN s.pR s.pP = .noError ∧ 0 < s.pP ∧ s.cfg.capV < slotLen s.pR * s.pN) ∧
    (let s := { ready with cfg := { Config.standard with capXy := 255 } }
     validate s.cfg.max s.pN s.pR s.pP = .noError ∧ 0 < s.pP ∧ s.cfg.capXy < 2 * slotLen s.pR) ∧
    (let s := withRegs ready fun x => { x with p := 0 }
     validate s.cfg.max s.pN s.pR s.pP = .zeroParameter) := by decide +kernel

theorem witness_SlotIndex : isPow2 ready.pN = true ∧
    isPow2 (withRegs ready fun x => { x with n := 0x80000000 }).pN = true ∧
    validate (2 ^ 31 - 1) (2 ^ 23) 1 1 = .noError := by
  decide +kernel

/-- Two states with the same lane input (nothing written in either), and both lanes pass the checks. -/
theorem witness_Lanes :
    checkRomix 0 ready = none ∧ checkRomix 1 ready = none ∧ ready.status.err = false ∧
    (∃ t, exec (.romix 0) ready = .next t) ∧ (0 : Nat) ≠ 1 ∧ [1, 0].Perm (List.range ready.pP) :=
  ⟨by decide +kernel, by decide +kernel, rfl, completes (by decide) (by decide +kernel), by decide, by decide +kernel⟩

/-- SLEN and OLEN at their capacities. -/
theorem witness_Pbkdf2 :
    let s := withRegs ready fun x => { x with slen := 64, olen := 128 }
    s.status.err = false ∧ s.status.keyed = true ∧ s.mac.buf = [] ∧ s.pIter ≠ 0 ∧ s.pSlen = s.cfg.cap .s ∧
    s.pSlen ≤ s.cfg.cap .b ∧ s.pOlen = s.cfg.cap .dk ∧ s.pOlen ≤ s.cfg.cap .b := by decide

theorem witness_Pbkdf2Raises :
    (0x00000104#32 : Word).toNat % 2 ^ 8 = 0x04 ∧ (0x00000104#32 : Word).toNat / 2 ^ 8 = 1 ∧
    (0x00000404#32 : Word).toNat / 2 ^ 10 ≠ 0 ∧ State.reset.status.keyed = false ∧
    (let s := withRegs ready fun x => { x with iter := 0 }
     s.status.keyed = true ∧ s.pIter = 0) ∧
    (let s := withRegs ready fun x => { x with slen := 4097, olen := 4097 }
     s.status.keyed = true ∧ s.pIter ≠ 0 ∧ s.cfg.cap .s < s.pSlen ∧ s.cfg.cap .b < s.pOlen ∧ s.cfg.cap .b < s.pSlen ∧
     s.cfg.cap .dk < s.pOlen) := by decide

theorem witness_Pbkdf2Single :
    ready.pIter = 1 ∧ ready.mac.buf = [] ∧ (∃ t, exec .pbkdf2SB ready = .next t) ∧
    (∃ t, exec .pbkdf2SDk ready = .next t) ∧ (∃ t, exec .pbkdf2BDk ready = .next t) :=
  ⟨rfl, rfl, completes (by decide) (by decide +kernel), completes (by decide) (by decide +kernel), completes (by decide) (by decide +kernel)⟩

theorem witness_Pbkdf2LengthZero :
    let s := withRegs ready fun x => { x with olen := 0 }
    s.status.err = false ∧ s.status.keyed = true ∧ s.pIter ≠ 0 ∧ s.pOlen = 0 ∧ s.pSlen ≤ s.cfg.cap .s ∧
    s.pSlen ≤ s.cfg.cap .b := by decide

theorem witness_Mackey :
    let s := withRegs ready fun x => { x with plen := 64 }
    s.status.err = false ∧ s.cfg.macPresent = true ∧ s.pPlen = s.cfg.capPw := by decide

theorem witness_MackeyRaises :
    ({ ready with cfg := { Config.standard with macPresent := false } } : State).cfg.macPresent = false ∧
    (let s := withRegs ready fun x => { x with plen := 65 }
     s.cfg.macPresent = true ∧ s.cfg.capPw < s.pPlen ∧ s.status.err = false) := by decide

/-- The greatest legal values of V6.1: `N = 2^23`, and `r = 8388607` with N = 2. -/
theorem witness_Valid :
    (let s := withRegs ready fun x => { x with n := 8388608, r := 1, p := 1 }
     s.status.err = false ∧ 2 ≤ s.pN ∧ s.pN = 2 ^ 23 ∧ s.pR ≠ 0 ∧ s.pP ≠ 0 ∧ 128 * s.pR * s.pN ≤ s.cfg.max ∧
     128 * s.pR * s.pP ≤ s.cfg.max) ∧
    (let s := withRegs ready fun x => { x with n := 2, r := 8388607, p := 1 }
     128 * s.pR * s.pN ≤ s.cfg.max ∧ 128 * s.pR * s.pP ≤ s.cfg.max) := by decide +kernel

/-- One state for each code, at the boundaries of V6.1. -/
theorem witness_ValidRaises :
    (withRegs ready fun x => { x with n := 1 }).pN < 2 ∧
    (let s := withRegs ready fun x => { x with r := 0 }
     2 ≤ s.pN ∧ s.pN = 2 ^ 1 ∧ s.pR = 0) ∧
    (let s := withRegs ready fun x => { x with n := 2, r := 8388608, p := 1 }
     s.pN = 2 ^ 1 ∧ s.pR ≠ 0 ∧ s.pP ≠ 0 ∧ s.cfg.max < 128 * s.pR * s.pN) ∧
    (let s := withRegs ready fun x => { x with n := 2, r := 1, p := 16777216 }
     s.pN = 2 ^ 1 ∧ s.pR ≠ 0 ∧ s.pP ≠ 0 ∧ 128 * s.pR * s.pN ≤ s.cfg.max ∧ s.cfg.max < 128 * s.pR * s.pP) := by
  decide +kernel

/-- A command that raises, and one whose checks pass. -/
theorem witness_ErrorsArePrecise :
    (State.reset.status.err = false ∧ ∃ t, exec .valid State.reset = .next t ∧ t.status.err = true) ∧
    ready.status.err = false ∧ checks (.romix 1) ready = none :=
  ⟨⟨rfl, State.reset.raise .nNotPow2,
    (exec_eq_runCommand (by decide) State.reset).trans (runCommand_raises rfl (by decide +kernel)), rfl⟩, rfl,
    by decide +kernel⟩

/-- `N·128·r` one above MAX. -/
theorem witness_Rejection : (1 : Nat) ≠ 0 ∧ 2 ≤ 2 ^ 24 ∧ isPow2 (2 ^ 24) = true ∧ 2 ^ 31 - 1 < 128 * 1 * 2 ^ 24 := by
  decide +kernel

theorem witness_Keyed :
    ((cmd unkeyed 0x00000005#32).Inv ∧ (cmd unkeyed 0x00000005#32).status.keyed = false ∧
      ∃ t, step (cmd unkeyed 0x00000005#32) = .next t ∧ t.status.keyed = true) ∧
    (({ ready with port := [.reset] } : State).Inv ∧ ready.status.keyed = true ∧
      ∃ t, step { ready with port := [.reset] } = .next t ∧ t.status.keyed = false) ∧
    (State.reset.status.err = false ∧ State.reset.status.keyed = false) ∧
    (unkeyed.status.err = false ∧ ∃ t, exec .mackey unkeyed = .next t ∧ t.status.err = false) :=
  ⟨⟨unkeyed_inv _, rfl, _, rfl, rfl⟩, ⟨ready_inv _, rfl, _, rfl, rfl⟩, ⟨rfl, rfl⟩, rfl, _, rfl, rfl⟩

/-- MACKEY loads the bytes of PW; the reset input empties the key of the model. -/
theorem witness_MacKey :
    ((cmd ready 0x00000005#32).Inv ∧
      ∃ t, step (cmd ready 0x00000005#32) = .next t ∧ t.mac.buf = [] ∧ t.mac.key = ready.readBytes .pw 0 3) ∧
    (({ ready with port := [.reset] } : State).Inv ∧
      ∃ t, step { ready with port := [.reset] } = .next t ∧ t.mac.key ≠ ready.mac.key) :=
  ⟨⟨ready_inv _, _, rfl, rfl, rfl⟩, ready_inv _, _, rfl, by decide⟩

theorem witness_NoCommandWrites : ∃ t, exec (.romix 1) ready = .next t := completes (by decide) (by decide +kernel)

theorem witness_Configuration : ∃ t, step (cmd ready 0x00000007#32) = .next t := ⟨_, rfl⟩

theorem witness_ParameterRegisters :
    ({ ready with port := [.regWrite 0x20 5] } : State).status.busy = false ∧
    ({ ready with port := [.regWrite 0x20 5] } : State).port = [.regWrite 0x20 5] ∧ (0x04 : Nat) ≠ 0x20 := by decide

theorem witness_HostReads : ready.status.busy = false ∧ running.status.busy = true ∧
    ({ ready with port := [.regRead 0x00] } : State).port = [.regRead 0x00] := by decide

/-- The first offset above the block, the first that is not aligned, and a 16-bit access to N. -/
theorem witness_UndefinedAccess : 0x24 ≤ 0x24 ∧ 0x01 % 4 ≠ 0 ∧ regAt 0x24 = none ∧ regAt 0x01 = none ∧
    regAt 0x20 = some .iter ∧
    ({ ready with port := [.regRead 0x24] } : State).port = [.regRead 0x24] ∧
    ({ ready with port := [.regWrite 0x01 0] } : State).port = [.regWrite 0x01 0] ∧
    ({ ready with port := [.regSized 0x08 16] } : State).port = [.regSized 0x08 16] := by decide

/-- The last byte of PW, and the first offset PW does not have. -/
theorem witness_BufferBytes : ready.status.busy = false ∧ 63 < ready.cfg.cap .pw ∧ ready.cfg.cap .pw ≤ 64 := by decide

theorem witness_Reset :
    ∃ t, step { running with port := [.reset] } = .next t ∧ ({ running with port := [.reset] } : State).port = [.reset] :=
  ⟨_, rfl, rfl⟩

theorem witness_Invariant : (cmd ready 0x00000007#32).Inv ∧ ∃ t, step (cmd ready 0x00000007#32) = .next t :=
  ⟨ready_inv _, _, rfl⟩

theorem witness_Stops :
    ({ ready with port := [.regRead 0x24] } : State).Inv ∧ ¬ ∃ t, step { ready with port := [.regRead 0x24] } = .next t :=
  ⟨ready_inv _, fun ⟨_, h⟩ => by cases h⟩

theorem witness_Sequencer : ready.status.busy = false ∧ ready.pos = .idle := by decide

/-- `N = 2, r = 1, p = 2, dkLen = 128` on the standard instance. -/
theorem witness_Derive :
    State.reset.status.err = false ∧ State.reset.status.busy = false ∧ State.reset.cfg.macPresent = true ∧
    validate State.reset.cfg.max (2#32).toNat (1#32).toNat (2#32).toNat = .noError ∧
    deriveFits [0x70] [0x73] (1#32).toNat (2#32).toNat = true ∧ 1 ≤ State.reset.cfg.capPw ∧ 1 ≤ State.reset.cfg.capS ∧
    128 * (1#32).toNat * (2#32).toNat ≤ State.reset.cfg.capB ∧ 128 * (1#32).toNat * (2#32).toNat ≤ State.reset.cfg.capV ∧
    256 * (1#32).toNat ≤ State.reset.cfg.capXy ∧ (128#32).toNat ≤ State.reset.cfg.capDk := by decide +kernel

/-- The error code DERIVE reports, or `none` for another end. -/
def endCode (e : HostEnd) : Option Byte :=
  match e with
  | .error code _ => some code
  | .finished _ _ => none
  | .notReady => none
  | .doesNotFit _ => none
  | .fault _ => none
  | .refused _ => none

/-- R200: with `128·r·p = 2^32` (MAX = 2^40) the value that does not fit OLEN is met at line 5, after MACKEY of line 4 has
reported that there is no MAC. -/
theorem test_derive_order :
    endCode (derive [] [] 2 0x2000000 1 0 { State.reset with
      cfg := { Config.standard with max := 2 ^ 40, macPresent := false } }) = some 0x10#8 ∧
    endCode (derive [] [] 2 0x2000000 1 0 { State.reset with cfg := { Config.standard with max := 2 ^ 40 } }) = none := by
  decide +kernel

/-- One instance for each clause: no MAC; B, V, XY and DK one byte too small. -/
theorem witness_DeriveReportsTheFailingCommand :
    validate Config.standard.max (2#32).toNat (1#32).toNat (2#32).toNat = .noError ∧ State.reset.status.err = false ∧
    State.reset.status.busy = false ∧ ([0x70] : List Byte).length ≤ Config.standard.capPw ∧
    { Config.standard with macPresent := false }.macPresent = false ∧ Config.standard.macPresent = true ∧
    { Config.standard with capB := 255 }.capB < 128 * (1#32).toNat * (2#32).toNat ∧
    128 * (1#32).toNat * (2#32).toNat ≤ Config.standard.capB ∧
    { Config.standard with capV := 255 }.capV < 128 * (1#32).toNat * (2#32).toNat ∧
    { Config.standard with capXy := 255 }.capXy < 256 * (1#32).toNat ∧
    256 * (1#32).toNat ≤ Config.standard.capXy ∧ (2#32).toNat ≤ 2 ^ 24 ∧ Config.standard.capDk < (129#32).toNat := by
  decide +kernel

theorem witness_DeriveReports :
    validate State.reset.cfg.max (3#32).toNat (1#32).toNat (1#32).toNat = .nNotPow2 ∧ ErrCode.nNotPow2 ≠ .noError ∧
    State.reset.status.err = false ∧ State.reset.status.busy = false := by decide +kernel

end Sys2Proof.Tests
end

section
/-! PROOF. The primitives of `spec/00_scope.md`: byte orders (R14), the test for a power of two (R18), and the validator
(R193) read through them. -/

namespace Sys2Proof.Machine

/-! ### Bytes and words (R14, R70) -/

/-- The sum of R14 does not wrap: four bytes fill a word. -/
theorem le32_toNat (b0 b1 b2 b3 : Byte) :
    (le32 b0 b1 b2 b3).toNat = b0.toNat + 2 ^ 8 * b1.toNat + 2 ^ 16 * b2.toNat + 2 ^ 24 * b3.toNat := by
  rw [le32, BitVec.toNat_ofNat]
  exact Nat.mod_eq_of_lt (by omega)

theorem byteOf_toNat (w : Word) (k : Nat) : (byteOf w k).toNat = w.toNat / 2 ^ (8 * k) % 2 ^ 8 := by
  rw [byteOf, BitVec.extractLsb'_toNat, Nat.shiftRight_eq_div_pow]

theorem le32_byteOf (w : Word) : le32 (byteOf w 0) (byteOf w 1) (byteOf w 2) (byteOf w 3) = w := by
  apply BitVec.eq_of_toNat_eq
  rw [le32_toNat]
  simp only [byteOf_toNat]
  omega

/-- The other direction, for a word's four bytes as a family, so that one lemma serves every byte of a block. -/
theorem byteOf_le32 (f : Fin 4 → Byte) (k : Fin 4) : byteOf (le32 (f 0) (f 1) (f 2) (f 3)) k.val = f k := by
  apply BitVec.eq_of_toNat_eq
  rw [byteOf_toNat, le32_toNat]
  fin_cases k <;> simp <;> omega

theorem blockWords_getElem (b : Block) (i : Nat) (h : i < 16) :
    (blockWords b)[i] = le32 b[4 * i] b[4 * i + 1] b[4 * i + 2] b[4 * i + 3] := by
  rw [blockWords, Vector.getElem_ofFn]

theorem wordsBlock_getElem (x : Vector Word 16) (k : Nat) (h : k < 64) :
    (wordsBlock x)[k] = byteOf x[k / 4] (k % 4) := by
  rw [wordsBlock, Vector.getElem_ofFn]

theorem wordsBlock_blockWords (b : Block) : wordsBlock (blockWords b) = b := by
  apply Vector.ext
  intro k hk
  have hbyte := byteOf_le32 (fun j => b[4 * (k / 4) + j.val]) ⟨k % 4, Nat.mod_lt _ (by decide)⟩
  rw [wordsBlock_getElem, blockWords_getElem]
  refine hbyte.trans ?_
  simp only [Nat.div_add_mod]

/-- Byte `j` of word `i` stands at `4·i + j` of the block. -/
theorem wordsBlock_getElem_word (x : Vector Word 16) {i j k : Nat} (hi : i < 16) (hj : j < 4) (hk : k = 4 * i + j) :
    (wordsBlock x)[k] = byteOf x[i] j := by
  have hdiv : k / 4 = i := by omega
  have hmod : k % 4 = j := by omega
  simp only [wordsBlock_getElem, hdiv, hmod]

theorem blockWords_wordsBlock (x : Vector Word 16) : blockWords (wordsBlock x) = x := by
  apply Vector.ext
  intro i hi
  have hbyte {j k : Nat} (hj : j < 4) (hk : k = 4 * i + j) := wordsBlock_getElem_word x hi hj hk
  rw [blockWords_getElem, hbyte (j := 0) (by decide) (by omega), hbyte (j := 1) (by decide) rfl,
    hbyte (j := 2) (by decide) rfl, hbyte (j := 3) (by decide) rfl, le32_byteOf]

/-- Settles O9: the sum of R14 fits a word, and bytes and words are inverse, so blocks and their words are too. -/
theorem littleEndianWords : Obligations.LittleEndianWords :=
  ⟨le32_toNat, fun w k _ => byteOf_toNat w k, le32_byteOf, wordsBlock_blockWords, blockWords_wordsBlock⟩

/-! ### Powers of two (R18) -/

theorem isPow2_iff (n : Nat) : isPow2 n = true ↔ n ≠ 0 ∧ n &&& (n - 1) = 0 := by
  rw [isPow2, Bool.and_eq_true, decide_eq_true_eq, decide_eq_true_eq]

/-- `n AND (n − 1)` of `n = 2^k` is `n mod n`. -/
theorem isPow2_two_pow (k : Nat) : isPow2 (2 ^ k) = true := by
  rw [isPow2_iff, Nat.and_two_pow_sub_one_eq_mod, Nat.mod_self]
  exact ⟨Nat.two_pow_pos k |>.ne', rfl⟩

theorem isPow2_iff_exists (n : Nat) : isPow2 n = true ↔ ∃ k, n = 2 ^ k := by
  constructor
  · exact exists_of_isPow2
  · rintro ⟨k, rfl⟩
    exact isPow2_two_pow k

/-! ### The validator (R193) -/

/-- The test on `N` is the first row of the validator and the only one with this code. -/
theorem validate_eq_nNotPow2_iff (max n r p : Nat) :
    validate max n r p = .nNotPow2 ↔ ¬ (2 ≤ n ∧ isPow2 n = true) := by
  rw [← firstFailure_validateRows_eq_some (by decide), validateRows, firstFailure_cons]
  split
  next hfails => simpa [imp_iff_not_or, Nat.not_le] using hfails
  next hpasses =>
    have hn : 2 ≤ n ∧ isPow2 n = true := by simpa [Nat.succ_le_iff] using hpasses
    refine iff_of_false (fun hcode => ?_) (not_not_intro hn)
    have hrow := firstFailure_mem hcode
    simp at hrow

/-- Settles O10: powers of two by the bit test, and the validator's first row. -/
theorem powerOfTwoTest : Obligations.PowerOfTwoTest := by
  refine ⟨isPow2_iff_exists, fun n hn => ?_, validate_eq_nNotPow2_iff⟩
  rw [isPow2_iff, and_iff_right (Nat.one_le_iff_ne_zero.mp hn)]

/-- R17: a bound on a product is a bound by the floor quotient. -/
theorem le_quotient_iff {r : Nat} (hr : r ≠ 0) (m max : Nat) : m ≤ max / (128 * r) ↔ 128 * r * m ≤ max := by
  rw [Nat.le_div_iff_mul_le (by omega), Nat.mul_comm]

/-- Settles O32: each product of R193 is a quotient bound, for `r` and `p` not zero. -/
theorem validatorMatchesTheQuotients : Obligations.ValidatorMatchesTheQuotients := by
  intro max n r p
  rw [validate_eq_noError_iff, isPow2_iff_exists]
  refine and_congr_right fun _ => and_congr_right fun _ => and_congr_right fun hr => and_congr_right fun hp => ?_
  rw [le_quotient_iff hr, le_quotient_iff hp, Nat.mul_right_comm 128 p r]

end Sys2Proof.Machine
end

section
/-! PROOF. The command words read backwards: a legal word is the encoding of the instruction it decodes to
(`spec/30_encoding.md` R91 to R94, R98), so MACKEY and CLRERR have one word each. -/

namespace Sys2Proof.Machine

/-- A word is its two fields (R91). -/
theorem toNat_eq_fields (w : Word) : w.toNat = (opField w).toNat + 2 ^ 8 * (argField w).toNat := by
  rw [opField, argField, BitVec.extractLsb'_toNat, BitVec.extractLsb'_toNat, Nat.shiftRight_zero,
    Nat.shiftRight_eq_div_pow]
  omega

theorem argField_eq_of_noOperand {arg : BitVec 24} {i j : Instr} (h : noOperand arg i = .instr j) :
    arg = 0#24 ∧ j = i := by
  rw [noOperand] at h
  split at h
  next harg => exact ⟨harg, (Decoded.instr.inj h).symm⟩
  next => cases h

/-- The operand of PBKDF2 has its value in the two low bits (R93). -/
theorem toNat_of_pbkdf2Operand {arg : BitVec 24} {i : Instr} (h : pbkdf2Operand arg = .instr i) :
    i.op = 0x04 ∧ arg.toNat = i.arg := by
  rw [pbkdf2Operand] at h
  split at h
  next => cases h
  next hhigh =>
    have hsmall : arg.toNat / 2 ^ 2 % 2 ^ 22 = 0 := by
      have hzero := congrArg BitVec.toNat (not_not.mp hhigh)
      rwa [BitVec.extractLsb'_toNat, Nat.shiftRight_eq_div_pow] at hzero
    have hvalue : arg.toNat = (arg.getLsbD 0).toNat + 2 * (arg.getLsbD 1).toNat := by
      have hlt := arg.isLt
      simp only [BitVec.getLsbD, Nat.toNat_testBit]
      omega
    split at h <;> cases h
    all_goals
      rename_i hsrc hdst
      exact ⟨rfl, by rw [hvalue, hsrc, hdst]; rfl⟩

/-- The two fields of a legal word are those of its instruction. -/
theorem fields_of_decode {w : Word} {i : Instr} (h : decode w = .instr i) :
    (opField w).toNat = i.op ∧ (argField w).toNat = i.arg := by
  simp only [decode] at h
  split_ifs at h with h1 h2 h3 h4 h5 h6 h7
  · cases h; exact ⟨by rw [h1]; rfl, rfl⟩
  · obtain ⟨harg, rfl⟩ := argField_eq_of_noOperand h; rw [h2, harg]; exact ⟨rfl, rfl⟩
  · cases h; exact ⟨by rw [h3]; rfl, rfl⟩
  · obtain ⟨hop, harg⟩ := toNat_of_pbkdf2Operand h; exact ⟨by rw [h4, hop]; rfl, harg⟩
  · obtain ⟨harg, rfl⟩ := argField_eq_of_noOperand h; rw [h5, harg]; exact ⟨rfl, rfl⟩
  · obtain ⟨harg, rfl⟩ := argField_eq_of_noOperand h; rw [h6, harg]; exact ⟨rfl, rfl⟩
  · obtain ⟨harg, rfl⟩ := argField_eq_of_noOperand h; rw [h7, harg]; exact ⟨rfl, rfl⟩

/-- A legal word is the encoding of its instruction. -/
theorem encode_of_decode {w : Word} {i : Instr} (h : decode w = .instr i) : encode i = w := by
  obtain ⟨hop, harg⟩ := fields_of_decode h
  apply BitVec.eq_of_toNat_eq
  rw [encode, ← hop, ← harg, ← toNat_eq_fields, BitVec.ofNat_toNat, BitVec.setWidth_eq]

/-- CLRERR has one word. -/
theorem decode_eq_clrerr_iff (w : Word) : decode w = .instr .clrerr ↔ w = 0x00000007#32 := by
  constructor
  · exact fun h => (encode_of_decode h).symm
  · rintro rfl; rfl

/-- MACKEY has one word. -/
theorem eq_word_of_decode_mackey {w : Word} (h : decode w = .instr .mackey) : w = 0x00000005#32 :=
  (encode_of_decode h).symm

end Sys2Proof.Machine
end

section
/-! PROOF. The host interface (`spec/10_state.md` R24, R29, R37, R38, `spec/20_memory.md` R60, R68): the offsets of the
registers, what an access does when it is answered, and everything one step of the machine can do. -/

namespace Sys2Proof.Machine

/-! ### The registers and their offsets (R24) -/

/-- The offset of a register. -/
def HostReg.offset : HostReg → Nat
  | .cmd => 0x00
  | .status => 0x04
  | .n => 0x08
  | .r => 0x0C
  | .p => 0x10
  | .plen => 0x14
  | .slen => 0x18
  | .olen => 0x1C
  | .iter => 0x20

@[simp] theorem regAt_offset (reg : HostReg) : regAt reg.offset = some reg := by cases reg <;> rfl

theorem offset_of_regAt {off : Nat} {reg : HostReg} (h : regAt off = some reg) : off = reg.offset := by
  simp only [regAt] at h
  split_ifs at h <;> cases h <;> assumption

/-- R38: above the block and between its words there is no register. -/
theorem regAt_eq_none {off : Nat} (h : 0x24 ≤ off ∨ off % 4 ≠ 0) : regAt off = none := by
  cases hreg : regAt off with
  | none => rfl
  | some reg =>
    have hoff := offset_of_regAt hreg
    cases reg <;> simp only [HostReg.offset] at hoff <;> omega

/-- The read-write registers are those but CMD and STATUS. -/
def HostReg.readWrite (reg : HostReg) : Prop := reg ≠ .cmd ∧ reg ≠ .status

theorem exists_offset {off : Nat} (h : off ∈ [0x00, 0x04, 0x08, 0x0C, 0x10, 0x14, 0x18, 0x1C, 0x20]) :
    ∃ reg : HostReg, off = reg.offset := by
  fin_cases h
  exacts [⟨.cmd, rfl⟩, ⟨.status, rfl⟩, ⟨.n, rfl⟩, ⟨.r, rfl⟩, ⟨.p, rfl⟩, ⟨.plen, rfl⟩, ⟨.slen, rfl⟩, ⟨.olen, rfl⟩,
    ⟨.iter, rfl⟩]

theorem exists_readWrite_offset {off : Nat} (h : off ∈ [0x08, 0x0C, 0x10, 0x14, 0x18, 0x1C, 0x20]) :
    ∃ reg : HostReg, reg.readWrite ∧ off = reg.offset := by
  obtain ⟨reg, rfl⟩ := exists_offset (List.mem_cons_of_mem _ (List.mem_cons_of_mem _ h))
  refine ⟨reg, ⟨?_, ?_⟩, rfl⟩ <;> rintro rfl <;> revert h <;> decide

/-- A read after a write (R24, R37). -/
theorem readReg_writeReg (s : State) {reg : HostReg} (hreg : reg.readWrite) (reg' : HostReg) (v : Word) :
    (s.writeReg reg v).readReg reg' = if reg' = reg then v else s.readReg reg' := by
  obtain ⟨hcmd, hstatus⟩ := hreg
  cases reg with
  | cmd => contradiction
  | status => contradiction
  | _ => cases reg' <;> rfl

/-- A register write changes `regs` at most. -/
theorem writeReg_eq (s : State) (reg : HostReg) (v : Word) :
    s.writeReg reg v = { s with regs := (s.writeReg reg v).regs } := by cases reg <;> rfl

@[simp] theorem writeReg_busy (s : State) (reg : HostReg) (v : Word) :
    (s.writeReg reg v).status.busy = s.status.busy := by rw [writeReg_eq]

/-! ### Accesses that are answered -/

theorem whenIdle_of_idle {s : State} (h : s.status.busy = false) (o : Host.Outcome State Fault Refusal) :
    whenIdle s o = o := by rw [whenIdle, if_neg (by simp [h])]

theorem whenIdle_of_busy {s : State} (h : s.status.busy = true) (o : Host.Outcome State Fault Refusal) :
    whenIdle s o = .refused .hostAccessWhileBusy := by rw [whenIdle, if_pos h]

theorem whenIdle_next {s t : State} {o : Host.Outcome State Fault Refusal} (h : whenIdle s o = .next t) :
    s.status.busy = false ∧ o = .next t := by
  cases hbusy : s.status.busy with
  | false => exact ⟨rfl, by rwa [whenIdle_of_idle hbusy] at h⟩
  | true => rw [whenIdle_of_busy hbusy] at h; cases h

theorem whenInside_next {s t : State} {sp : Space} {off : Nat} {o : Host.Outcome State Fault Refusal}
    (h : whenInside s sp off o = .next t) : off < s.cfg.cap sp ∧ o = .next t := by
  rw [whenInside] at h
  split at h
  next hin => exact ⟨hin, h⟩
  next => cases h

/-- STATUS may be read at any time (R37). -/
theorem hostRegRead_status (s : State) : hostRegRead 0x04 s = .next (s.answer (.word s.status.toWord)) := rfl

theorem hostRegRead_offset {s : State} (h : s.status.busy = false) (reg : HostReg) :
    hostRegRead reg.offset s = .next (s.answer (.word (s.readReg reg))) := by
  cases reg with
  | status => rfl
  | _ => exact whenIdle_of_idle h _

theorem hostRegWrite_offset {s : State} (h : s.status.busy = false) {reg : HostReg} (hreg : reg ≠ .cmd) (v : Word)
    (cmd : State → Word → Host.Outcome State Fault Refusal) :
    hostRegWrite cmd reg.offset v s = .next (s.writeReg reg v) := by
  cases reg with
  | cmd => contradiction
  | _ => exact whenIdle_of_idle h _

theorem hostRegWrite_cmd {s : State} (h : s.status.busy = false) (v : Word)
    (cmd : State → Word → Host.Outcome State Fault Refusal) : hostRegWrite cmd 0x00 v s = cmd s v :=
  whenIdle_of_idle h _

/-! ### Accesses that are refused -/

theorem hostRegRead_undefined {off : Nat} (h : regAt off = none) (s : State) :
    hostRegRead off s = .refused (.registerOffsetNotDefined off) := by rw [hostRegRead, h]

theorem hostRegWrite_undefined {off : Nat} (h : regAt off = none) (v : Word) (s : State)
    (cmd : State → Word → Host.Outcome State Fault Refusal) :
    hostRegWrite cmd off v s = .refused (.registerOffsetNotDefined off) := by rw [hostRegWrite, h]

theorem hostRegRead_busy {s : State} (h : s.status.busy = true) {reg : HostReg} (hreg : reg ≠ .status) :
    hostRegRead reg.offset s = .refused .hostAccessWhileBusy := by
  cases reg with
  | status => contradiction
  | _ => exact whenIdle_of_busy h _

theorem hostRegWrite_busy {s : State} (h : s.status.busy = true) (reg : HostReg) (v : Word)
    (cmd : State → Word → Host.Outcome State Fault Refusal) :
    hostRegWrite cmd reg.offset v s = .refused .hostAccessWhileBusy := by
  cases reg <;> exact whenIdle_of_busy h _

/-! ### One step -/

theorem step_of_port_nil {s : State} (h : s.port = []) : step s = .next s.seqTick := by rw [step, stepWith, h]

/-- A step takes the next access from the queue. -/
theorem step_of_port_cons {s : State} {a : HostAccess} {rest : List HostAccess} (h : s.port = a :: rest) :
    step s = hostAccess a { s with port := rest } := by rw [step, stepWith, h]

theorem step_cmdWrite {s : State} {w : Word} {rest : List HostAccess} (h : s.port = .regWrite 0x00 w :: rest)
    (hbusy : s.status.busy = false) : step s = State.cmdWrite { s with port := rest } w :=
  (step_of_port_cons h).trans (hostRegWrite_cmd (s := { s with port := rest }) hbusy w State.cmdWrite)

theorem step_reset {s : State} {rest : List HostAccess} (h : s.port = .reset :: rest) :
    step s = .next (State.resetEvent { s with port := rest }) := step_of_port_cons h

/-- What a step does that is neither a CMD write nor a reset. -/
inductive HostEffect (s : State) : State → Prop
  | tick : HostEffect s s.seqTick
  | answer (v : HostReply) : HostEffect s (s.answer v)
  | writeReg (reg : HostReg) (v : Word) : HostEffect s (s.writeReg reg v)
  | writeByte (sp : Space) (off : Nat) (v : Byte) (h : off < s.cfg.cap sp) : HostEffect s (s.writeByte sp off v)

theorem hostRegRead_next {off : Nat} {s t : State} (h : hostRegRead off s = .next t) : HostEffect s t := by
  rw [hostRegRead] at h
  split at h
  · cases h
  · cases h; exact .answer _
  · cases (whenIdle_next h).2; exact .answer _

theorem hostRegWrite_next {cmd : State → Word → Host.Outcome State Fault Refusal} {off : Nat} {v : Word} {s t : State}
    (h : hostRegWrite cmd off v s = .next t) : (off = 0x00 ∧ cmd s v = .next t) ∨ HostEffect s t := by
  rw [hostRegWrite] at h
  split at h
  · cases h
  next hreg => exact .inl ⟨offset_of_regAt hreg, (whenIdle_next h).2⟩
  · cases (whenIdle_next h).2; exact .inr (.writeReg _ _)

/-- Everything a step that answers can do. -/
theorem step_cases {s t : State} (h : step s = .next t) :
    (∃ rest, HostEffect { s with port := rest } t) ∨
    (∃ rest, s.port = .reset :: rest ∧ t = State.resetEvent { s with port := rest }) ∨
    (∃ w rest, s.port = .regWrite 0x00 w :: rest ∧ State.cmdWrite { s with port := rest } w = .next t) := by
  cases hport : s.port with
  | nil => rw [step_of_port_nil hport] at h; cases h; exact .inl ⟨s.port, .tick⟩
  | cons a rest =>
    rw [step_of_port_cons hport] at h
    cases a with
    | regWrite off v =>
      rcases hostRegWrite_next h with ⟨rfl, hcmd⟩ | heffect
      · exact .inr (.inr ⟨v, rest, rfl, hcmd⟩)
      · exact .inl ⟨rest, heffect⟩
    | regRead off => exact .inl ⟨rest, hostRegRead_next h⟩
    | regSized off bits => cases h
    | bufWrite sp off v =>
      obtain ⟨hin, hnext⟩ := whenInside_next (whenIdle_next h).2
      cases hnext; exact .inl ⟨rest, .writeByte sp off v hin⟩
    | bufRead sp off => cases (whenInside_next (whenIdle_next h).2).2; exact .inl ⟨rest, .answer _⟩
    | reset => cases h; exact .inr (.inl ⟨rest, rfl, rfl⟩)
    | pause => cases h; exact .inl ⟨rest, .tick⟩

end Sys2Proof.Machine
end

section
/-! PROOF. What a write of CMD does (`spec/10_state.md` R32, R33, `spec/30_encoding.md` R96), and what the effects of
the commands leave alone. -/

namespace Sys2Proof.Machine

/-! ### The CMD write -/

theorem exec_ends (i : Instr) (s : State) : ∃ t, exec i s = .next t := by
  by_cases hi : i = .clrerr
  · exact ⟨_, hi ▸ exec_clrerr s⟩
  rw [exec_eq_runCommand hi]
  cases herr : s.status.err with
  | true => exact ⟨s, runCommand_ignored herr⟩
  | false =>
    cases hc : checks i s with
    | none => exact ⟨_, runCommand_completes herr hc⟩
    | some code => exact ⟨_, runCommand_raises herr hc⟩

theorem cmdWrite_legal {w : Word} {i : Instr} (h : decode w = .instr i) (s : State) : s.cmdWrite w = exec i s := by
  rw [State.cmdWrite, h]

theorem cmdWrite_illegal {w : Word} {why : IllegalWord} (h : decode w = .illegal why) (s : State) :
    s.cmdWrite w = runCommand (fun _ => some .illegalCommand) id s := by rw [State.cmdWrite, h]

theorem cmdWrite_clrerr (s : State) : s.cmdWrite 0x00000007#32 = .next s.begin.clearError.complete :=
  (cmdWrite_legal ((decode_eq_clrerr_iff _).2 rfl) s).trans (exec_clrerr s)

/-- R33: while ERR is 1 every word but that of CLRERR is ignored. -/
theorem cmdWrite_ignored {s : State} {w : Word} (herr : s.status.err = true) (hw : w ≠ 0x00000007#32) :
    s.cmdWrite w = .next s := by
  cases hd : decode w with
  | illegal why => rw [cmdWrite_illegal hd, runCommand_ignored herr]
  | instr i =>
    have hi : i ≠ .clrerr := by rintro rfl; exact hw ((decode_eq_clrerr_iff w).1 hd)
    rw [cmdWrite_legal hd, exec_eq_runCommand hi, runCommand_ignored herr]

/-- A write of CMD always ends. -/
theorem cmdWrite_ends (s : State) (w : Word) : ∃ t, s.cmdWrite w = .next t := by
  cases hd : decode w with
  | instr i => rw [cmdWrite_legal hd]; exact exec_ends i s
  | illegal why =>
    rw [cmdWrite_illegal hd]
    cases herr : s.status.err with
    | true => exact ⟨s, runCommand_ignored herr⟩
    | false => exact ⟨_, runCommand_raises herr rfl⟩

/-- Everything a write of CMD can do: CLRERR, nothing (it is ignored), an error, or a command that completes. -/
inductive CmdEffect (s : State) (w : Word) : State → Prop
  | clrerr (hw : w = 0x00000007#32) : CmdEffect s w s.begin.clearError.complete
  | ignored (herr : s.status.err = true) : CmdEffect s w s
  | raised (herr : s.status.err = false) (code : ErrCode) (hcode : code ≠ .noError) : CmdEffect s w (s.raise code)
  | completed (herr : s.status.err = false) (i : Instr) (hi : i ≠ .clrerr) (hw : decode w = .instr i)
      (hchecks : checks i s = none) : CmdEffect s w (effects i s.begin).complete

theorem cmdWrite_cases {s t : State} {w : Word} (h : s.cmdWrite w = .next t) : CmdEffect s w t := by
  cases hd : decode w with
  | illegal why =>
    rw [cmdWrite_illegal hd] at h
    rcases runCommand_cases h with ⟨herr, rfl⟩ | ⟨herr, code, hcode, rfl⟩ | ⟨_, hcode, _⟩
    · exact .ignored herr
    · exact .raised herr code (by rintro rfl; cases hcode)
    · cases hcode
  | instr i =>
    rw [cmdWrite_legal hd] at h
    rcases exec_cases h with ⟨rfl, rfl⟩ | ⟨_, herr, rfl⟩ | ⟨_, herr, code, hcode, rfl⟩ | ⟨hi, herr, hchecks, rfl⟩
    · exact .clrerr ((decode_eq_clrerr_iff w).1 hd)
    · exact .ignored herr
    · exact .raised herr code (checks_ne_noError hcode)
    · exact .completed herr i hi hd hchecks

/-! ### What the effects leave alone -/

@[simp] theorem checks_begin (i : Instr) (s : State) : checks i s.begin = checks i s := by cases i <;> rfl

/-- Only MACKEY and CLRERR write STATUS, and no command writes the rest of the control part. -/
theorem sameControl_effects {i : Instr} (hmackey : i ≠ .mackey) (hclrerr : i ≠ .clrerr) (s : State) :
    SameControl s (effects i s) := by
  cases i with
  | salsa k => exact sameControl_effectSalsa k s
  | bmix => exact (quiet_blockMix _ s).1
  | romix lane => exact (quiet_romix lane _ _ s).1
  | pbkdf2SB => exact sameControl_pbkdf2 _ _ _ _ s
  | pbkdf2SDk => exact sameControl_pbkdf2 _ _ _ _ s
  | pbkdf2BDk => exact sameControl_pbkdf2 _ _ _ _ s
  | mackey => contradiction
  | valid => exact SameControl.refl s
  | clrerr => contradiction

/-- Only MACKEY leaves another MAC state than it found, when no message was pending (R46, R47). -/
theorem effects_mac {i : Instr} (hmackey : i ≠ .mackey) {s : State} (hbuf : s.mac.buf = []) :
    (effects i s).mac = s.mac := by
  cases i with
  | salsa k => exact effectSalsa_mac k s
  | bmix => exact (quiet_blockMix _ s).2
  | romix lane => exact (quiet_romix lane _ _ s).2
  | pbkdf2SB => exact (pbkdf2_spec (by decide) _ _ hbuf).1
  | pbkdf2SDk => exact (pbkdf2_spec (by decide) _ _ hbuf).1
  | pbkdf2BDk => exact (pbkdf2_spec (by decide) _ _ hbuf).1
  | mackey => contradiction
  | valid => rfl
  | clrerr => rfl

/-- A command other than MACKEY and CLRERR that completes leaves what `CompletedFrame` says. -/
theorem completedFrame_effects {i : Instr} (hmackey : i ≠ .mackey) (hclrerr : i ≠ .clrerr) {s : State}
    (hbuf : s.mac.buf = []) : CompletedFrame s (effects i s.begin).complete :=
  completedFrame_of_sameControl (sameControl_effects hmackey hclrerr s.begin) (effects_mac hmackey hbuf)

theorem effects_cfg (i : Instr) (s : State) : (effects i s).cfg = s.cfg := by
  by_cases hmackey : i = .mackey
  · subst hmackey; rfl
  by_cases hclrerr : i = .clrerr
  · subst hclrerr; rfl
  exact (sameControl_effects hmackey hclrerr s).cfg

theorem effects_regs (i : Instr) (s : State) : (effects i s).regs = s.regs := by
  by_cases hmackey : i = .mackey
  · subst hmackey; rfl
  by_cases hclrerr : i = .clrerr
  · subst hclrerr; rfl
  exact (sameControl_effects hmackey hclrerr s).regs

/-- No effect but that of CLRERR touches ERR. -/
theorem effects_err {i : Instr} (hclrerr : i ≠ .clrerr) (s : State) : (effects i s).status.err = s.status.err := by
  by_cases hmackey : i = .mackey
  · subst hmackey; rfl
  · rw [(sameControl_effects hmackey hclrerr s).status]

/-- No command writes PW or S (R61, R62). -/
theorem effects_readByte_input {i : Instr} {s : State} (hchecks : checks i s = none) {sp : Space}
    (hsp : sp = .pw ∨ sp = .s) (a : Nat) : (effects i s).readByte sp a = s.readByte sp a := by
  have hb : sp ≠ .b := by rintro rfl; simp at hsp
  have hv : sp ≠ .v := by rintro rfl; simp at hsp
  have hxy : sp ≠ .xy := by rintro rfl; simp at hsp
  have hdk : sp ≠ .dk := by rintro rfl; simp at hsp
  cases i with
  | salsa k => exact (effectSalsa_readByte k s sp a).trans (if_neg fun h => hxy h.1)
  | bmix => exact blockMix_outside ((checkBmix_eq_none_iff s).1 hchecks).1 s fun h => hxy h.1
  | romix lane =>
    obtain ⟨hvalid, -⟩ := (checkRomix_eq_none_iff lane s).1 hchecks
    obtain ⟨-, hpow, hr, -⟩ := (validate_eq_noError_iff _ _ _ _).1 hvalid
    obtain ⟨-, -, -, houtside⟩ := romix_spec (lane := lane) hr s rfl hpow
    exact houtside sp a fun h => h.elim (fun h => hb h.1) fun h => h.elim (fun h => hv h.1) fun h => hxy h.1
  | pbkdf2SB => exact pbkdf2_outside _ _ _ _ s hb a
  | pbkdf2SDk => exact pbkdf2_outside _ _ _ _ s hdk a
  | pbkdf2BDk => exact pbkdf2_outside _ _ _ _ s hdk a
  | mackey => rfl
  | valid => rfl
  | clrerr => rfl

end Sys2Proof.Machine
end

section
/-! PROOF. The invariant (`spec/10_state.md` R42, R45, R46, `spec/60_exceptions.md` R243, R246) and what it says of a
step: ERR, DONE, KEYED and the MAC key change only where the spec says so (R32 to R34, R47). -/

namespace Sys2Proof.Machine

/-! ### The invariant holds at reset and every step keeps it -/

/-- The invariant does not speak of the host's side. -/
theorem State.Inv.withPort {s : State} (h : s.Inv) (port : List HostAccess) : ({ s with port := port } : State).Inv :=
  ⟨h.boundary, h.status, h.memWf, h.memBelow, h.keyLen, h.keyMac⟩

/-- Reset gives the values of power-on, whatever the configuration. -/
theorem inv_resetEvent (s : State) : s.resetEvent.Inv where
  boundary := ⟨rfl, rfl, rfl⟩
  status := ⟨⟨fun _ => rfl, fun _ => rfl⟩, fun hboth => by cases hboth.1⟩
  memWf := Memory.empty_wf
  memBelow := rfl
  keyLen := fun hkeyed => by cases hkeyed
  keyMac := fun _ => rfl

/-- Idle, the sequencer does not move (R264). -/
theorem seqTick_idle {s : State} (h : s.pos = .idle) : s.seqTick = s := by rw [State.seqTick, h]

theorem HostEffect.inv {s t : State} (he : HostEffect s t) (h : s.Inv) : t.Inv := by
  cases he with
  | tick => rwa [seqTick_idle h.boundary.2.1]
  | answer v => exact ⟨h.boundary, h.status, h.memWf, h.memBelow, h.keyLen, h.keyMac⟩
  | writeReg reg v =>
    rw [writeReg_eq]
    exact ⟨h.boundary, h.status, h.memWf, h.memBelow, h.keyLen, h.keyMac⟩
  | writeByte sp off v hin =>
    exact ⟨h.boundary, h.status, State.writeByte_wf h.memWf sp off v, State.writeByte_below h.memBelow hin v, h.keyLen,
      h.keyMac⟩

theorem inv_raise {s : State} (h : s.Inv) {code : ErrCode} (hcode : code ≠ .noError) : (s.raise code).Inv where
  boundary := ⟨rfl, rfl, h.boundary.2.2⟩
  status := ⟨by simp [hcode], by simp⟩
  memWf := h.memWf
  memBelow := h.memBelow
  keyLen := h.keyLen
  keyMac := h.keyMac

theorem inv_clrerr {s : State} (h : s.Inv) : s.begin.clearError.complete.Inv where
  boundary := ⟨rfl, rfl, h.boundary.2.2⟩
  status := ⟨by simp, by simp⟩
  memWf := h.memWf
  memBelow := h.memBelow
  keyLen := h.keyLen
  keyMac := h.keyMac

/-- MACKEY takes PLEN bytes, which its checks bound, and runs only where there is a MAC (R190). -/
theorem inv_mackey {s : State} (h : s.Inv) (herr : s.status.err = false) (hchecks : checks .mackey s = none) :
    (effects .mackey s.begin).complete.Inv := by
  obtain ⟨hpresent, hlen⟩ := (checkMackey_eq_none_iff s).1 hchecks
  exact {
    boundary := ⟨rfl, rfl, rfl⟩
    status := ⟨h.status.1, fun hboth => Bool.false_ne_true (herr.symm.trans hboth.2)⟩
    memWf := h.memWf
    memBelow := h.memBelow
    keyLen := fun _ => (State.length_readBytes _ _ _ _).trans_le hlen
    keyMac := fun habsent => absurd (hpresent.symm.trans habsent) (by decide) }

theorem inv_completed {s : State} (h : s.Inv) (herr : s.status.err = false) {i : Instr} (hi : i ≠ .clrerr)
    (hchecks : checks i s = none) : (effects i s.begin).complete.Inv := by
  by_cases hmackey : i = .mackey
  · subst hmackey; exact inv_mackey h herr hchecks
  have hframe := completedFrame_effects hmackey hi h.boundary.2.2
  have hmem : MemFits s.cfg (effects i s.begin) :=
    effects_memFits ⟨rfl, h.memWf, h.memBelow⟩ ((checks_begin i s).trans hchecks)
  obtain ⟨-, hwf, hbelow⟩ := hmem
  refine ⟨⟨by rw [hframe.status], hframe.pos, by rw [hframe.mac]; exact h.boundary.2.2⟩, ?_, hwf, ?_, ?_, ?_⟩
  · rw [hframe.status]
    exact ⟨h.status.1, fun hboth => Bool.false_ne_true (herr.symm.trans hboth.2)⟩
  · rw [hframe.cfg]; exact hbelow
  · rw [hframe.status, hframe.mac, hframe.cfg]; exact h.keyLen
  · rw [hframe.status, hframe.cfg]; exact h.keyMac

theorem CmdEffect.inv {s t : State} {w : Word} (he : CmdEffect s w t) (h : s.Inv) : t.Inv := by
  cases he with
  | clrerr hw => exact inv_clrerr h
  | ignored herr => exact h
  | raised herr code hcode => exact inv_raise h hcode
  | completed herr i hi hw hchecks => exact inv_completed h herr hi hchecks

theorem step_inv {s t : State} (h : s.Inv) (hstep : step s = .next t) : t.Inv := by
  rcases step_cases hstep with ⟨rest, heffect⟩ | ⟨rest, hport, rfl⟩ | ⟨w, rest, hport, hcmd⟩
  · exact heffect.inv (h.withPort rest)
  · exact inv_resetEvent _
  · exact (cmdWrite_cases hcmd).inv (h.withPort rest)

/-- Settles O50: host accesses touch nothing the invariant speaks of but buffer bytes inside their space, reset starts
anew, and a command is ignored, raises, or completes within the bounds its checks have tested. -/
theorem stepKeepsTheInvariant : Obligations.StepKeepsTheInvariant := fun _ _ => step_inv

/-- Settles O49: power-on gives the values of a reset. -/
theorem invariantAtReset : Obligations.InvariantAtReset := by
  obtain ⟨hboundary, hstatus, hwf, hbelow, hlen, hmac⟩ := inv_resetEvent State.reset
  exact ⟨hboundary, hstatus, hwf, hbelow, hlen, hmac⟩

/-! ### What a step does to STATUS and the MAC -/

/-- Idle, no access but a CMD write or a reset changes STATUS or the MAC. -/
theorem HostEffect.status_mac {s t : State} (he : HostEffect s t) (hidle : s.pos = .idle) :
    t.status = s.status ∧ t.mac = s.mac := by
  cases he with
  | tick => rw [seqTick_idle hidle]; exact ⟨rfl, rfl⟩
  | answer v => exact ⟨rfl, rfl⟩
  | writeReg reg v => rw [writeReg_eq]; exact ⟨rfl, rfl⟩
  | writeByte sp off v hin => exact ⟨rfl, rfl⟩

/-- A step that changes STATUS or the MAC is a reset or a CMD write. -/
theorem step_status_mac {s t : State} (h : s.Inv) (hstep : step s = .next t) :
    (t.status = s.status ∧ t.mac = s.mac) ∨
    (∃ rest, s.port = .reset :: rest ∧ t = State.resetEvent { s with port := rest }) ∨
    (∃ w rest, s.port = .regWrite 0x00 w :: rest ∧ CmdEffect { s with port := rest } w t) := by
  rcases step_cases hstep with ⟨rest, heffect⟩ | hreset | ⟨w, rest, hport, hcmd⟩
  · exact .inl (heffect.status_mac h.boundary.2.1)
  · exact .inr (.inl hreset)
  · exact .inr (.inr ⟨w, rest, hport, cmdWrite_cases hcmd⟩)

/-! ### ERR (R33) -/

theorem CmdEffect.err_cleared {s t : State} {w : Word} (he : CmdEffect s w t) (hs : s.status.err = true)
    (ht : t.status.err = false) : w = 0x00000007#32 := by
  cases he with
  | clrerr hw => exact hw
  | ignored _ => simp [hs] at ht
  | raised herr _ _ => simp [hs] at herr
  | completed herr _ _ _ _ => simp [hs] at herr

theorem CmdEffect.err_set {s t : State} {w : Word} (he : CmdEffect s w t) (hs : s.status.err = false)
    (ht : t.status.err = true) : ∃ code, t = s.raise code := by
  cases he with
  | clrerr hw => cases ht
  | ignored herr => simp [hs] at herr
  | raised _ code _ => exact ⟨code, rfl⟩
  | completed _ i hi _ _ =>
    rw [State.complete_status, Status.complete_err, effects_err hi] at ht
    exact absurd (hs.symm.trans ht) (by decide)

/-- Settles O7: a CMD write with ERR at 1 is ignored unless it is CLRERR, and of the steps only CLRERR and reset clear
ERR and only a raise sets it. -/
theorem errIsSticky : Obligations.ErrIsSticky := by
  refine ⟨?ignored, ?cleared, ?set, fun _ _ => rfl, fun s => ⟨_, exec_clrerr s, rfl⟩, fun _ => rfl⟩
  case ignored =>
    intro s w rest hport hbusy herr hw
    rw [step_cmdWrite hport hbusy]
    exact cmdWrite_ignored herr hw
  case cleared =>
    intro s t hinv hstep hs ht
    rcases step_status_mac hinv hstep with ⟨hstatus, -⟩ | ⟨rest, hport, -⟩ | ⟨w, rest, hport, hcmd⟩
    · rw [hstatus, hs] at ht; cases ht
    · exact ⟨rest, .inr hport⟩
    · obtain rfl := hcmd.err_cleared hs ht
      exact ⟨rest, .inl hport⟩
  case set =>
    intro s t hinv hstep hs ht
    rcases step_status_mac hinv hstep with ⟨hstatus, -⟩ | ⟨rest, -, rfl⟩ | ⟨w, rest, hport, hcmd⟩
    · rw [hstatus, hs] at ht; cases ht
    · cases ht
    · obtain ⟨code, hraise⟩ := hcmd.err_set hs ht
      exact ⟨w, rest, code, hport, hraise⟩

/-! ### DONE (R32) -/

/-- A command that is not ignored ends with DONE exactly if it has not raised. -/
theorem exec_done {i : Instr} {s t : State} (h : exec i s = .next t) (hrun : s.status.err = false ∨ i = .clrerr) :
    t.status.done = !t.status.err := by
  rcases exec_cases h with ⟨-, rfl⟩ | ⟨hi, herr, -⟩ | ⟨-, -, code, -, rfl⟩ | ⟨hi, herr, -, rfl⟩
  · rfl
  · simp [herr, hi] at hrun
  · rfl
  · simp [effects_err hi, herr]

/-- The start of a command clears DONE, whether its word is legal or not. -/
theorem cmdStart_done {s t : State} {w : Word} (h : s.cmdStart w = .next t) (herr : s.status.err = false) :
    t.status.done = false := by
  rw [State.cmdStart, if_neg (by simp [herr])] at h
  cases hd : decode w <;> rw [hd] at h <;> cases h <;> rfl

/-- Settles O8: `exec_done` for commands, `cmdStart_done` for their start; no other step but a reset changes DONE. -/
theorem doneTellsHowTheLastCommandEnded : Obligations.DoneTellsHowTheLastCommandEnded := by
  refine ⟨fun _ _ _ => exec_done, fun _ _ => cmdWrite_ignored, fun _ _ => rfl, fun _ _ _ => cmdStart_done,
    fun _ => rfl, ?_⟩
  intro s t hinv hstep hdone
  rcases step_status_mac hinv hstep with ⟨hstatus, -⟩ | ⟨rest, hport, -⟩ | ⟨w, rest, hport, -⟩
  · exact absurd (congrArg Status.done hstatus) hdone
  · exact ⟨0, rest, .inr hport⟩
  · exact ⟨w, rest, .inl hport⟩

/-! ### KEYED and the key (R34, R46, R47) -/

/-- A CMD write changes KEYED or the key only if it is that of MACKEY, and then only by setting KEYED. -/
theorem CmdEffect.keyed_mac {s t : State} {w : Word} (he : CmdEffect s w t) (hbuf : s.mac.buf = []) :
    (t.status.keyed = s.status.keyed ∧ t.mac = s.mac) ∨ (w = 0x00000005#32 ∧ t.status.keyed = true) := by
  cases he with
  | clrerr hw => exact .inl ⟨rfl, rfl⟩
  | ignored herr => exact .inl ⟨rfl, rfl⟩
  | raised herr code hcode => exact .inl ⟨rfl, rfl⟩
  | completed herr i hi hw hchecks =>
    by_cases hmackey : i = .mackey
    · subst hmackey; exact .inr ⟨eq_word_of_decode_mackey hw, rfl⟩
    · have hframe := completedFrame_effects hmackey hi hbuf
      exact .inl ⟨by rw [hframe.status], hframe.mac⟩

theorem exec_pbkdf2_notKeyed {i : Instr} (hi : i ∈ [Instr.pbkdf2SB, .pbkdf2SDk, .pbkdf2BDk]) {s : State}
    (herr : s.status.err = false) (hkeyed : s.status.keyed = false) : exec i s = .next (s.raise .notKeyed) := by
  have hcheck (src dst : Space) : checkPbkdf2 src dst s = some .notKeyed := by
    rw [checkPbkdf2, firstFailure_cons, if_pos (by simp [hkeyed])]
  fin_cases hi <;> exact runCommand_raises herr (hcheck _ _)

/-- MACKEY completing sets KEYED (R190). -/
theorem exec_mackey_keyed {s t : State} (herr : s.status.err = false) (h : exec .mackey s = .next t)
    (ht : t.status.err = false) : t.status.keyed = true := by
  rcases exec_cases h with ⟨hi, -⟩ | ⟨-, hs, -⟩ | ⟨-, -, code, -, rfl⟩ | ⟨-, -, -, rfl⟩
  · cases hi
  · exact absurd (herr.symm.trans hs) (by decide)
  · cases ht
  · rfl

/-- Settles O37: the only CMD write that touches KEYED is MACKEY's, which sets it. -/
theorem keyedIsSetByMackeyOnly : Obligations.KeyedIsSetByMackeyOnly := by
  refine ⟨?set, ?cleared, fun _ hi _ => exec_pbkdf2_notKeyed hi, fun _ _ => exec_mackey_keyed, fun _ => rfl⟩
  case set =>
    intro s t hinv hstep hs ht
    rcases step_status_mac hinv hstep with ⟨hstatus, -⟩ | ⟨rest, -, rfl⟩ | ⟨w, rest, hport, hcmd⟩
    · rw [hstatus, hs] at ht; cases ht
    · cases ht
    · rcases hcmd.keyed_mac hinv.boundary.2.2 with ⟨hkeyed, -⟩ | ⟨rfl, -⟩
      · exact absurd (ht.symm.trans (hkeyed.trans hs)) (by decide)
      · exact ⟨rest, hport⟩
  case cleared =>
    intro s t hinv hstep hs ht
    rcases step_status_mac hinv hstep with ⟨hstatus, -⟩ | ⟨rest, hport, -⟩ | ⟨w, rest, hport, hcmd⟩
    · rw [hstatus, hs] at ht; cases ht
    · exact ⟨rest, hport⟩
    · rcases hcmd.keyed_mac hinv.boundary.2.2 with ⟨hkeyed, -⟩ | ⟨-, hkeyed⟩
      · exact absurd (ht.symm.trans (hkeyed.trans hs)) (by decide)
      · exact absurd (ht.symm.trans hkeyed) (by decide)

/-- Settles O38: the message is empty by the invariant, and the key follows `CmdEffect.keyed_mac`. -/
theorem macKeyIsWrittenByMackeyOnly : Obligations.MacKeyIsWrittenByMackeyOnly := by
  intro s t hinv hstep
  refine ⟨(step_inv hinv hstep).boundary.2.2, fun hkey => ?_⟩
  rcases step_status_mac hinv hstep with ⟨-, hmac⟩ | ⟨rest, hport, -⟩ | ⟨w, rest, hport, hcmd⟩
  · exact absurd (congrArg MacState.key hmac) hkey
  · exact ⟨rest, .inr hport⟩
  · rcases hcmd.keyed_mac hinv.boundary.2.2 with ⟨-, hmac⟩ | ⟨rfl, -⟩
    · exact absurd (congrArg MacState.key hmac) hkey
    · exact ⟨rest, .inl hport⟩

/-! ### The host's inputs and the configuration (R24, R48, R61, R62) -/

/-- Settles O39: a command that is ignored or raises writes no register and no byte, and the effects leave the parameter
registers, PW and S alone. -/
theorem noCommandWritesParametersPasswordOrSalt : Obligations.NoCommandWritesParametersPasswordOrSalt := by
  intro i s t h
  rcases exec_cases h with ⟨-, rfl⟩ | ⟨-, -, rfl⟩ | ⟨-, -, code, -, rfl⟩ | ⟨-, -, hchecks, rfl⟩
  · exact ⟨rfl, fun _ => rfl, fun _ => rfl⟩
  · exact ⟨rfl, fun _ => rfl, fun _ => rfl⟩
  · exact ⟨rfl, fun _ => rfl, fun _ => rfl⟩
  · have hbytes {sp : Space} (hsp : sp = .pw ∨ sp = .s) (a : Nat) :
        (effects i s.begin).complete.readByte sp a = s.readByte sp a := by
      rw [complete_readByte, effects_readByte_input ((checks_begin i s).trans hchecks) hsp, begin_readByte]
    exact ⟨effects_regs i s.begin, hbytes (.inl rfl), hbytes (.inr rfl)⟩

end Sys2Proof.Machine
end

section
/-! PROOF. The statements of the host interface and of reset (`spec/10_state.md` R24, R29, R30, R37, R38, R50,
`spec/20_memory.md` R60, R68, `spec/70_reset_and_hazards.md` R270, R272). -/

namespace Sys2Proof.Machine

/-! ### The CMD write and the end of every command -/

/-- Settles O6: a CMD write is `cmdWrite` of its word, which is `exec` of the instruction when the word is legal. -/
theorem stepRunsTheDecodedInstruction : Obligations.StepRunsTheDecodedInstruction := by
  have hstep {s : State} {w : Word} {i : Instr} {rest : List HostAccess} (hport : s.port = .regWrite 0x00 w :: rest)
      (hbusy : s.status.busy = false) (hd : decode w = .instr i) : step s = exec i { s with port := rest } :=
    (step_cmdWrite hport hbusy).trans (cmdWrite_legal hd _)
  refine ⟨fun s w i rest => hstep, fun s w i hbusy hd => ?_⟩
  refine hstep (s := s.withFetchWord 32 w) rfl hbusy ?_
  rw [decodeTableWord] at hd
  split at hd
  next j hj => rw [hj, Option.some.inj hd]
  next => cases hd

/-- Settles O36: each branch of a command answers a next state. -/
theorem everyCommandEnds : Obligations.EveryCommandEnds := exec_ends

/-! ### STATUS (R30) -/

/-- The four flags are the low bits of the word. -/
theorem toWord_flags (st : Status) : st.toWord.getLsbD 0 = st.busy ∧ st.toWord.getLsbD 1 = st.done ∧
    st.toWord.getLsbD 2 = st.err ∧ st.toWord.getLsbD 3 = st.keyed := by
  simp only [Status.toWord, BitVec.getLsbD_append]
  simp

/-- Above the flags there is ERRCODE, from bit 8 on, and nothing else. -/
theorem toWord_high (st : Status) {i : Nat} (hi : 4 ≤ i) :
    st.toWord.getLsbD i = (decide (8 ≤ i) && st.errcode.toByte.getLsbD (i - 8)) := by
  obtain ⟨k, rfl⟩ := Nat.exists_eq_add_of_le' hi
  simp only [Status.toWord, BitVec.getLsbD_append]
  by_cases hk : k < 4
  · simp [hk]
  · by_cases hbyte : k - 4 < 8
    · simp [hk, hbyte, Nat.le_of_not_lt hk]
    · simp [hk, BitVec.getLsbD_of_ge st.errcode.toByte (k - 4) (by omega)]

/-- Settles O41: the flags bit by bit, and the three fields above them by `toWord_high`. -/
theorem statusLayout : Obligations.StatusLayout := by
  intro st
  obtain ⟨hbusy, hdone, herr, hkeyed⟩ := toWord_flags st
  refine ⟨hbusy, hdone, herr, hkeyed, ?_, ?_, ?_⟩ <;> ext i hi <;>
    rw [BitVec.getElem_extractLsb', toWord_high st (by omega)]
  · simp [show ¬ 8 ≤ 4 + i by omega]
  · simp [BitVec.getLsbD_eq_getElem hi]
  · simp [BitVec.getLsbD_of_ge st.errcode.toByte (16 + i - 8) (by omega)]

/-! ### Registers -/

@[simp] theorem readReg_withPort (s : State) (port : List HostAccess) (reg : HostReg) :
    ({ s with port := port } : State).readReg reg = s.readReg reg := by cases reg <;> rfl

/-- A read of a register, as a step. -/
theorem step_regRead {s : State} {reg : HostReg} {rest : List HostAccess} (h : s.port = .regRead reg.offset :: rest)
    (hbusy : s.status.busy = false) :
    step s = .next (State.answer { s with port := rest } (.word (s.readReg reg))) :=
  (step_of_port_cons h).trans <| (hostRegRead_offset (s := { s with port := rest }) hbusy reg).trans <| by
    rw [readReg_withPort]

/-- A write of a register other than CMD, as a step. -/
theorem step_regWrite {s : State} {reg : HostReg} {v : Word} {rest : List HostAccess}
    (h : s.port = .regWrite reg.offset v :: rest) (hbusy : s.status.busy = false) (hreg : reg ≠ .cmd) :
    step s = .next (State.writeReg { s with port := rest } reg v) :=
  (step_of_port_cons h).trans (hostRegWrite_offset (s := { s with port := rest }) hbusy hreg v State.cmdWrite)

/-- Settles O42: `readReg_writeReg` for the register written and for every other. -/
theorem parameterRegistersReadBack : Obligations.ParameterRegistersReadBack := by
  intro off hoff v s rest hbusy hport
  obtain ⟨reg, hreg, rfl⟩ := exists_readWrite_offset hoff
  refine ⟨_, step_regWrite hport hbusy hreg.1, ?same, ?others, writeReg_eq _ reg v⟩
  case same =>
    rw [step_regRead (rest := []) rfl (by simpa using hbusy), readReg_withPort, readReg_writeReg _ hreg, if_pos rfl]
    rfl
  case others =>
    intro off' hoff' hne
    obtain ⟨reg', rfl⟩ := exists_offset hoff'
    have hne' : reg' ≠ reg := by rintro rfl; exact hne rfl
    rw [hostRegRead_offset (by simpa using hbusy), readReg_writeReg _ hreg, if_neg hne', regAt_offset, Option.map_some,
      Option.getD_some]

/-- Settles O43: `readReg` of CMD and STATUS, and a write of STATUS, which keeps the state. -/
theorem cmdReadsZeroAndStatusIsReadOnly : Obligations.CmdReadsZeroAndStatusIsReadOnly := fun _ _ _ hbusy =>
  ⟨fun h => step_regRead (reg := .cmd) h hbusy, fun h => step_regRead (reg := .status) h hbusy,
    fun h => step_regWrite (reg := .status) h hbusy (by decide)⟩

/-- Settles O44: no register stands at such an offset (`regAt_eq_none`). -/
theorem undefinedRegisterAccessesAreRefused : Obligations.UndefinedRegisterAccessesAreRefused := by
  intro s off bits v rest
  refine ⟨fun hoff => ⟨fun h => ?_, fun h => ?_⟩, fun h => step_of_port_cons h⟩
  · exact (step_of_port_cons h).trans (hostRegRead_undefined (regAt_eq_none hoff) _)
  · exact (step_of_port_cons h).trans (hostRegWrite_undefined (regAt_eq_none hoff) v _ _)

/-- Settles O45: STATUS answers at any time, every other access asks `whenIdle` first. -/
theorem onlyStatusMayBeReadWhileBusy : Obligations.OnlyStatusMayBeReadWhileBusy := by
  intro s rest hbusy
  have hbusy' : ({ s with port := rest } : State).status.busy = true := hbusy
  refine ⟨fun h => (step_of_port_cons h).trans (hostRegRead_status _), ?read, ?write, fun sp off v h => ?bufWrite,
    fun sp off h => ?bufRead⟩
  case read =>
    intro off hoff h
    obtain ⟨reg, rfl⟩ := exists_offset (off := off) (by simp only [List.mem_cons] at hoff ⊢; tauto)
    have hreg : reg ≠ .status := by rintro rfl; revert hoff; decide
    exact (step_of_port_cons h).trans (hostRegRead_busy hbusy' hreg)
  case write =>
    intro off hoff v h
    obtain ⟨reg, rfl⟩ := exists_offset hoff
    exact (step_of_port_cons h).trans (hostRegWrite_busy hbusy' reg v _)
  case bufWrite => exact (step_of_port_cons h).trans (whenIdle_of_busy hbusy' _)
  case bufRead => exact (step_of_port_cons h).trans (whenIdle_of_busy hbusy' _)

/-! ### Stops (R37, R38, R60) -/

/-- Not BUSY, a read of a register that exists answers. -/
theorem hostRegRead_answers {s : State} (hbusy : s.status.busy = false) {off : Nat} (h : regAt off ≠ none) :
    ∃ t, hostRegRead off s = .next t := by
  obtain ⟨reg, hreg⟩ := Option.ne_none_iff_exists'.1 h
  rw [offset_of_regAt hreg]
  exact ⟨_, hostRegRead_offset hbusy reg⟩

/-- Not BUSY, a write of a register that exists answers. -/
theorem hostRegWrite_answers {s : State} (hbusy : s.status.busy = false) {off : Nat} (h : regAt off ≠ none) (v : Word) :
    ∃ t, hostRegWrite State.cmdWrite off v s = .next t := by
  obtain ⟨reg, hreg⟩ := Option.ne_none_iff_exists'.1 h
  by_cases hcmd : reg = .cmd
  · subst hcmd
    obtain ⟨t, ht⟩ := cmdWrite_ends s v
    exact ⟨t, by rw [offset_of_regAt hreg, HostReg.offset, hostRegWrite_cmd hbusy, ht]⟩
  · exact ⟨_, by rw [offset_of_regAt hreg, hostRegWrite_offset hbusy hcmd]⟩

/-- Not BUSY, an access to a byte that the space has answers. -/
theorem whenIdle_whenInside {s : State} (hbusy : s.status.busy = false) {sp : Space} {off : Nat}
    (h : off < s.cfg.cap sp) (o : Host.Outcome State Fault Refusal) : whenIdle s (whenInside s sp off o) = o := by
  rw [whenIdle_of_idle hbusy, whenInside, if_pos h]

/-- Settles O51: every other access of the queue answers, since the block is not BUSY. -/
theorem onlyUndefinedAccessesStop : Obligations.OnlyUndefinedAccessesStop := by
  intro s hinv hstop
  cases hport : s.port with
  | nil => exact absurd ⟨_, step_of_port_nil hport⟩ hstop
  | cons a rest =>
    rw [step_of_port_cons hport] at hstop
    have hbusy : ({ s with port := rest } : State).status.busy = false := hinv.boundary.1
    cases a with
    | regWrite off v =>
      by_cases hreg : regAt off = none
      · exact .inl ⟨off, v, rest, hreg, .inr rfl⟩
      · exact absurd (hostRegWrite_answers hbusy hreg v) hstop
    | regRead off =>
      by_cases hreg : regAt off = none
      · exact .inl ⟨off, 0, rest, hreg, .inl rfl⟩
      · exact absurd (hostRegRead_answers hbusy hreg) hstop
    | regSized off bits => exact .inr (.inl ⟨off, bits, rest, rfl⟩)
    | bufWrite sp off v =>
      by_cases hin : off < s.cfg.cap sp
      · exact absurd ⟨_, whenIdle_whenInside hbusy hin _⟩ hstop
      · exact .inr (.inr ⟨sp, off, v, rest, Nat.le_of_not_lt hin, .inl rfl⟩)
    | bufRead sp off =>
      by_cases hin : off < s.cfg.cap sp
      · exact absurd ⟨_, whenIdle_whenInside hbusy hin _⟩ hstop
      · exact .inr (.inr ⟨sp, off, 0, rest, Nat.le_of_not_lt hin, .inr rfl⟩)
    | reset => exact absurd ⟨_, rfl⟩ hstop
    | pause => exact absurd ⟨_, rfl⟩ hstop

/-! ### Reset (R50, R270) -/

/-- Where nothing is written every byte is unspecified. -/
theorem readByte_of_mem_empty {s : State} (h : s.mem = Memory.empty) (sp : Space) (a : Nat) :
    s.readByte sp a = Config.residue s.epoch sp a := by
  rw [State.readByte, h]; cases sp <;> rfl

theorem reset_toWord : State.reset.status.toWord = 0#32 := by decide

/-- Settles O47: power-on and a reset event leave the same values in the block. -/
theorem resetValues : Obligations.ResetValues := by
  rintro s (rfl | ⟨s', rest, hport, hstep⟩)
  · exact ⟨rfl, rfl, reset_toWord, rfl, rfl, readByte_of_mem_empty rfl⟩
  · rw [step_reset hport] at hstep
    cases hstep
    exact ⟨rfl, rfl, reset_toWord, rfl, rfl, readByte_of_mem_empty rfl⟩

/-- Settles O48: neither machine asks for BUSY before a reset. -/
theorem resetActsInEveryState : Obligations.ResetActsInEveryState := by
  intro s rest hport
  have hfine : fineStep s = .next (State.resetEvent { s with port := rest }) := by rw [fineStep, stepWith, hport]; rfl
  exact ⟨_, step_reset hport, hfine, reset_toWord, rfl, rfl, rfl⟩

end Sys2Proof.Machine
end

section
/-! PROOF. The sequencer (`spec/10_state.md` R40 to R42): no move of it changes the configuration (R48), and position by
position it reaches the end state of the command it runs. -/

namespace Sys2Proof.Machine

/-! ### The configuration (R48) -/

theorem seqCheck_cfg (op : Instr) (first : Phase) (s : State) : (seqCheck op first s).cfg = s.cfg := by
  rw [seqCheck]; split <;> rfl

theorem seqSalsa_cfg (k : Nat) (ph : Phase) (s : State) : (seqSalsa k ph s).cfg = s.cfg := by
  cases ph with
  | check => exact seqCheck_cfg _ _ s
  | core t =>
    have hround : (if t = 0 then s.coreLoad (s.readBlock .xy (xBlockOff k)) else s).coreRound.cfg = s.cfg := by
      rw [State.coreRound_cfg]; split <;> rfl
    simp only [seqSalsa]
    split
    · exact hround
    · rw [State.complete_cfg, State.writeBytes_cfg]; exact hround
  | _ => rfl

theorem seqBmix_cfg (ph : Phase) (s : State) : (seqBmix ph s).cfg = s.cfg := by
  cases ph with
  | check => exact seqCheck_cfg _ _ s
  | loadX => rw [seqBmix, State.goto_cfg, State.mixLoad_cfg]
  | step i => rw [seqBmix, State.goto_cfg, (quiet_mixStep s.pR i s).1.cfg]
  | even i => rw [seqBmix, State.goto_cfg, (quiet_mixEven s.pR i s).1.cfg]
  | odd i =>
    rw [seqBmix]
    split
    · rw [State.goto_cfg, (quiet_mixOdd s.pR i s).1.cfg]
    · rw [State.complete_cfg, (quiet_mixOdd s.pR i s).1.cfg]
  | _ => rfl

theorem seqRomix_cfg (lane : Nat) (ph : Phase) (s : State) : (seqRomix lane ph s).cfg = s.cfg := by
  cases ph with
  | check => exact seqCheck_cfg _ _ s
  | copyIn => rw [seqRomix, State.goto_cfg, (quiet_romixCopyIn lane s.pR s).1.cfg]
  | fill i => rw [seqRomix, State.goto_cfg, (quiet_romixFill s.pR i s).1.cfg]
  | mix i => rw [seqRomix, State.goto_cfg, (quiet_romixMix s.pR s).1.cfg]
  | copyOut => rw [seqRomix, State.complete_cfg, (quiet_romixCopyOut lane s.pR s).1.cfg]
  | _ => rfl

theorem seqPbkdf2_cfg (op : Instr) (src dst : Space) (ph : Phase) (s : State) :
    (seqPbkdf2 op src dst ph s).cfg = s.cfg := by
  cases ph with
  | check =>
    simp only [seqPbkdf2]
    split
    · rfl
    · split <;> rfl
  | blocks i t =>
    have hcall : (if t = 1 then s.pbkdf2First src i else s.pbkdf2Next).cfg = s.cfg := by
      split
      · exact (sameControl_pbkdf2First src i s).cfg
      · exact (sameControl_pbkdf2Next s).cfg
    simp only [seqPbkdf2, State.pbkdf2Store]
    split
    · exact hcall
    · split
      · rw [State.goto_cfg, State.writeBytes_cfg]; exact hcall
      · rw [State.complete_cfg, State.writeBytes_cfg]; exact hcall
  | _ => rfl

theorem seqExec_cfg (op : Instr) {effect : State → State} (h : ∀ s, (effect s).cfg = s.cfg) (ph : Phase) (s : State) :
    (seqExec op effect ph s).cfg = s.cfg := by
  cases ph with
  | check => exact seqCheck_cfg _ _ s
  | exec => exact h s
  | _ => rfl

theorem seqTick_cfg (s : State) : s.seqTick.cfg = s.cfg := by
  rw [State.seqTick]
  split
  · rfl
  · exact seqSalsa_cfg _ _ s
  · exact seqBmix_cfg _ s
  · exact seqRomix_cfg _ _ s
  · exact seqPbkdf2_cfg _ _ _ _ s
  · exact seqPbkdf2_cfg _ _ _ _ s
  · exact seqPbkdf2_cfg _ _ _ _ s
  · exact seqExec_cfg _ (effects_cfg .mackey) _ s
  · exact seqExec_cfg _ (effects_cfg .valid) _ s
  · exact seqExec_cfg _ (effects_cfg .clrerr) _ s

theorem HostEffect.cfg {s t : State} (he : HostEffect s t) : t.cfg = s.cfg := by
  cases he with
  | tick => exact seqTick_cfg s
  | answer v => rfl
  | writeReg reg v => rw [writeReg_eq]
  | writeByte sp off v h => rfl

theorem CmdEffect.cfg {s t : State} {w : Word} (he : CmdEffect s w t) : t.cfg = s.cfg := by
  cases he with
  | clrerr _ => rfl
  | ignored _ => rfl
  | raised _ code _ => rfl
  | completed _ i _ _ _ => exact effects_cfg i s.begin

/-- Settles O40: no host access, no reset, no command and no move of the sequencer changes it. -/
theorem configurationIsFixed : Obligations.ConfigurationIsFixed := by
  intro s t h
  rcases step_cases h with ⟨rest, heffect⟩ | ⟨rest, -, rfl⟩ | ⟨w, rest, -, hcmd⟩
  · exact heffect.cfg
  · rfl
  · exact (cmdWrite_cases hcmd).cfg

/-! ### Moves while BUSY -/

/-- From `u` the sequencer reaches `t` in finitely many moves, and BUSY is 1 until then (R31, R42). -/
def Reaches (u t : State) : Prop := ∃ n, u.ticks n = t ∧ ∀ m, m < n → (u.ticks m).status.busy = true

theorem Reaches.refl (s : State) : Reaches s s := ⟨0, rfl, fun _ h => absurd h (Nat.not_lt_zero _)⟩

theorem Reaches.trans {s t u : State} (h : Reaches s t) (k : Reaches t u) : Reaches s u := by
  obtain ⟨n, rfl, hn⟩ := h
  obtain ⟨m, rfl, hm⟩ := k
  refine ⟨m + n, ticks_add m n s, fun j hj => ?_⟩
  by_cases hjn : j < n
  · exact hn j hjn
  · have hlater := hm (j - n) (by omega)
    rwa [← ticks_add, Nat.sub_add_cancel (Nat.le_of_not_lt hjn)] at hlater

theorem Reaches.move {s t : State} (hbusy : s.status.busy = true) (h : s.seqTick = t) : Reaches s t := by
  refine ⟨1, h, fun m hm => ?_⟩
  rwa [Nat.lt_one_iff.1 hm, ticks_zero]

/-- One move from a position of a running command. -/
theorem Reaches.moveFrom {s t : State} {op : Instr} {ph : Phase} (hbusy : s.status.busy = true)
    (h : seqOf op ph (s.goto op ph) = t) : Reaches (s.goto op ph) t :=
  Reaches.move hbusy ((seqTick_goto s op ph).trans h)

/-- A row of `n` positions that does `n` turns of a loop: from each but the last the sequencer comes to the next, and
from the last it comes to `next` of what the loop has done. -/
theorem Reaches.loop {op : Instr} {ph : Nat → Phase} {body : Nat → State → State} {next : State → State} {n : Nat}
    {s : State} (hn : 0 < n) (hbody : ∀ i a, SameControl a (body i a))
    (hturn : ∀ i a, i < n → SameControl s a →
      Reaches (a.goto op (ph i)) (if i + 1 < n then (body i a).goto op (ph (i + 1)) else next (body i a))) :
    Reaches (s.goto op (ph 0)) (next (loop body n s)) := by
  have hsame (i : Nat) : SameControl s (Machine.loop body i s) := SameControl.loop hbody i s
  have hbefore (i : Nat) (hi : i < n) : Reaches (s.goto op (ph 0)) ((Machine.loop body i s).goto op (ph i)) := by
    induction i with
    | zero => exact Reaches.refl _
    | succ i ih =>
      have hmove := hturn i _ (by omega) (hsame i)
      rw [if_pos hi] at hmove
      exact (ih (by omega)).trans hmove
  obtain ⟨m, rfl⟩ := Nat.exists_eq_add_one.2 hn
  have hlast := hturn m _ (Nat.lt_succ_self m) (hsame m)
  rw [if_neg (Nat.lt_irrefl _)] at hlast
  exact (hbefore m (Nat.lt_succ_self m)).trans hlast

/-! ### Each command, from CHECK to its end (R41) -/

@[simp] theorem checks_goto (i op : Instr) (ph : Phase) (s : State) : checks i (s.goto op ph) = checks i s := by
  cases i <;> rfl

theorem goto_ite (s : State) (op : Instr) (p : Prop) [Decidable p] (ph ph' : Phase) :
    s.goto op (if p then ph else ph') = if p then s.goto op ph else s.goto op ph' := apply_ite (s.goto op) p ph ph'

/-- One position of SALSA: a double-round, the first after the load. -/
def salsaTurn (k i : Nat) (s : State) : State :=
  (if i = 0 then s.coreLoad (s.readBlock .xy (xBlockOff k)) else s).coreRound

theorem sameControl_salsaTurn (k i : Nat) (s : State) : SameControl s (salsaTurn k i s) := by
  rw [salsaTurn]; split <;> exact sameControl_setWork _ _

theorem ignoresPos_salsaTurn (k i : Nat) : IgnoresPos (salsaTurn k i) := by
  intro s op ph; rw [salsaTurn, salsaTurn]; split <;> rfl

theorem loop_salsaTurn (k : Nat) (s : State) : loop (salsaTurn k) 4 s = s.coreRun (s.readBlock .xy (xBlockOff k)) := rfl

/-- One MAC call of an output block of PBKDF2. -/
def pbkdf2Turn (src : Space) (i t : Nat) (s : State) : State :=
  if t = 0 then s.pbkdf2First src i else s.pbkdf2Next

theorem sameControl_pbkdf2Turn (src : Space) (i t : Nat) (s : State) : SameControl s (pbkdf2Turn src i t s) := by
  rw [pbkdf2Turn]
  split
  · exact sameControl_pbkdf2First src i s
  · exact sameControl_pbkdf2Next s

theorem ignoresPos_pbkdf2Turn (src : Space) (i t : Nat) : IgnoresPos (pbkdf2Turn src i t) := by
  intro s op ph; rw [pbkdf2Turn, pbkdf2Turn]; split <;> rfl

theorem store_loop_pbkdf2Turn (src dst : Space) {c : Nat} (hc : c ≠ 0) (outLen i : Nat) (s : State) :
    (loop (pbkdf2Turn src i) c s).pbkdf2Store dst outLen i = s.pbkdf2Block src dst c outLen i := by
  obtain ⟨n, rfl⟩ := Nat.exists_eq_succ_of_ne_zero hc
  rw [Nat.succ_eq_add_one, loop_succ_first, State.pbkdf2Block, Nat.add_sub_cancel]
  rfl

section commands
variable {s : State} (hbusy : s.status.busy = true)
include hbusy

/-- CHECK, when the checks pass. -/
theorem reaches_first {op : Instr} {first : Phase} (hop : seqOf op .check = seqCheck op first)
    (hchecks : checks op s = none) : Reaches (s.goto op .check) (s.goto op first) :=
  Reaches.moveFrom hbusy (by rw [hop, seqCheck, checks_goto, hchecks, goto_goto])

theorem reaches_salsa {k : Nat} (hchecks : checks (.salsa k) s = none) :
    Reaches (s.goto (.salsa k) .check) (effectSalsa k s).complete := by
  refine (reaches_first hbusy rfl hchecks).trans ?_
  have hcore := Reaches.loop (op := .salsa k) (ph := .core) (body := salsaTurn k) (n := 4) (s := s)
    (next := fun a => (a.writeBytes .xy (xBlockOff k) a.coreOut.toList).complete) (by decide)
    (sameControl_salsaTurn k) fun i a _ ha => Reaches.moveFrom (by rw [ha.status, hbusy]) ?turn
  case turn =>
    have hturn : (if i = 0 then (a.goto (.salsa k) (.core i)).coreLoad
          ((a.goto (.salsa k) (.core i)).readBlock .xy (xBlockOff k)) else a.goto (.salsa k) (.core i)).coreRound =
        (salsaTurn k i a).goto (.salsa k) (.core i) := ignoresPos_salsaTurn k i a _ _
    simp only [seqOf, seqSalsa, hturn, goto_goto, goto_coreOut, goto_writeBytes, goto_complete]
  rwa [loop_salsaTurn] at hcore

theorem reaches_mixSteps {r : Nat} (hR : s.pR = r) (hr : r ≠ 0) :
    Reaches (s.goto .bmix (.step 0)) ((loop (State.mixStep r) (2 * r) s).goto .bmix (.even 0)) := by
  refine Reaches.loop (op := .bmix) (ph := .step) (next := fun a => a.goto .bmix (.even 0)) (by omega)
    (fun i a => (quiet_mixStep r i a).1) fun i a _ ha => Reaches.moveFrom (by rw [ha.status, hbusy]) ?_
  have haR : (a.goto .bmix (.step i)).pR = r := (State.pR_congr ha.regs).trans hR
  rw [seqOf, seqBmix, haR, ignoresPos_mixStep, goto_goto, goto_ite]

theorem reaches_mixEvens {r : Nat} (hR : s.pR = r) (hr : r ≠ 0) :
    Reaches (s.goto .bmix (.even 0)) ((loop (State.mixEven r) r s).goto .bmix (.odd 0)) := by
  refine Reaches.loop (op := .bmix) (ph := .even) (next := fun a => a.goto .bmix (.odd 0)) (by omega)
    (fun i a => (quiet_mixEven r i a).1) fun i a _ ha => Reaches.moveFrom (by rw [ha.status, hbusy]) ?_
  have haR : (a.goto .bmix (.even i)).pR = r := (State.pR_congr ha.regs).trans hR
  rw [seqOf, seqBmix, haR, ignoresPos_mixEven, goto_goto, goto_ite]

theorem reaches_mixOdds {r : Nat} (hR : s.pR = r) (hr : r ≠ 0) :
    Reaches (s.goto .bmix (.odd 0)) (loop (State.mixOdd r) r s).complete := by
  refine Reaches.loop (op := .bmix) (ph := .odd) (next := State.complete) (by omega)
    (fun i a => (quiet_mixOdd r i a).1) fun i a _ ha => Reaches.moveFrom (by rw [ha.status, hbusy]) ?_
  have haR : (a.goto .bmix (.odd i)).pR = r := (State.pR_congr ha.regs).trans hR
  rw [seqOf, seqBmix, haR, ignoresPos_mixOdd, goto_goto, goto_complete]

theorem reaches_bmix (hchecks : checks .bmix s = none) : Reaches (s.goto .bmix .check) (effectBmix s).complete := by
  obtain ⟨hr, -⟩ := (checkBmix_eq_none_iff s).1 hchecks
  have hload : Reaches (s.goto .bmix .loadX) ((s.mixLoad s.pR).goto .bmix (.step 0)) := Reaches.moveFrom hbusy rfl
  have hloaded : SameControl s (s.mixLoad s.pR) := sameControl_setWork _ _
  have hstepped := hloaded.trans (SameControl.loop (fun i a => (quiet_mixStep s.pR i a).1) (2 * s.pR) _)
  have hevened := hstepped.trans (SameControl.loop (fun i a => (quiet_mixEven s.pR i a).1) s.pR _)
  have hready {a : State} (ha : SameControl s a) : a.status.busy = true ∧ a.pR = s.pR :=
    ⟨by rw [ha.status, hbusy], State.pR_congr ha.regs⟩
  exact (reaches_first hbusy rfl hchecks).trans <| hload.trans <|
    (reaches_mixSteps (hready hloaded).1 (hready hloaded).2 hr).trans <|
    (reaches_mixEvens (hready hstepped).1 (hready hstepped).2 hr).trans <|
    reaches_mixOdds (hready hevened).1 (hready hevened).2 hr

theorem reaches_romixFills {lane n r : Nat} (hN : s.pN = n) (hR : s.pR = r) (hn : n ≠ 0) :
    Reaches (s.goto (.romix lane) (.fill 0)) ((loop (State.romixFill r) n s).goto (.romix lane) (.mix 0)) := by
  refine Reaches.loop (op := .romix lane) (ph := .fill) (next := fun a => a.goto (.romix lane) (.mix 0)) (by omega)
    (fun i a => (quiet_romixFill r i a).1) fun i a _ ha => Reaches.moveFrom (by rw [ha.status, hbusy]) ?_
  have haN : (a.goto (.romix lane) (.fill i)).pN = n := (State.pN_congr ha.regs).trans hN
  have haR : (a.goto (.romix lane) (.fill i)).pR = r := (State.pR_congr ha.regs).trans hR
  rw [seqOf, seqRomix, haN, haR, ignoresPos_romixFill, goto_goto, goto_ite]

theorem reaches_romixMixes {lane n r : Nat} (hN : s.pN = n) (hR : s.pR = r) (hn : n ≠ 0) :
    Reaches (s.goto (.romix lane) (.mix 0)) ((loop (fun _ => State.romixMix r) n s).goto (.romix lane) .copyOut) := by
  refine Reaches.loop (op := .romix lane) (ph := .mix) (next := fun a => a.goto (.romix lane) .copyOut) (by omega)
    (fun i a => (quiet_romixMix r a).1) fun i a _ ha => Reaches.moveFrom (by rw [ha.status, hbusy]) ?_
  have haN : (a.goto (.romix lane) (.mix i)).pN = n := (State.pN_congr ha.regs).trans hN
  have haR : (a.goto (.romix lane) (.mix i)).pR = r := (State.pR_congr ha.regs).trans hR
  rw [seqOf, seqRomix, haN, haR, ignoresPos_romixMix, goto_goto, goto_ite]

theorem reaches_romixCopyIn {lane r : Nat} (hR : s.pR = r) :
    Reaches (s.goto (.romix lane) .copyIn) ((s.romixCopyIn lane r).goto (.romix lane) (.fill 0)) := by
  refine Reaches.moveFrom hbusy ?_
  have hgoto : (s.goto (.romix lane) .copyIn).pR = r := hR
  rw [seqOf, seqRomix, hgoto, ignoresPos_romixCopyIn, goto_goto]

theorem reaches_romixCopyOut {lane r : Nat} (hR : s.pR = r) :
    Reaches (s.goto (.romix lane) .copyOut) (s.romixCopyOut lane r).complete := by
  refine Reaches.moveFrom hbusy ?_
  have hgoto : (s.goto (.romix lane) .copyOut).pR = r := hR
  rw [seqOf, seqRomix, hgoto, ignoresPos_romixCopyOut, goto_complete]

theorem reaches_romix {lane : Nat} (hchecks : checks (.romix lane) s = none) :
    Reaches (s.goto (.romix lane) .check) (effectRomix lane s).complete := by
  obtain ⟨hvalid, -⟩ := (checkRomix_eq_none_iff lane s).1 hchecks
  obtain ⟨htwo, -⟩ := (validate_eq_noError_iff _ _ _ _).1 hvalid
  have hn : s.pN ≠ 0 := by omega
  have hcopied : SameControl s (s.romixCopyIn lane s.pR) := (quiet_romixCopyIn lane s.pR s).1
  have hfilled := hcopied.trans (SameControl.loop (fun i a => (quiet_romixFill s.pR i a).1) s.pN _)
  have hmixed := hfilled.trans (SameControl.loop (fun _ a => (quiet_romixMix s.pR a).1) s.pN _)
  have hready {a : State} (ha : SameControl s a) : a.status.busy = true ∧ a.pN = s.pN ∧ a.pR = s.pR :=
    ⟨by rw [ha.status, hbusy], State.pN_congr ha.regs, State.pR_congr ha.regs⟩
  obtain ⟨hbusy1, hN1, hR1⟩ := hready hcopied
  obtain ⟨hbusy2, hN2, hR2⟩ := hready hfilled
  obtain ⟨hbusy3, -, hR3⟩ := hready hmixed
  exact (reaches_first hbusy rfl hchecks).trans <| (reaches_romixCopyIn hbusy rfl).trans <|
    (reaches_romixFills hbusy1 hN1 hR1 hn).trans <| (reaches_romixMixes hbusy2 hN2 hR2 hn).trans <|
    reaches_romixCopyOut hbusy3 hR3

/-- One output block: its MAC calls, one in each position, and `T_i` stored after the last. -/
theorem reaches_pbkdf2Block {op : Instr} {src dst : Space} (hop : seqOf op = seqPbkdf2 op src dst) {c outLen : Nat}
    (hC : s.pIter = c) (hL : s.pOlen = outLen) (hc : c ≠ 0) (i : Nat) :
    Reaches (s.goto op (.blocks i 1))
      (if i + 1 ≤ outBlocks outLen then (s.pbkdf2Block src dst c outLen i).goto op (.blocks (i + 1) 1)
       else (s.pbkdf2Block src dst c outLen i).complete) := by
  rw [← store_loop_pbkdf2Turn src dst hc]
  refine Reaches.loop (op := op) (ph := fun t => .blocks i (t + 1)) (body := pbkdf2Turn src i)
    (next := fun a => if i + 1 ≤ outBlocks outLen then (a.pbkdf2Store dst outLen i).goto op (.blocks (i + 1) 1)
       else (a.pbkdf2Store dst outLen i).complete) (Nat.pos_of_ne_zero hc)
    (sameControl_pbkdf2Turn src i) fun t a _ ha => Reaches.moveFrom (by rw [ha.status, hbusy]) ?_
  have haC : (a.goto op (.blocks i (t + 1))).pIter = c := (State.pIter_congr ha.regs).trans hC
  have haL : (a.goto op (.blocks i (t + 1))).pOlen = outLen := (State.pOlen_congr ha.regs).trans hL
  have hturn : (if t + 1 = 1 then (a.goto op (.blocks i (t + 1))).pbkdf2First src i
      else (a.goto op (.blocks i (t + 1))).pbkdf2Next) = (pbkdf2Turn src i t a).goto op (.blocks i (t + 1)) := by
    rw [← ignoresPos_pbkdf2Turn, pbkdf2Turn]; simp only [Nat.add_eq_right]
  rw [hop, seqPbkdf2]
  simp only [haC, haL, hturn, goto_goto, ignoresPos_pbkdf2Store _ _ _ _ _ _, goto_complete, Nat.succ_le_iff]

/-- The blocks of PBKDF2, of which there is none when OLEN is 0 (R177). -/
theorem reaches_pbkdf2 {op : Instr} {src dst : Space} (hop : seqOf op = seqPbkdf2 op src dst)
    (hcheck : checks op = checkPbkdf2 src dst) (hchecks : checks op s = none) :
    Reaches (s.goto op .check) (effectPbkdf2 src dst s).complete := by
  obtain ⟨-, hc, -⟩ := (checkPbkdf2_eq_none_iff src dst s).1 (hcheck ▸ hchecks)
  have hmove : seqOf op .check (s.goto op .check) =
      if 1 ≤ outBlocks s.pOlen then s.goto op (.blocks 1 1) else s.complete := by
    have hL : (s.goto op .check).pOlen = s.pOlen := rfl
    rw [hop, seqPbkdf2, checks_goto, hchecks, hL, goto_goto, goto_complete]
  have hfirst := Reaches.moveFrom hbusy hmove
  by_cases hl : 1 ≤ outBlocks s.pOlen
  · rw [if_pos hl] at hfirst
    refine hfirst.trans ?_
    refine Reaches.loop (op := op) (ph := fun k => .blocks (k + 1) 1) (next := State.complete) hl
      (fun k a => sameControl_pbkdf2Block src dst s.pIter s.pOlen (k + 1) a) fun k a _ ha => ?_
    exact reaches_pbkdf2Block (by rw [ha.status, hbusy]) hop (State.pIter_congr ha.regs) (State.pOlen_congr ha.regs) hc
      (k + 1)
  · have hzero : outBlocks s.pOlen = 0 := by omega
    rw [if_neg hl] at hfirst
    rwa [effectPbkdf2, State.pbkdf2, hzero, loop_zero]

/-- MACKEY, VALID and CLRERR do all their work in EXEC. -/
theorem reaches_exec {op : Instr} {effect : State → State} (hop : seqOf op = seqExec op effect)
    (heffect : IgnoresPos effect) (hchecks : checks op s = none) :
    Reaches (s.goto op .check) (effect s).complete :=
  (reaches_first hbusy (congrFun hop _) hchecks).trans <|
    Reaches.moveFrom hbusy (by rw [hop, seqExec, heffect, goto_complete])

/-- Every command whose checks pass. -/
theorem reaches_effects {i : Instr} (hchecks : checks i s = none) :
    Reaches (s.goto i .check) (effects i s).complete := by
  cases i with
  | salsa k => exact reaches_salsa hbusy hchecks
  | bmix => exact reaches_bmix hbusy hchecks
  | romix lane => exact reaches_romix hbusy hchecks
  | pbkdf2SB => exact reaches_pbkdf2 hbusy rfl rfl hchecks
  | pbkdf2SDk => exact reaches_pbkdf2 hbusy rfl rfl hchecks
  | pbkdf2BDk => exact reaches_pbkdf2 hbusy rfl rfl hchecks
  | mackey => exact reaches_exec hbusy rfl (fun _ _ _ => rfl) hchecks
  | valid => exact reaches_exec hbusy rfl (fun _ _ _ => rfl) hchecks
  | clrerr => exact reaches_exec hbusy rfl (fun _ _ _ => rfl) hchecks

/-- Every command raises in CHECK. -/
theorem reaches_raise {i : Instr} {code : ErrCode} (hchecks : checks i s = some code) :
    Reaches (s.goto i .check) (s.raise code) := by
  refine Reaches.moveFrom hbusy ?_
  have hgoto : checks i (s.goto i .check) = some code := (checks_goto i i .check s).trans hchecks
  cases i <;> simp only [seqOf, seqSalsa, seqBmix, seqRomix, seqPbkdf2, seqExec, seqCheck, hgoto, goto_raise]

end commands

/-- A command that is not ignored, taken position by position. -/
theorem reaches_exec_end {i : Instr} {s : State} (hrun : s.status.err = false ∨ i = .clrerr) :
    ∃ t, exec i s = .next t ∧ Reaches (s.begin.goto i .check) t := by
  by_cases hclrerr : i = .clrerr
  · subst hclrerr
    exact ⟨_, exec_clrerr s, reaches_effects (s := s.begin) rfl rfl⟩
  have herr : s.status.err = false := hrun.resolve_right hclrerr
  rw [exec_eq_runCommand hclrerr]
  cases hc : checks i s with
  | none => exact ⟨_, runCommand_completes herr hc, reaches_effects rfl ((checks_begin i s).trans hc)⟩
  | some code => exact ⟨_, runCommand_raises herr hc, reaches_raise (s := s.begin) rfl ((checks_begin i s).trans hc)⟩

/-- A CMD write that is not ignored starts its command in CHECK, or raises at once (R96). -/
theorem cmdStart_legal {s : State} {w : Word} {i : Instr} (hrun : s.status.err = false ∨ w = 0x00000007#32)
    (hd : decode w = .instr i) : s.cmdStart w = .next (s.begin.goto i .check) := by
  rw [State.cmdStart, if_neg (by rcases hrun with herr | hw <;> simp [*]), hd]

theorem cmdStart_illegal {s : State} {w : Word} {why : IllegalWord} (herr : s.status.err = false)
    (hd : decode w = .illegal why) : s.cmdStart w = .next (s.raise .illegalCommand) := by
  rw [State.cmdStart, if_neg (by simp [herr]), hd, State.begin_raise]

theorem cmdStart_ignored {s : State} {w : Word} (herr : s.status.err = true) (hw : w ≠ 0x00000007#32) :
    s.cmdStart w = .next s := by rw [State.cmdStart, if_pos (by simp [herr, hw])]

/-- A CMD write as one transition and position by position. -/
theorem cmdWrite_cmdStart (s : State) (w : Word) :
    ∃ t u, s.cmdWrite w = .next t ∧ s.cmdStart w = .next u ∧ Reaches u t := by
  by_cases hrun : s.status.err = false ∨ w = 0x00000007#32
  · cases hd : decode w with
    | illegal why =>
      have hw : w ≠ 0x00000007#32 := by rintro rfl; cases hd
      have herr := hrun.resolve_right hw
      exact ⟨_, _, (cmdWrite_illegal hd s).trans (runCommand_raises herr rfl), cmdStart_illegal herr hd, Reaches.refl _⟩
    | instr i =>
      have hcommand : s.status.err = false ∨ i = .clrerr :=
        hrun.imp_right fun hw => Decoded.instr.inj (hd.symm.trans ((decode_eq_clrerr_iff w).2 hw))
      obtain ⟨t, hexec, hreach⟩ := reaches_exec_end hcommand
      exact ⟨t, _, (cmdWrite_legal hd s).trans hexec, cmdStart_legal hrun hd, hreach⟩
  · obtain ⟨herr, hw⟩ := not_or.1 hrun
    rw [Bool.not_eq_false] at herr
    exact ⟨s, s, cmdWrite_ignored herr hw, cmdStart_ignored herr hw, Reaches.refl s⟩

/-- Settles O54: a word that is ignored or illegal ends at the CMD write in both machines, and a legal one by
`reaches_exec_end`. -/
theorem sequencerReachesTheCommandsEndState : Obligations.SequencerReachesTheCommandsEndState := by
  intro s w _ _
  obtain ⟨t, u, hcmd, hstart, n, hreach, hbusy⟩ := cmdWrite_cmdStart s w
  exact ⟨t, u, n, hcmd, hstart, hreach, hbusy⟩

end Sys2Proof.Machine
end

section
/-! PROOF. The buffer bytes the host reads and writes (`spec/20_memory.md` R60, R68). -/

namespace Sys2Proof.Machine

/-- A byte written changes the place it stands at and no other. -/
theorem sameBytesOutside_writeByte (s : State) (sp : Space) (off : Nat) (v : Byte) :
    SameBytesOutside (Place sp off 1) s (s.writeByte sp off v) := by
  intro sp' a hplace
  have hother : ¬ (sp' = sp ∧ a = off) := fun ⟨hsp, ha⟩ => hplace ⟨hsp, by omega, by omega⟩
  rw [State.readByte_writeByte, if_neg hother]

/-- Not BUSY, an access to a byte that the space does not have faults. -/
theorem whenIdle_whenInside_outside {s : State} (hbusy : s.status.busy = false) {sp : Space} {off : Nat}
    (h : s.cfg.cap sp ≤ off) (o : Host.Outcome State Fault Refusal) :
    whenIdle s (whenInside s sp off o) = .fault (.bufferOffsetOutsideSpace sp off) := by
  rw [whenIdle_of_idle hbusy, whenInside, if_neg (Nat.not_lt.2 h)]

/-- Settles O46: `whenInside` decides between the byte access and the fault, and a write is `writeByte`. -/
theorem bufferBytesReadBack : Obligations.BufferBytesReadBack := by
  intro s rest sp off v hbusy
  have hbusy' : ({ s with port := rest } : State).status.busy = false := hbusy
  refine ⟨fun hport hin => ⟨State.writeByte { s with port := rest } sp off v, ?step, ?same, ?others, rfl⟩, ?read,
    ?outside⟩
  case step => exact (step_of_port_cons hport).trans (whenIdle_whenInside hbusy' hin _)
  case same => rw [State.readByte_writeByte, if_pos ⟨rfl, rfl⟩]
  case others => exact sameBytesOutside_writeByte { s with port := rest } sp off v
  case read => exact fun hport hin => (step_of_port_cons hport).trans (whenIdle_whenInside hbusy' hin _)
  case outside =>
    rintro (hport | hport) hout
    · exact (step_of_port_cons hport).trans (whenIdle_whenInside_outside hbusy' hout _)
    · exact (step_of_port_cons hport).trans (whenIdle_whenInside_outside hbusy' hout _)

end Sys2Proof.Machine
end

section
/-! PROOF. The statements of the command encoding (`spec/30_encoding.md` R90 to R95, R98, R101): a word decodes to an
instruction exactly when its two fields are those of the instruction, and all five follow from that. -/

namespace Sys2Proof.Machine

/-! ### The decoder by the fields of the word -/

/-- The word whose fields are those of an instruction is legal and means that instruction (R92, R93). -/
theorem decode_of_fields {w : Word} {i : Instr} (hop : opField w = BitVec.ofNat 8 i.op)
    (harg : (argField w).toNat = i.arg) : decode w = .instr i := by
  have hfield : argField w = BitVec.ofNat 24 i.arg := by rw [← harg, BitVec.ofNat_toNat, BitVec.setWidth_eq]
  cases i with
  | salsa k => rw [decode, hop, harg]; rfl
  | romix lane => rw [decode, hop, harg]; rfl
  | _ => rw [decode, hop, hfield]; rfl

theorem decode_eq_instr_iff {w : Word} {i : Instr} :
    decode w = .instr i ↔ (opField w).toNat = i.op ∧ (argField w).toNat = i.arg := by
  refine ⟨fields_of_decode, fun ⟨hop, harg⟩ => decode_of_fields ?_ harg⟩
  rw [← hop, BitVec.ofNat_toNat, BitVec.setWidth_eq]

/-! ### Decoder and encoder -/

/-- An instruction is well-formed when its operand fits the field `arg` (R91). -/
theorem wellFormed_iff_arg_lt (i : Instr) : i.wellFormed = true ↔ i.arg < 2 ^ 24 := by
  cases i with
  | salsa k => exact decide_eq_true_iff
  | romix lane => exact decide_eq_true_iff
  | _ => decide

/-- R91, R98: the word of a well-formed instruction has its operation code and its operand in the two fields. -/
theorem fields_of_encode (i : Instr) : Laws.EncodedFields.Statement i := by
  cases i with
  | salsa k => exact Laws.EncodedFields.salsa k
  | bmix => exact Laws.EncodedFields.bmix
  | romix lane => exact Laws.EncodedFields.romix lane
  | pbkdf2SB => exact Laws.EncodedFields.pbkdf2SB
  | pbkdf2SDk => exact Laws.EncodedFields.pbkdf2SDk
  | pbkdf2BDk => exact Laws.EncodedFields.pbkdf2BDk
  | mackey => exact Laws.EncodedFields.mackey
  | valid => exact Laws.EncodedFields.valid
  | clrerr => exact Laws.EncodedFields.clrerr

/-- Settles O3: the encoding has the fields of the instruction, and the decoder reads no more than those. -/
theorem decodeOfEncodeGivesTheInstruction : Obligations.DecodeOfEncodeGivesTheInstruction := by
  intro i hi
  obtain ⟨hop, harg⟩ := fields_of_encode i hi
  exact decode_of_fields hop harg

/-- Settles O4: `encode_of_decode`, and an operand read from the field `arg` fits it. -/
theorem encodeOfDecodeGivesTheWord : Obligations.EncodeOfDecodeGivesTheWord := by
  intro w i h
  obtain ⟨_, harg⟩ := fields_of_decode h
  exact ⟨encode_of_decode h, (wellFormed_iff_arg_lt i).2 (harg ▸ (argField w).isLt)⟩

/-- Settles O2: with an operand, the word is the encoding of a well-formed form, so by O3 it decodes to that form; the
eleven words of the table that are written out are evaluated. -/
theorem everyLegalFormHasItsWord : Obligations.EveryLegalFormHasItsWord := by
  refine ⟨fun k hk => ⟨rfl, ?salsa⟩, fun lane hlane => ⟨rfl, ?romix⟩, ?table⟩
  case salsa => exact decodeOfEncodeGivesTheInstruction (.salsa k) ((wellFormed_iff_arg_lt _).2 hk)
  case romix => exact decodeOfEncodeGivesTheInstruction (.romix lane) ((wellFormed_iff_arg_lt _).2 hlane)
  case table => decide

/-- Settles O1: the words of R92, R93 and R101 are literals, and the decoder computes on them. -/
theorem decodesWordsOfTheOpcodeTable : Obligations.DecodesWordsOfTheOpcodeTable := by
  unfold Obligations.DecodesWordsOfTheOpcodeTable
  decide

/-! ### The illegal words (R94, R95) -/

/-- Which pairs of fields some instruction has: every operand of SALSA and ROMIX, three of PBKDF2, one of the others. -/
theorem exists_fields_iff (op arg : Nat) : (∃ i : Instr, op = i.op ∧ arg = i.arg) ↔
    op = 0x01 ∨ op = 0x03 ∨ (op = 0x04 ∧ (arg = 0 ∨ arg = 2 ∨ arg = 3)) ∨
      ((op = 0x02 ∨ op = 0x05 ∨ op = 0x06 ∨ op = 0x07) ∧ arg = 0) := by
  constructor
  · rintro ⟨i, rfl, rfl⟩
    cases i <;> simp [Instr.op, Instr.arg]
  · rintro (rfl | rfl | ⟨rfl, rfl | rfl | rfl⟩ | ⟨rfl | rfl | rfl | rfl, rfl⟩)
    · exact ⟨.salsa arg, rfl, rfl⟩
    · exact ⟨.romix arg, rfl, rfl⟩
    · exact ⟨.pbkdf2SB, rfl, rfl⟩
    · exact ⟨.pbkdf2SDk, rfl, rfl⟩
    · exact ⟨.pbkdf2BDk, rfl, rfl⟩
    · exact ⟨.bmix, rfl, rfl⟩
    · exact ⟨.mackey, rfl, rfl⟩
    · exact ⟨.valid, rfl, rfl⟩
    · exact ⟨.clrerr, rfl, rfl⟩

theorem decode_illegal_iff (w : Word) : (∃ why, decode w = .illegal why) ↔ ¬ ∃ i, decode w = .instr i := by
  cases decode w <;> simp

/-- A word is illegal when no instruction has its fields. -/
theorem decode_illegal_iff_fields (w : Word) : (∃ why, decode w = .illegal why) ↔
    ¬ ∃ i : Instr, w.toNat % 2 ^ 8 = i.op ∧ w.toNat / 2 ^ 8 = i.arg := by
  have hw := toNat_eq_fields w
  have hop : (opField w).toNat = w.toNat % 2 ^ 8 := by omega
  have harg : (argField w).toNat = w.toNat / 2 ^ 8 := by omega
  simp only [decode_illegal_iff, decode_eq_instr_iff, hop, harg]

/-- R95: writing an illegal word to CMD while ERR is 0 raises ILLEGAL_COMMAND. -/
theorem step_illegalWord {w : Word} {why : IllegalWord} {s : State} {rest : List HostAccess}
    (hd : decode w = .illegal why) (hport : s.port = .regWrite 0x00 w :: rest) (hbusy : s.status.busy = false)
    (herr : s.status.err = false) : step s = .next (State.raise { s with port := rest } .illegalCommand) := by
  rw [step_cmdWrite hport hbusy, cmdWrite_illegal hd]
  exact runCommand_raises herr rfl

/-- Settles O5: the words whose fields no instruction has, and the raise, which only clears DONE and sets ERR and ERRCODE
in a state that is idle and not BUSY. -/
theorem illegalWordsRaiseIllegalCommand : Obligations.IllegalWordsRaiseIllegalCommand := by
  refine ⟨fun w => ?words, fun w why s rest hd hport hbusy herr hidle => ?effect, rfl⟩
  case words =>
    rw [decode_illegal_iff_fields, exists_fields_iff]
    omega
  case effect =>
    rw [step_illegalWord hd hport hbusy herr, State.raise, Status.raise, ← hbusy, ← hidle]

end Sys2Proof.Machine
end

section
/-! PROOF. The Salsa20/8 core and the command SALSA (`spec/40_salsa20_8.md` R110 to R124). -/

namespace Sys2Proof.Machine

/-! ### One step (R114) -/

theorem getElem_quarterStep (x : Vector Word 16) (q : QuarterStep) (i : Nat) (hi : i < 16) :
    (quarterStep x q)[i] = if q.t.val = i then x[q.t] ^^^ rotl32 (add32 x[q.a] x[q.b]) q.n else x[i] :=
  Vector.getElem_set q.t.isLt hi

/-- The word a step writes is none of the two it adds. -/
def QuarterStep.Distinct (q : QuarterStep) : Prop := q.t ≠ q.a ∧ q.t ≠ q.b

theorem distinct_of_mem_doubleRound : ∀ q ∈ columnSteps ++ rowSteps, q.Distinct := by
  unfold QuarterStep.Distinct
  decide

/-- A step XORs a word with a value that the other words give, so repeating it takes the value out again (R123). -/
theorem quarterStep_quarterStep {q : QuarterStep} (hq : q.Distinct) (x : Vector Word 16) :
    quarterStep (quarterStep x q) q = x := by
  obtain ⟨hta, htb⟩ := hq
  have hother {i : Fin 16} (hi : q.t ≠ i) : (quarterStep x q)[i] = x[i] :=
    (getElem_quarterStep x q _ i.isLt).trans (if_neg fun h => hi (Fin.ext h))
  have ht : (quarterStep x q)[q.t] = x[q.t] ^^^ rotl32 (add32 x[q.a] x[q.b]) q.n :=
    (getElem_quarterStep x q _ q.t.isLt).trans (if_pos rfl)
  apply Vector.ext
  intro i hi
  rw [getElem_quarterStep, hother hta, hother htb, ht, BitVec.xor_assoc, BitVec.xor_self, BitVec.xor_zero, getElem_quarterStep]
  split
  case isTrue h => subst h; rfl
  case isFalse => rfl

/-! ### From the steps to the network (R117) -/

section network
variable {P : (Vector Word 16 → Vector Word 16) → Prop} (hid : P id) (hcomp : ∀ f g, P f → P g → P (f ∘ g))
include hid hcomp

theorem runSteps_of_steps {qs : List QuarterStep} (hstep : ∀ q ∈ qs, P (quarterStep · q)) : P (runSteps qs) := by
  induction qs with
  | nil => exact hid
  | cons q qs ih => exact hcomp (runSteps qs) (quarterStep · q) (ih fun q' h => hstep q' (.tail q h)) (hstep q (.head qs))

/-- A property of functions that composition keeps and every step of a double-round has, the round network has. -/
theorem roundNetwork_of_steps (hstep : ∀ q ∈ columnSteps ++ rowSteps, P (quarterStep · q)) : P roundNetwork := by
  rw [List.forall_mem_append] at hstep
  obtain ⟨hcolumn, hrow⟩ := hstep
  have hdouble : P doubleRound := by
    have hrounds : doubleRound = runSteps rowSteps ∘ runSteps columnSteps := funext fun x => by rw [doubleRound, Function.comp_apply]
    rw [hrounds]
    exact hcomp (runSteps rowSteps) (runSteps columnSteps) (runSteps_of_steps (P := P) hid hcomp hrow)
      (runSteps_of_steps (P := P) hid hcomp hcolumn)
  have hloop (n : Nat) : P (loop (fun _ => doubleRound) n) := by
    induction n with
    | zero => exact hid
    | succ n ih => exact hcomp doubleRound _ hdouble ih
  have hnetwork : roundNetwork = loop (fun _ => doubleRound) 4 := funext fun x => by rw [roundNetwork]
  exact hnetwork ▸ hloop 4

end network

theorem roundNetwork_bijective : Function.Bijective roundNetwork :=
  roundNetwork_of_steps Function.bijective_id (fun _ _ => Function.Bijective.comp) fun q hq =>
    Function.Involutive.bijective (quarterStep_quarterStep (distinct_of_mem_doubleRound q hq))

/-- A map of word states that commutes with every step commutes with the network. -/
theorem roundNetwork_commute {f : Vector Word 16 → Vector Word 16}
    (hf : ∀ x q, f (quarterStep x q) = quarterStep (f x) q) (x : Vector Word 16) :
    f (roundNetwork x) = roundNetwork (f x) :=
  roundNetwork_of_steps (P := Function.Commute f) Function.Commute.id_right (fun _ _ => .comp_right) (fun q _ x => hf x q) x

/-- R118, R119: the core on a block given by its words. -/
theorem salsa20_8_wordsBlock (x : Vector Word 16) : salsa20_8 (wordsBlock x) = feedForward x (roundNetwork x) := by
  rw [salsa20_8, blockWords_wordsBlock]

/-! ### Complemented top bits (R123) -/

/-- Complementing bit 31 is adding `2^31`: the carry out of bit 31 is dropped. -/
theorem xor_topBit (w : Word) : w ^^^ 0x80000000#32 = w + 0x80000000#32 := by
  apply BitVec.eq_of_toNat_eq
  have hlow : (w.toNat ^^^ 2 ^ 31) % 2 ^ 31 = w.toNat % 2 ^ 31 := by
    rw [Nat.xor_mod_two_pow, Nat.mod_self, Nat.xor_zero]
  have htop : (w.toNat ^^^ 2 ^ 31) / 2 ^ 31 = (w.toNat / 2 ^ 31 + 1) % 2 := by
    have hbit : w.toNat / 2 ^ 31 < 2 := by omega
    rw [Nat.xor_div_two_pow]
    interval_cases w.toNat / 2 ^ 31 <;> rfl
  have htoNat : (0x80000000#32).toNat = 2 ^ 31 := rfl
  rw [BitVec.toNat_xor, BitVec.toNat_add, htoNat]
  omega

/-- Two complemented top bits cancel in a sum. -/
theorem add32_topBits (a b : Word) : add32 (a ^^^ 0x80000000#32) (b ^^^ 0x80000000#32) = add32 a b := by
  rw [xor_topBit, xor_topBit, add32, add32]
  bv_omega

@[simp] theorem getElem_flipTops (x : Vector Word 16) (i : Nat) (hi : i < 16) :
    (flipTops x)[i] = x[i] ^^^ 0x80000000#32 := Vector.getElem_map ..

theorem flipTops_quarterStep (x : Vector Word 16) (q : QuarterStep) :
    flipTops (quarterStep x q) = quarterStep (flipTops x) q := by
  apply Vector.ext
  intro i hi
  simp only [getElem_flipTops, getElem_quarterStep, Fin.getElem_fin, add32_topBits]
  split
  case isTrue => rw [BitVec.xor_assoc, BitVec.xor_comm _ 0x80000000#32, ← BitVec.xor_assoc]
  case isFalse => rfl

theorem feedForward_flipTops (x y : Vector Word 16) : feedForward (flipTops x) (flipTops y) = feedForward x y := by
  rw [feedForward, feedForward]
  congr 1
  apply Vector.ext
  intro i hi
  simp only [Vector.getElem_zipWith, getElem_flipTops, add32_topBits]

theorem salsa20_8_flipTops (x : Vector Word 16) : salsa20_8 (wordsBlock (flipTops x)) = salsa20_8 (wordsBlock x) := by
  rw [salsa20_8_wordsBlock, salsa20_8_wordsBlock, ← roundNetwork_commute flipTops_quarterStep, feedForward_flipTops]

/-- The words 0 and the words `0x80000000` give one output. -/
theorem not_injective_salsa20_8 : ¬ Function.Injective salsa20_8 := by
  intro hinj
  have hblocks := hinj (salsa20_8_flipTops (Vector.replicate 16 0#32))
  have hwords := congrArg blockWords hblocks
  rw [blockWords_wordsBlock, blockWords_wordsBlock] at hwords
  have hfirst := congrArg (·[0]) hwords
  simp at hfirst

/-- Settles O15: each step takes its own XOR out again, so the network is a composition of bijections; flipped top bits
commute with every step and cancel in the feed-forward. -/
theorem roundsAreABijectionTheCoreIsNot : Obligations.RoundsAreABijectionTheCoreIsNot :=
  ⟨fun q hq => quarterStep_quarterStep (distinct_of_mem_doubleRound q hq), roundNetwork_bijective, salsa20_8_flipTops,
    not_injective_salsa20_8⟩

/-! ### The command (R110) -/

/-- The named block after SALSA. -/
theorem effectSalsa_readBytes (k : Nat) (s : State) : (effectSalsa k s).readBytes .xy (xBlockOff k) 64 =
    (salsa20_8 (s.readBlock .xy (xBlockOff k))).toList := by
  have h := State.readBytes_eq_of_getD (s := effectSalsa k s) (sp := .xy) (off := xBlockOff k)
    (vs := (salsa20_8 (s.readBlock .xy (xBlockOff k))).toList)
  rw [Vector.length_toList] at h
  refine h fun j hj => ?_
  rw [effectSalsa_readByte, if_pos ⟨rfl, by omega, by omega⟩, Nat.add_sub_cancel_left]

/-- Settles O11: the checks pass, so the command is its effect, whose memory, control part, MAC and working registers
the laws of `effectSalsa` give. -/
theorem salsaAppliesTheCoreInPlace : Obligations.SalsaAppliesTheCoreInPlace := by
  intro k s herr hr hk hcap
  have hchecks : checks (.salsa k) s = none := (checkSalsa_eq_none_iff k s).2 ⟨hr, hk, hcap⟩
  refine ⟨(effectSalsa k s.begin).complete, ?next, ?block, ?bytes, ?frame, ?work⟩
  case next => exact runCommand_completes herr hchecks
  case block => rw [complete_readBytes, effectSalsa_readBytes, begin_readBlock]
  case bytes =>
    intro sp a houtside
    exact (complete_readByte _ sp a).trans ((effectSalsa_readByte k s.begin sp a).trans (if_neg houtside))
  case frame => exact completedFrame_of_sameControl (sameControl_effectSalsa k s.begin) (effectSalsa_mac k s.begin)
  case work => rw [State.complete_work, effectSalsa_work, State.begin_work]

/-- Settles O12: the rows of the table of checks, each reached when those before it do not fail. -/
theorem salsaRaisesInOrder : Obligations.SalsaRaisesInOrder := by
  intro k s herr
  have hraise {code : ErrCode} (hc : checkSalsa k s = some code) : exec (.salsa k) s = .next (s.raise code) :=
    runCommand_raises herr hc
  refine ⟨fun hr => hraise ?zero, fun hr hk => hraise ?index, fun hr hk hcap => hraise ?capacity⟩
  case zero => simp [checkSalsa, firstFailure_cons, hr]
  case index => simp [checkSalsa, firstFailure_cons, hr, hk]
  case capacity => simp [checkSalsa, firstFailure_cons, hr, hk, hcap]

/-! ### The all-zero block (R121) -/

/-- With every word 0 the rotated sum is 0, and so is its XOR with 0. -/
theorem quarterStep_zero (q : QuarterStep) :
    quarterStep (Vector.replicate 16 0#32) q = Vector.replicate 16 0#32 := by
  apply Vector.ext
  intro i hi
  simp [getElem_quarterStep, add32, rotl32]

theorem roundNetwork_zero : roundNetwork (Vector.replicate 16 0#32) = Vector.replicate 16 0#32 :=
  (roundNetwork_commute (f := fun _ => Vector.replicate 16 0#32) (fun _ q => (quarterStep_zero q).symm) default).symm

/-- Settles O13: the words are 0, the network leaves them 0, and the feed-forward adds 0 to 0. -/
theorem zeroBlockIsFixed : Obligations.ZeroBlockIsFixed := by
  have hzero : wordsBlock (Vector.replicate 16 0#32) = Vector.replicate 64 0#8 := by decide
  rw [Obligations.ZeroBlockIsFixed, ← hzero, salsa20_8_wordsBlock, roundNetwork_zero, feedForward,
    Vector.zipWith_replicate, add32, BitVec.add_zero]

/-! ### Values of the core (R122, R124) -/

/-- V2.6: the core applied twice to `00 01 .. 3f` begins with `10`. -/
theorem getElem_salsa20_8_twice :
    (salsa20_8 (salsa20_8 (Vector.ofFn fun i => BitVec.ofNat 8 i.val)))[0] = 0x10#8 := by
  decide +kernel

/-- Settles O14: the first byte, which was `00`, is `10` after two applications (V2.6); the all-zero block is fixed. -/
theorem coreIsNotSelfInverse : Obligations.CoreIsNotSelfInverse := by
  refine ⟨fun hback => ?_, ?_⟩
  · have hfirst := getElem_salsa20_8_twice
    rw [hback] at hfirst
    revert hfirst
    decide
  · have hzero : salsa20_8 (Vector.replicate 64 0#8) = Vector.replicate 64 0#8 := zeroBlockIsFixed
    rw [hzero, hzero]

/-- The first word of a block, as bytes. -/
theorem take_four_wordsBlock (x : Vector Word 16) :
    (wordsBlock x).toList.take 4 = (List.range 4).map (byteOf x[0]) := by
  apply List.ext_getElem (by simp)
  intro j h1 h2
  have hj : j < 4 := by simpa using h2
  rw [List.getElem_take, Vector.getElem_toList, List.getElem_map, List.getElem_range,
    wordsBlock_getElem_word x (i := 0) (by decide) hj (by omega)]

/-- R124: word 0 is 1, the other words are 0. -/
def exampleWords : Vector Word 16 := Vector.ofFn fun i => if i.val = 0 then 1#32 else 0#32

theorem exampleWords_firstSteps :
    let x4 := runSteps (columnSteps.take 4) exampleWords
    (x4[4] = 0x00000080#32 ∧ x4[8] = 0x00010200#32 ∧ x4[12] = 0x20500000#32 ∧ x4[0] = 0x08008145#32) ∧
    rotl32 (add32 x4[12] x4[8]) 18 = 0x08008144#32 := by
  decide +kernel

/-- V2.2: word 0 after the fourth double-round. -/
theorem exampleWords_network : (roundNetwork exampleWords)[0] = 0x72e9e959#32 := by
  decide +kernel

/-- The feed-forward adds the input word 1. -/
theorem exampleWords_output : (salsa20_8 (wordsBlock exampleWords)).toList.take 4 = [0x5a#8, 0xe9#8, 0xe9#8, 0x72#8] := by
  have hinput : exampleWords[0] = 1#32 := by rw [exampleWords, Vector.getElem_ofFn]; rfl
  rw [salsa20_8_wordsBlock, feedForward, take_four_wordsBlock, Vector.getElem_zipWith, hinput, exampleWords_network]
  decide

/-- Settles O16: the first steps and the network are evaluated, and the output bytes are those of the sum of R118. -/
theorem workedExampleOfTheCore : Obligations.WorkedExampleOfTheCore := by
  obtain ⟨hsteps, hrotated⟩ := exampleWords_firstSteps
  exact ⟨hsteps, hrotated, exampleWords_network, exampleWords_output⟩

end Sys2Proof.Machine
end

section
/-! PROOF. The command BMIX (`spec/41_blockmix.md` R130 to R133). -/

namespace Sys2Proof.Machine

/-- Block `k` of the mixed X region: the even outputs in order, then the odd ones (R133). -/
theorem blockAt_blockMixX {r k : Nat} (bs : List Byte) (hk : k < 2 * r) :
    blockAt (blockMixX r bs) k = mixBlock r bs (if k < r then 2 * k else 2 * (k - r) + 1) := by
  apply vec_ext_getD
  intro j hj
  have hdiv : (64 * k + j) / 64 = k := by omega
  have hmod : (64 * k + j) % 64 = j := by omega
  rw [blockAt, getD_toList_ofFn _ hj, getD_blockMixX r bs (by rw [slotLen]; omega), hdiv, hmod]

/-- Settles O17: the checks pass, so the command is BlockMix, whose two regions, frame and working registers the laws of
`State.blockMix` give. -/
theorem bmixComputesBlockMix : Obligations.BmixComputesBlockMix := by
  refine ⟨fun s herr hr hcap => ?command, fun r k bs hk => blockAt_blockMixX bs hk⟩
  have hchecks : checks .bmix s = none := (checkBmix_eq_none_iff s).2 ⟨hr, hcap⟩
  obtain ⟨hcontrol, hmac⟩ := quiet_blockMix s.pR s.begin
  refine ⟨(s.begin.blockMix s.pR).complete, ?next, ?xRegion, ?yRegion, ?bytes, ?frame, ?work⟩
  case next => exact runCommand_completes herr hchecks
  case xRegion => rw [complete_readBytes, xBlockOff, Nat.mul_zero, blockMix_X hr, begin_readBytes]
  case yRegion =>
    rw [complete_readBytes, yBlockOff, xBlockOff, Nat.mul_zero, Nat.add_zero, blockMix_Y hr, begin_readBytes]
  case bytes =>
    intro sp a houtside
    have hregions : ¬ (sp = .xy ∧ a < 2 * slotLen s.pR) := fun ⟨hsp, ha⟩ => houtside ⟨hsp, a.zero_le, by omega⟩
    rw [complete_readByte, blockMix_outside hr s.begin hregions, begin_readByte]
  case frame => exact completedFrame_of_sameControl hcontrol hmac
  case work => exact WorkRegs.eq_of_notOfBlockMix (blockMix_work s.pR s.begin)

/-- Settles O18: the rows of the table of checks, each reached when those before it do not fail. -/
theorem bmixRaisesInOrder : Obligations.BmixRaisesInOrder := by
  intro s herr
  have hraise {code : ErrCode} (hc : checkBmix s = some code) : exec .bmix s = .next (s.raise code) :=
    runCommand_raises herr hc
  refine ⟨fun hr => hraise ?zero, fun hr hcap => hraise ?capacity⟩
  case zero => simp [checkBmix, firstFailure_cons, hr]
  case capacity => simp [checkBmix, firstFailure_cons, hr, hcap]

end Sys2Proof.Machine
end

section
/-! PROOF. The command ROMIX (`spec/42_romix.md` R146 to R155). -/

namespace Sys2Proof.Machine

/-! ### The slot index (R151) -/

/-- A power of two below `2^(k+1)` is at most `2^k`. -/
theorem le_two_pow_of_isPow2 {n k : Nat} (hpow : isPow2 n = true) (hlt : n < 2 ^ (k + 1)) : n ≤ 2 ^ k := by
  obtain ⟨j, rfl⟩ := exists_of_isPow2 hpow
  have hj : j < k + 1 := (Nat.pow_lt_pow_iff_right (by decide)).1 hlt
  exact Nat.pow_le_pow_right (by decide) (Nat.le_of_lt_succ hj)

theorem slotIndex_eq_integerify_mod (r : Nat) (s : State) (hpow : isPow2 s.pN = true) :
    (s.slotIndex r).toNat = (s.integerify r).toNat % s.pN := by
  rw [State.slotIndex, toNat_and_sub_one _ _ hpow, State.pN]

/-- Settles O22: the mask is the remainder, a register holds a power of two of at most `2^31`, and `128·N ≤ 2^31 − 1`
leaves at most `2^23`. -/
theorem slotIndexIsIntegerifyModN : Obligations.SlotIndexIsIntegerifyModN := by
  refine ⟨fun r s hpow => ?index, fun n r p hvalid => ?accepted⟩
  case index =>
    have hmod := slotIndex_eq_integerify_mod r s hpow
    have hpos : 0 < s.pN := Nat.pos_of_ne_zero ((isPow2_iff _).1 hpow).1
    exact ⟨hmod, hmod ▸ Nat.mod_lt _ hpos, le_two_pow_of_isPow2 hpow s.regs.n.isLt⟩
  case accepted =>
    obtain ⟨-, hpow, hr, -, hmax, -⟩ := (validate_eq_noError_iff _ _ _ _).1 hvalid
    have hn : 128 * n ≤ 128 * r * n := Nat.mul_le_mul_right n (by omega)
    exact le_two_pow_of_isPow2 hpow (by omega)

/-! ### The checks (R147) -/

/-- The two checks that ROMIX adds to those of the validator. -/
theorem checkRomix_of_validate {lane : Nat} {s : State} (hvalid : validate s.cfg.max s.pN s.pR s.pP = .noError) :
    checkRomix lane s = firstFailure
      [(decide (lane ≥ s.pP), .badIndex),
       (decide (slotLen s.pR * s.pP > s.cfg.capB) || decide (slotLen s.pR * s.pN > s.cfg.capV)
          || decide (2 * slotLen s.pR > s.cfg.capXy), .capacity)] := by
  rw [checkRomix, firstFailure_append, (firstFailure_validateRows_eq_none _ _ _ _).2 hvalid, Option.none_or]

/-- Settles O21: the validator's rows come first, then the lane, then the three capacities. -/
theorem romixRaisesInOrder : Obligations.RomixRaisesInOrder := by
  intro lane s herr
  have hraise {code : ErrCode} (hc : checkRomix lane s = some code) : exec (.romix lane) s = .next (s.raise code) :=
    runCommand_raises herr hc
  refine ⟨fun code hcode hne => hraise ?validator, fun hvalid hlane => hraise ?index,
    fun hvalid hlane hcap => hraise ?capacity⟩
  case validator =>
    rw [checkRomix, firstFailure_append, (firstFailure_validateRows_eq_some hne).2 hcode, Option.some_or]
  case index => simp [checkRomix_of_validate hvalid, firstFailure_cons, hlane]
  case capacity => simp [checkRomix_of_validate hvalid, firstFailure_cons, hlane, hcap, or_assoc]

/-! ### The command that completes (R148, R149, R153) -/

/-- ROMIX whose checks pass is ROMix on its lane. -/
theorem exec_romix {lane : Nat} {s : State} (herr : s.status.err = false) (hchecks : checkRomix lane s = none) :
    exec (.romix lane) s = .next (s.begin.romix lane s.pN s.pR).complete :=
  runCommand_completes herr hchecks

/-- What the checks of ROMIX guarantee of N and r. -/
theorem params_of_checkRomix {lane : Nat} {s : State} (hchecks : checkRomix lane s = none) :
    2 ≤ s.pN ∧ isPow2 s.pN = true ∧ s.pR ≠ 0 := by
  obtain ⟨hvalid, -⟩ := (checkRomix_eq_none_iff lane s).1 hchecks
  obtain ⟨htwo, hpow, hr, -⟩ := (validate_eq_noError_iff _ _ _ _).1 hvalid
  exact ⟨htwo, hpow, hr⟩

/-- `romix_spec` for the whole command: the lane, the table, the X region, and nothing outside the places of ROMIX. -/
theorem romixCompleted_spec {lane : Nat} {s t : State} (herr : s.status.err = false) (hchecks : checkRomix lane s = none)
    (hexec : exec (.romix lane) s = .next t) :
    let input := s.readBytes .b (laneOff s.pR lane) (slotLen s.pR)
    t.readBytes .b (laneOff s.pR lane) (slotLen s.pR) = romixLane s.pR s.pN input ∧
    (∀ i, i < s.pN → t.readBytes .v (slotOff s.pR i) (slotLen s.pR) = romixX s.pR input i) ∧
    t.readBytes .xy 0 (slotLen s.pR) = romixLane s.pR s.pN input ∧
    SameBytesOutside (RomixPlaces lane s.pN s.pR) s t ∧ CompletedFrame s t := by
  obtain ⟨-, hpow, hr⟩ := params_of_checkRomix hchecks
  obtain ⟨hlane, htable, hX, houtside⟩ := romix_spec (lane := lane) (n := s.pN) hr s.begin rfl hpow
  obtain ⟨hcontrol, hmac⟩ := quiet_romix lane s.pN s.pR s.begin
  rw [exec_romix herr hchecks] at hexec
  cases hexec
  simp only [begin_readBytes] at hlane htable hX
  simp only [complete_readBytes]
  refine ⟨hlane, htable, hX, fun sp a h => ?_, completedFrame_of_sameControl hcontrol hmac⟩
  rw [complete_readByte, houtside sp a h, begin_readByte]

/-- Settles O19: the checks pass, so the command is ROMix, whose lane, frame and working registers the laws of
`State.romix` give; the fill phase is the first of its loops. -/
theorem romixComputesROMix : Obligations.RomixComputesROMix := by
  intro lane s herr hvalid hlane hcapB hcapV hcapXy
  have hchecks := (checkRomix_eq_none_iff lane s).2 ⟨hvalid, hlane, hcapB, hcapV, hcapXy⟩
  obtain ⟨-, -, hr⟩ := params_of_checkRomix hchecks
  have hexec := exec_romix herr hchecks
  obtain ⟨hresult, -, -, houtside, hframe⟩ := romixCompleted_spec herr hchecks hexec
  obtain ⟨hX, hV, -⟩ := romixFills_spec hr (s.romixCopyIn lane s.pR) s.pN
  rw [romixCopyIn_X] at hX hV
  exact ⟨_, hexec, hresult, houtside, hframe, WorkRegs.eq_of_notOfRomix (romix_work lane s.pN s.pR s.begin), hV, hX⟩

/-- Settles O20: the table and the X region are those of `romixCompleted_spec`; N is not 0, so there is a last
BlockMix, whose buffer `romix_Y` gives. -/
theorem romixLeavesItsTable : Obligations.RomixLeavesItsTable := by
  intro lane s t herr hvalid hlane hcapB hcapV hcapXy hexec input last
  have hchecks := (checkRomix_eq_none_iff lane s).2 ⟨hvalid, hlane, hcapB, hcapV, hcapXy⟩
  obtain ⟨htwo, hpow, hr⟩ := params_of_checkRomix hchecks
  obtain ⟨hresult, htable, hX, -⟩ := romixCompleted_spec herr hchecks hexec
  refine ⟨htable, hX.trans hresult.symm, ?yRegion⟩
  have hN : s.pN - 1 + 1 = s.pN := by omega
  have hY := romix_Y (lane := lane) (n := s.pN - 1) hr s.begin hN.symm (hN.symm ▸ hpow)
  rw [hN, begin_readBytes] at hY
  rw [exec_romix herr hchecks] at hexec
  cases hexec
  exact (complete_readBytes _ _ _ _).trans hY

/-! ### Lanes (R155) -/

/-- No byte of B is in two lanes. -/
theorem eq_of_mem_lanes {r i j a : Nat} (hi : Place .b (laneOff r i) (slotLen r) .b a)
    (hj : Place .b (laneOff r j) (slotLen r) .b a) : i = j := by
  have lane_eq {k : Nat} (hk : Place .b (laneOff r k) (slotLen r) .b a) : a / slotLen r = k := by
    obtain ⟨-, hlow, hhigh⟩ := hk
    exact Nat.div_eq_of_lt_le hlow (by rwa [laneOff, ← Nat.succ_mul] at hhigh)
  rw [← lane_eq hi, lane_eq hj]

theorem place_lane (r i : Nat) {k : Nat} (hk : k < slotLen r) :
    Place .b (laneOff r i) (slotLen r) .b (laneOff r i + k) := ⟨rfl, by omega, by omega⟩

/-- The only places of B that ROMIX writes are those of its lane. -/
theorem readByte_b_of_romixPlaces {lane n r a : Nat} {s t : State} (h : SameBytesOutside (RomixPlaces lane n r) s t)
    (ha : ¬ Place .b (laneOff r lane) (slotLen r) .b a) : t.readByte .b a = s.readByte .b a := by
  refine h .b a ?_
  rintro (hlane | ⟨hv, -⟩ | ⟨hxy, -⟩)
  · exact ha hlane
  · cases hv
  · cases hxy

/-- ROMIX leaves every other lane as it was, whatever it answers with. -/
theorem readBytes_otherLane {lane other : Nat} {s t : State} (hne : other ≠ lane)
    (hexec : exec (.romix lane) s = .next t) :
    t.readBytes .b (laneOff s.pR other) (slotLen s.pR) = s.readBytes .b (laneOff s.pR other) (slotLen s.pR) := by
  rcases exec_cases hexec with ⟨hclrerr, -⟩ | ⟨-, -, rfl⟩ | ⟨-, -, code, -, rfl⟩ | ⟨-, herr, hchecks, -⟩
  · cases hclrerr
  · rfl
  · exact State.readBytes_congr (State.raise_mem _ _) (State.raise_epoch _ _) _ _ _
  · obtain ⟨-, -, -, houtside, -⟩ := romixCompleted_spec herr hchecks hexec
    rw [State.readBytes_eq_iff]
    exact fun k hk => readByte_b_of_romixPlaces houtside fun hmem => hne (eq_of_mem_lanes (place_lane _ other hk) hmem)

/-- The checks of ROMIX read the configuration and the registers alone. -/
theorem checkRomix_congr {s t : State} (hcfg : t.cfg = s.cfg) (hregs : t.regs = s.regs) (lane : Nat) :
    checkRomix lane t = checkRomix lane s := by
  rw [checkRomix, checkRomix, hcfg, State.pN_congr hregs, State.pR_congr hregs, State.pP_congr hregs]

/-- ROMIX commands on different lanes: each lane becomes ROMix of what it was at the start, and no other byte of B
changes. -/
theorem runLanes_spec {lanes : List Nat} {s : State} (hnodup : lanes.Nodup) (herr : s.status.err = false)
    (hchecks : ∀ i ∈ lanes, checkRomix i s = none) :
    ∃ t, runLanes lanes s = some t ∧
      (∀ i ∈ lanes, t.readBytes .b (laneOff s.pR i) (slotLen s.pR) =
        romixLane s.pR s.pN (s.readBytes .b (laneOff s.pR i) (slotLen s.pR))) ∧
      ∀ a, (∀ i ∈ lanes, ¬ Place .b (laneOff s.pR i) (slotLen s.pR) .b a) → t.readByte .b a = s.readByte .b a := by
  induction lanes generalizing s with
  | nil => exact ⟨s, rfl, List.forall_mem_nil _, fun _ _ => rfl⟩
  | cons lane rest ih =>
    obtain ⟨hfresh, hrest⟩ := List.nodup_cons.1 hnodup
    obtain ⟨hlane, hlanes⟩ := List.forall_mem_cons.1 hchecks
    have hexec := exec_romix herr hlane
    generalize (s.begin.romix lane s.pN s.pR).complete = u at hexec
    obtain ⟨hresult, -, -, houtside, hframe⟩ := romixCompleted_spec herr hlane hexec
    obtain ⟨t, hrun, hmixed, hsame⟩ := ih (s := u) hrest (by rw [hframe.status, herr]) fun i hi => by
      rw [checkRomix_congr hframe.cfg hframe.regs, hlanes i hi]
    rw [State.pR_congr hframe.regs] at hmixed hsame
    rw [State.pN_congr hframe.regs] at hmixed
    refine ⟨t, by rw [runLanes, hexec]; exact hrun, ?mixed, fun a ha => ?same⟩
    case mixed =>
      rw [List.forall_mem_cons]
      refine ⟨?first, fun i hi => ?later⟩
      case first =>
        rw [← hresult, State.readBytes_eq_iff]
        exact fun k hk => hsame _ fun i hi hmem =>
          ne_of_mem_of_not_mem hi hfresh (eq_of_mem_lanes hmem (place_lane _ lane hk))
      case later =>
        rw [hmixed i hi, readBytes_otherLane (ne_of_mem_of_not_mem hi hfresh) hexec]
    case same =>
      obtain ⟨hother, hothers⟩ := List.forall_mem_cons.1 ha
      rw [hsame a hothers, readByte_b_of_romixPlaces houtside hother]

/-- Settles O23: the new lane is a function of its input, N and r; lanes are disjoint, so a command leaves the others
alone, and `runLanes_spec` says of every byte what it becomes without speaking of the order. -/
theorem lanesAreIndependent : Obligations.LanesAreIndependent := by
  refine ⟨?function, fun lane other s t hne hexec => readBytes_otherLane hne hexec, ?order⟩
  case function =>
    intro lane lane' s s' t t' herr herr' hchecks hchecks' hN hR hinput hexec hexec'
    obtain ⟨hresult, -⟩ := romixCompleted_spec herr hchecks hexec
    obtain ⟨hresult', -⟩ := romixCompleted_spec herr' hchecks' hexec'
    rw [hR] at hinput hresult ⊢
    rw [hresult, hresult', hinput, hN]
  case order =>
    intro s order herr hchecks hperm
    have hrange : ∀ i ∈ List.range s.pP, checkRomix i s = none := fun i hi => hchecks i (List.mem_range.1 hi)
    obtain ⟨t, hrun, hmixed, hsame⟩ := runLanes_spec (hperm.nodup_iff.2 List.nodup_range) herr fun i hi =>
      hrange i (hperm.mem_iff.1 hi)
    obtain ⟨t', hrun', hmixed', hsame'⟩ := runLanes_spec List.nodup_range herr hrange
    refine ⟨t, t', hrun, hrun', fun a => ?_⟩
    by_cases hin : ∃ i ∈ order, Place .b (laneOff s.pR i) (slotLen s.pR) .b a
    · obtain ⟨i, hi, -, hlow, hhigh⟩ := hin
      have hlanes := (hmixed i hi).trans (hmixed' i (hperm.mem_iff.1 hi)).symm
      rw [State.readBytes_eq_iff] at hlanes
      have hbyte := hlanes (a - laneOff s.pR i) (by omega)
      rwa [Nat.add_sub_cancel' hlow] at hbyte
    · have hout : ∀ i ∈ order, ¬ Place .b (laneOff s.pR i) (slotLen s.pR) .b a := fun i hi hmem => hin ⟨i, hi, hmem⟩
      rw [hsame a hout, hsame' a fun i hi => hout i (hperm.mem_iff.2 hi)]

end Sys2Proof.Machine
end

section
/-! PROOF. The command PBKDF2 (`spec/43_pbkdf2.md` R166 to R177). -/

namespace Sys2Proof.Machine

/-! ### The three forms (R93, R166) -/

/-- The three forms of PBKDF2, each with its source and its destination. -/
def pbkdf2Forms : List (Instr × Space × Space) := [(.pbkdf2SB, .s, .b), (.pbkdf2SDk, .s, .dk), (.pbkdf2BDk, .b, .dk)]

/-- No form writes the space it reads (R93). -/
theorem pbkdf2Forms_source_ne_destination {form : Instr × Space × Space} (hform : form ∈ pbkdf2Forms) :
    form.2.1 ≠ form.2.2 := by
  fin_cases hform <;> decide

theorem exec_pbkdf2Form {form : Instr × Space × Space} (hform : form ∈ pbkdf2Forms) (s : State) :
    exec form.1 s = runCommand (checkPbkdf2 form.2.1 form.2.2) (effectPbkdf2 form.2.1 form.2.2) s := by
  fin_cases hform <;> rfl

/-- A form whose checks pass is its effect; R168 holds of every OLEN. -/
theorem exec_pbkdf2Form_completes {form : Instr × Space × Space} (hform : form ∈ pbkdf2Forms) {s : State}
    (herr : s.status.err = false) (hkeyed : s.status.keyed = true) (hiter : s.pIter ≠ 0)
    (hslen : s.pSlen ≤ s.cfg.cap form.2.1) (holen : s.pOlen ≤ s.cfg.cap form.2.2) :
    exec form.1 s = .next (effectPbkdf2 form.2.1 form.2.2 s.begin).complete := by
  rw [exec_pbkdf2Form hform]
  exact runCommand_completes herr
    ((checkPbkdf2_eq_none_iff _ _ s).2 ⟨hkeyed, hiter, s.pOlen_le_maxOutLen, hslen, holen⟩)

/-! ### The output (R171, R175) -/

/-- The destination after PBKDF2, read as a whole. -/
theorem pbkdf2_readBytes {src dst : Space} (hne : src ≠ dst) (c outLen : Nat) {s : State} (hbuf : s.mac.buf = []) :
    (s.pbkdf2 src dst c outLen).readBytes dst 0 outLen =
      pbkdf2Out (macFun s.cfg.mac) s.mac.key (s.readBytes src 0 s.pSlen) c outLen := by
  obtain ⟨-, hbytes⟩ := pbkdf2_spec hne c outLen hbuf
  have hread := State.readBytes_eq_of_getD (s := s.pbkdf2 src dst c outLen) (sp := dst) (off := 0)
    (vs := pbkdf2Out (macFun s.cfg.mac) s.mac.key (s.readBytes src 0 s.pSlen) c outLen)
  rw [length_pbkdf2Out] at hread
  refine hread fun k hk => ?_
  rw [Nat.zero_add, hbytes, if_pos ⟨rfl, hk⟩]

/-- Settles O24: the checks pass, so the command is its effect, whose bytes, control part, MAC and working registers the
laws of `State.pbkdf2` give. -/
theorem pbkdf2ComputesItsOutput : Obligations.Pbkdf2ComputesItsOutput := by
  intro form hform s herr hkeyed hbuf hiter hslen holen
  have hne := pbkdf2Forms_source_ne_destination hform
  obtain ⟨hmac, hbytes⟩ := pbkdf2_spec hne s.pIter s.pOlen (s := s.begin) hbuf
  refine ⟨_, exec_pbkdf2Form_completes hform herr hkeyed hiter hslen holen, ?output, ?outside, ?frame, ?work⟩
  case output => exact (complete_readBytes _ _ _ _).trans (pbkdf2_readBytes hne s.pIter s.pOlen (s := s.begin) hbuf)
  case outside =>
    intro sp a houtside
    have hregion : ¬ (sp = form.2.2 ∧ a < s.pOlen) := fun ⟨hsp, ha⟩ => houtside ⟨hsp, a.zero_le, by omega⟩
    exact (complete_readByte _ sp a).trans ((hbytes sp a).trans (if_neg hregion))
  case frame => exact completedFrame_of_sameControl (sameControl_pbkdf2 _ _ _ _ s.begin) hmac
  case work => exact WorkRegs.eq_of_notOfPbkdf2 (pbkdf2_work _ _ _ _ s.begin)

/-- With a count of 1 each block is its first MAC call. -/
theorem pbkdf2Out_one (mac : List Byte → List Byte → Digest) (key salt : List Byte) (outLen : Nat) :
    pbkdf2Out mac key salt 1 outLen =
      ((List.range (outBlocks outLen)).flatMap fun k =>
        (mac key (salt ++ be32Bytes (BitVec.ofNat 32 (k + 1)))).toList).take outLen := rfl

/-- Settles O26: the output of O24 with a count of 1. -/
theorem pbkdf2SingleIteration : Obligations.Pbkdf2SingleIteration := by
  intro form hform s t herr hkeyed hbuf hiter hslen holen hexec
  have hcount : s.pIter ≠ 0 := by omega
  obtain ⟨u, hexec', houtput, -⟩ := pbkdf2ComputesItsOutput form hform s herr hkeyed hbuf hcount hslen holen
  cases hexec.symm.trans hexec'
  rw [houtput, hiter, pbkdf2Out_one]

/-! ### Length 0 (R177) -/

/-- There is no block when OLEN is 0. -/
theorem effectPbkdf2_of_olen_zero (src dst : Space) {s : State} (holen : s.pOlen = 0) : effectPbkdf2 src dst s = s := by
  rw [effectPbkdf2, holen]; rfl

/-- A form whose checks pass and whose OLEN is 0 only starts and ends; 0 is within every capacity. -/
theorem exec_pbkdf2Form_of_olen_zero {i : Instr} {src dst : Space} (hform : (i, src, dst) ∈ pbkdf2Forms) {s : State}
    (herr : s.status.err = false) (hkeyed : s.status.keyed = true) (hiter : s.pIter ≠ 0) (holen : s.pOlen = 0)
    (hslen : s.pSlen ≤ s.cfg.cap src) : exec i s = .next s.begin.complete := by
  have heffect : effectPbkdf2 src dst s.begin = s.begin := effectPbkdf2_of_olen_zero src dst holen
  rw [exec_pbkdf2Form_completes hform herr hkeyed hiter hslen (holen ▸ Nat.zero_le _), heffect]

/-- Settles O27: each form has a destination, and its start and end write STATUS and the position alone. -/
theorem pbkdf2OfLengthZero : Obligations.Pbkdf2OfLengthZero := by
  intro form hform s herr hkeyed hiter holen hslen
  have hdestination : ∃ dst, (form.1, form.2, dst) ∈ pbkdf2Forms := by
    fin_cases hform
    · exact ⟨.b, by decide⟩
    · exact ⟨.dk, by decide⟩
    · exact ⟨.dk, by decide⟩
  obtain ⟨dst, hdst⟩ := hdestination
  exact exec_pbkdf2Form_of_olen_zero hdst herr hkeyed hiter holen hslen

/-! ### The checks (R167, R168) -/

/-- The illegal words of PBKDF2 (R93, R94): O5 names them. -/
theorem decode_illegal_of_pbkdf2Fields {w : Word} (hop : w.toNat % 2 ^ 8 = 0x04)
    (harg : w.toNat / 2 ^ 10 ≠ 0 ∨ w.toNat / 2 ^ 8 = 1) : ∃ why, decode w = .illegal why :=
  (illegalWordsRaiseIllegalCommand.1 w).2 (.inr (.inr (.inr ⟨hop, harg⟩)))

/-- Settles O25: the words are those of O5, and the rows of the table of checks are each reached when those before it do
not fail; a 32-bit OLEN does not fail the third. -/
theorem pbkdf2RaisesInOrder : Obligations.Pbkdf2RaisesInOrder := by
  refine ⟨fun w s hop harg herr => ?illegal, fun form hform s herr => ?checks⟩
  case illegal =>
    obtain ⟨why, hillegal⟩ := decode_illegal_of_pbkdf2Fields hop harg
    rw [cmdWrite_illegal hillegal]
    exact runCommand_raises herr rfl
  case checks =>
    have holen := s.pOlen_le_maxOutLen
    have hraise {code : ErrCode} (hc : checkPbkdf2 form.2.1 form.2.2 s = some code) :
        exec form.1 s = .next (s.raise code) := by
      rw [exec_pbkdf2Form hform, runCommand_raises herr hc]
    refine ⟨exec_pbkdf2_notKeyed (List.mem_map_of_mem (f := Prod.fst) hform) herr,
      fun hkeyed hiter => hraise ?zero, holen, fun hkeyed hiter hcap => hraise ?capacity⟩
    case zero => simp [checkPbkdf2, firstFailure_cons, hkeyed, hiter]
    case capacity => simp [checkPbkdf2, firstFailure_cons, hkeyed, hiter, holen.not_gt, hcap]

end Sys2Proof.Machine
end

section
/-! PROOF. The system commands MACKEY, VALID and CLRERR (`spec/44_system_and_driver.md` R190 to R198). -/

namespace Sys2Proof.Machine

/-! ### The codes of the validator (R193, R196) -/

section validate
variable {max n r p : Nat}

theorem validate_eq_zeroParameter (hn : 2 ≤ n) (hpow : isPow2 n = true) (hzero : r = 0 ∨ p = 0) :
    validate max n r p = .zeroParameter := by
  simp [validate, validateRows, firstFailure_cons, hn.not_gt, hpow, hzero]

theorem validate_eq_nTooLarge (hn : 2 ≤ n) (hpow : isPow2 n = true) (hr : r ≠ 0) (hp : p ≠ 0)
    (hlarge : max < 128 * r * n) : validate max n r p = .nTooLarge := by
  simp [validate, validateRows, firstFailure_cons, hn.not_gt, hpow, hr, hp, hlarge]

theorem validate_eq_rTooLarge (hn : 2 ≤ n) (hpow : isPow2 n = true) (hr : r ≠ 0) (hp : p ≠ 0)
    (hsmall : 128 * r * n ≤ max) (hlarge : max < 128 * r * p) : validate max n r p = .rTooLarge := by
  simp [validate, validateRows, firstFailure_cons, hn.not_gt, hpow, hr, hp, hsmall.not_gt, hlarge]

end validate

/-- Settles O33: 0 and 1 are below 2, 3 is no power of two, and `128·2^24` is above `2^31 − 1`. -/
theorem rejectionExamples : Obligations.RejectionExamples := by
  have hnotPow2 {n : Nat} (hn : ¬ (2 ≤ n ∧ isPow2 n = true)) : (validate (2 ^ 31 - 1) n 1 1).toByte = 0x01#8 := by
    rw [(validate_eq_nNotPow2_iff _ _ _ _).2 hn]; rfl
  have htooLarge {max n r p : Nat} (hr : r ≠ 0) (hp : p ≠ 0) (hn : 2 ≤ n) (hpow : isPow2 n = true)
      (hmax : max < 128 * r * n) : (validate max n r p).toByte = 0x02#8 := by
    rw [validate_eq_nTooLarge hn hpow hr hp hmax]; rfl
  refine ⟨hnotPow2 (by decide), hnotPow2 (by decide), hnotPow2 (by decide), ?large, ?smallest,
    fun _ _ _ _ => htooLarge⟩
  case large => exact htooLarge (by decide) (by decide) (by decide) (isPow2_two_pow 24) (by decide)
  case smallest => rw [(validate_eq_noError_iff _ _ _ _).2 (by decide)]; rfl

/-! ### VALID (R192, R193) -/

theorem exec_valid_raises {s : State} {code : ErrCode} (herr : s.status.err = false)
    (hvalid : validate s.cfg.max s.pN s.pR s.pP = code) (hcode : code ≠ .noError) :
    exec .valid s = .next (s.raise code) :=
  runCommand_raises herr ((firstFailure_validateRows_eq_some hcode).2 hvalid)

theorem exec_valid_completes {s : State} (herr : s.status.err = false)
    (hvalid : validate s.cfg.max s.pN s.pR s.pP = .noError) : exec .valid s = .next s.complete :=
  runCommand_completes herr ((checkValid_eq_none_iff s).2 hvalid)

/-- Settles O30: the parameters are those the validator accepts. -/
theorem validAcceptsLegalParameters : Obligations.ValidAcceptsLegalParameters := by
  intro s herr hn hpow hr hp hmaxN hmaxP
  exact exec_valid_completes herr
    ((validate_eq_noError_iff _ _ _ _).2 ⟨hn, (isPow2_iff_exists _).2 hpow, hr, hp, hmaxN, hmaxP⟩)

/-- Settles O31: VALID raises what `validate` answers, and each condition, with none before it, gives its code. -/
theorem validRaisesTheFirstFailure : Obligations.ValidRaisesTheFirstFailure := by
  refine ⟨fun s herr => ?_, rfl, rfl, rfl, rfl⟩
  simp only [← isPow2_iff_exists]
  refine ⟨fun hn => exec_valid_raises herr ?notPow2 (by decide),
    fun hn hpow hzero => exec_valid_raises herr (validate_eq_zeroParameter hn hpow hzero) (by decide),
    fun hn hpow hr hp hmax => exec_valid_raises herr (validate_eq_nTooLarge hn hpow hr hp hmax) (by decide),
    fun hn hpow hr hp hmaxN hmaxP =>
      exec_valid_raises herr (validate_eq_rTooLarge hn hpow hr hp hmaxN hmaxP) (by decide),
    fun hn hpow hr hp hmaxN hmaxP =>
      exec_valid_completes herr ((validate_eq_noError_iff _ _ _ _).2 ⟨hn, hpow, hr, hp, hmaxN, hmaxP⟩)⟩
  case notPow2 =>
    rw [validate_eq_nNotPow2_iff, not_and_or, Nat.not_le]
    exact hn

/-! ### MACKEY (R190) -/

/-- Settles O28: the checks pass, and the effect reads PW and sets KEYED. -/
theorem mackeyKeysTheMac : Obligations.MackeyKeysTheMac := by
  intro s herr hpresent hlen
  exact runCommand_completes herr ((checkMackey_eq_none_iff s).2 ⟨hpresent, hlen⟩)

/-- Settles O29: the rows of the table of checks, each reached when those before it do not fail. -/
theorem mackeyRaisesInOrder : Obligations.MackeyRaisesInOrder := by
  intro s herr
  have hraise {code : ErrCode} (hc : checkMackey s = some code) : exec .mackey s = .next (s.raise code) :=
    runCommand_raises herr hc
  refine ⟨fun habsent => hraise ?absent, fun hpresent hlen => hraise ?capacity⟩
  case absent => simp [checkMackey, firstFailure_cons, habsent]
  case capacity => simp [checkMackey, firstFailure_cons, hpresent, hlen]

/-! ### CLRERR (R198) -/

/-- Settles O34: CLRERR starts, clears the two fields, and ends, in every state. -/
theorem clrerrClearsTheError : Obligations.ClrerrClearsTheError := exec_clrerr

end Sys2Proof.Machine
end

section
/-! PROOF. A part of a host procedure that runs through, and a part that ends with the code of the command that raised
(`spec/44_system_and_driver.md` R200, R203). -/

namespace Sys2Proof.Machine

/-! ### Parts of a procedure -/

/-- The lines `ops` all run from `s` to `t`, reading no buffer byte. -/
def Runs (ops : List HostOp) (s t : State) : Prop :=
  ∀ rest read, runHost (ops ++ rest) read s = runHost rest read t

/-- The procedure ends within the lines `ops` with this code, in `t`. -/
def Reports (ops : List HostOp) (s : State) (code : Byte) (t : State) : Prop :=
  ∀ rest read, runHost (ops ++ rest) read s = .error code t

section parts
variable {l m : List HostOp} {s t u : State} {code : Byte}

theorem Runs.nil (s : State) : Runs [] s s := fun _ _ => rfl

theorem Runs.append (h : Runs l s t) (k : Runs m t u) : Runs (l ++ m) s u := fun rest read => by
  rw [List.append_assoc, h, k]

theorem Runs.cons {op : HostOp} (h : Runs [op] s t) (k : Runs m t u) : Runs (op :: m) s u := h.append k

theorem Runs.reports (h : Runs l s t) (k : Reports m t code u) : Reports (l ++ m) s code u := fun rest read => by
  rw [List.append_assoc, h, k]

/-- Nothing further is issued. -/
theorem Reports.append (h : Reports l s code t) (m : List HostOp) : Reports (l ++ m) s code t := fun rest read => by
  rw [List.append_assoc, h]

end parts

/-! ### Single lines -/

/-- The host has read STATUS after a command. -/
def State.polled (s : State) : State := s.answer (.word s.status.toWord)

/-- What the host learns from STATUS: the code, if ERR is 1. -/
theorem replyError_polled (s : State) :
    replyError s.polled = if s.status.err then some s.status.errcode.toByte else none := by
  obtain ⟨-, -, herr, -, -, hcode, -⟩ := statusLayout s.status
  simp only [replyError, State.polled, State.answer, herr, hcode]

theorem runs_write (reg : HostReg) {v : Nat} {s : State} (hreg : reg ≠ .cmd) (hv : v < 2 ^ 32)
    (hbusy : s.status.busy = false) : Runs [.write reg.offset v] s (s.writeReg reg (BitVec.ofNat 32 v)) :=
  fun _ _ => runHost_write hv hbusy (regAt_offset reg) hreg

theorem runs_ld {sp : Space} {off : Nat} {vs : List Byte} {s : State} (hbusy : s.status.busy = false)
    (hcap : off + vs.length ≤ s.cfg.cap sp) : Runs (ld sp off vs) s (s.writeBytes sp off vs) := fun rest read => by
  rw [runHost_append, runHost_ld sp vs off s read hbusy hcap]

section command
variable {i : Instr} {s : State} (hwf : i.wellFormed = true) (hbusy : s.status.busy = false)
include hwf hbusy

/-- A command, then a read of STATUS: the host goes on, or stops with the code. -/
theorem runHost_command_polled {t : State} (hexec : exec i s = .next t) (rest : List HostOp) (read : List Byte) :
    runHost (.command i :: rest) read s =
      (replyError t.polled).elim (runHost rest read t.polled) fun code => .error code t.polled := by
  rw [runHost_command hwf (decodeOfEncodeGivesTheInstruction i hwf) hbusy hexec, ← State.polled]
  cases replyError t.polled <;> rfl

theorem runs_command {t : State} (hexec : exec i s = .next t) (herr : t.status.err = false) :
    Runs [.command i] s t.polled := fun rest read =>
  (runHost_command_polled hwf hbusy hexec rest read).trans (by rw [replyError_polled, herr]; rfl)

theorem reports_command {code : ErrCode} (hexec : exec i s = .next (s.raise code)) :
    Reports [.command i] s code.toByte (s.raise code).polled := fun rest read =>
  (runHost_command_polled hwf hbusy hexec rest read).trans (by rw [replyError_polled]; rfl)

end command

/-- `ST` reads the bytes of the space and changes nothing but the reply. -/
theorem runHost_st {sp : Space} {n : Nat} {s : State} (read : List Byte) (hbusy : s.status.busy = false)
    (hcap : n ≤ s.cfg.cap sp) :
    ∃ reply, runHost (st sp n) read s = .finished (read ++ s.readBytes sp 0 n) { s with reply := reply } := by
  induction n with
  | zero => exact ⟨s.reply, by simp [st, runHost, State.readBytes]⟩
  | succ n ih =>
    obtain ⟨reply, hread⟩ := ih (Nat.le_of_succ_le hcap)
    have hbyte : hostAccess (.bufRead sp n) { s with reply := reply } =
        .next { s with reply := some (.byte (s.readByte sp n)) } :=
      whenIdle_whenInside (s := { s with reply := reply }) hbusy hcap _
    have hlines : st sp (n + 1) = st sp n ++ [.access (.bufRead sp n)] := by simp [st, List.range_succ]
    refine ⟨some (.byte (s.readByte sp n)), ?_⟩
    rw [hlines, runHost_append, hread]
    simp [runHost, hbyte, replyBytes, State.readBytes, List.range_succ]

end Sys2Proof.Machine
end

section
/-! PROOF. The host procedure DERIVE (`spec/44_system_and_driver.md` R200 to R204), part by part: the lines up to a
command, then the command, which completes or raises. -/

namespace Sys2Proof.Machine

/-! ### The parts (R200) -/

/-- Line 1. -/
def paramLines (n r p : Word) : List HostOp := [.write 0x08 n.toNat, .write 0x0C r.toNat, .write 0x10 p.toNat]

/-- Line 3. -/
def passwordLines (passwd : List Byte) : List HostOp := ld .pw 0 passwd ++ [.write 0x14 passwd.length]

/-- Line 5. -/
def saltLines (salt : List Byte) (r p : Word) : List HostOp :=
  ld .s 0 salt ++ [.write 0x18 salt.length, .write 0x20 1, .write 0x1C (128 * r.toNat * p.toNat)]

/-- Line 7, for the first `k` lanes. -/
def laneLines (k : Nat) : List HostOp := (List.range k).map fun i => .command (.romix i)

/-- Line 8. -/
def outputLines (r p dkLen : Word) : List HostOp :=
  [.write 0x18 (128 * r.toNat * p.toNat), .write 0x1C dkLen.toNat]

theorem deriveScript_eq_parts (passwd salt : List Byte) (n r p dkLen : Word) :
    deriveScript passwd salt n r p dkLen =
      (paramLines n r p ++ [.command .valid]) ++ ((passwordLines passwd ++ [.command .mackey]) ++
        ((saltLines salt r p ++ [.command .pbkdf2SB]) ++ (laneLines p.toNat ++
          ((outputLines r p dkLen ++ [.command .pbkdf2BDk]) ++ st .dk dkLen.toNat)))) := by
  simp [deriveScript, paramLines, passwordLines, saltLines, laneLines, outputLines]

theorem derive_of_ready {s : State} (herr : s.status.err = false) (hbusy : s.status.busy = false)
    (passwd salt : List Byte) (n r p dkLen : Word) :
    derive passwd salt n r p dkLen s = runHost (deriveScript passwd salt n r p dkLen) [] s := by
  rw [derive, herr, hbusy]; rfl

/-! ### What holds between two lines -/

/-- After line 1: the block is ready for a command and has the parameters. -/
structure Driving (c : Config) (n r p : Word) (s : State) : Prop where
  cfg : s.cfg = c
  err : s.status.err = false
  busy : s.status.busy = false
  pN : s.pN = n.toNat
  pR : s.pR = r.toNat
  pP : s.pP = p.toNat

/-- After line 4: the MAC is keyed with the password besides, and no message is pending. -/
structure DrivingKeyed (c : Config) (n r p : Word) (passwd : List Byte) (s : State) : Prop extends Driving c n r p s where
  keyed : s.status.keyed = true
  mac : s.mac = { key := passwd, buf := [] }

section invariant
variable {c : Config} {n r p : Word} {passwd : List Byte} {s t : State}

theorem Driving.writeBytes (h : Driving c n r p s) (sp : Space) (off : Nat) (vs : List Byte) :
    Driving c n r p (s.writeBytes sp off vs) where
  cfg := by rw [State.writeBytes_cfg, h.cfg]
  err := by rw [State.writeBytes_status, h.err]
  busy := by rw [State.writeBytes_status, h.busy]
  pN := (State.pN_congr (State.writeBytes_regs _ _ _ _)).trans h.pN
  pR := (State.pR_congr (State.writeBytes_regs _ _ _ _)).trans h.pR
  pP := (State.pP_congr (State.writeBytes_regs _ _ _ _)).trans h.pP

theorem DrivingKeyed.writeBytes (h : DrivingKeyed c n r p passwd s) (sp : Space) (off : Nat) (vs : List Byte) :
    DrivingKeyed c n r p passwd (s.writeBytes sp off vs) where
  toDriving := h.toDriving.writeBytes sp off vs
  keyed := by rw [State.writeBytes_status, h.keyed]
  mac := by rw [State.writeBytes_mac, h.mac]

theorem Driving.completed (h : Driving c n r p s) (hframe : CompletedFrame s t) : Driving c n r p t.polled where
  cfg := hframe.cfg.trans h.cfg
  err := (congrArg Status.err hframe.status).trans h.err
  busy := congrArg Status.busy hframe.status
  pN := (State.pN_congr hframe.regs).trans h.pN
  pR := (State.pR_congr hframe.regs).trans h.pR
  pP := (State.pP_congr hframe.regs).trans h.pP

theorem DrivingKeyed.completed (h : DrivingKeyed c n r p passwd s) (hframe : CompletedFrame s t) :
    DrivingKeyed c n r p passwd t.polled where
  toDriving := h.toDriving.completed hframe
  keyed := (congrArg Status.keyed hframe.status).trans h.keyed
  mac := hframe.mac.trans h.mac

/-- A command that completes between two lines. -/
theorem DrivingKeyed.runs_command (h : DrivingKeyed c n r p passwd s) {i : Instr} (hwf : i.wellFormed = true)
    (hexec : exec i s = .next t) (hframe : CompletedFrame s t) : Runs [.command i] s t.polled :=
  Machine.runs_command hwf h.busy hexec ((congrArg Status.err hframe.status).trans h.err)

end invariant

/-- A value that fits a register is what the register then holds. -/
theorem toNat_ofNat_of_fits {v : Nat} (h : v < 2 ^ 32) : (BitVec.ofNat 32 v).toNat = v := by
  rw [BitVec.toNat_ofNat, Nat.mod_eq_of_lt h]

/-! ### Lines 1 and 2 -/

/-- The state after line 1. -/
def State.withParams (s : State) (n r p : Word) : State := { s with regs := { s.regs with n := n, r := r, p := p } }

theorem runs_paramLines {s : State} (hbusy : s.status.busy = false) (n r p : Word) :
    Runs (paramLines n r p) s (s.withParams n r p) := by
  have hwrites := (runs_write .n (by decide) n.isLt hbusy).cons
    ((runs_write .r (by decide) r.isLt (by simp [hbusy])).cons
      (runs_write .p (by decide) p.isLt (by simp [hbusy])))
  simp only [BitVec.ofNat_toNat, BitVec.setWidth_eq] at hwrites
  exact hwrites

section valid
variable {s : State} (herr : s.status.err = false) (hbusy : s.status.busy = false) (n r p : Word)
include herr hbusy

theorem runs_valid (hvalid : validate s.cfg.max n.toNat r.toNat p.toNat = .noError) :
    ∃ t, Runs (paramLines n r p ++ [.command .valid]) s t ∧ Driving s.cfg n r p t := by
  have hexec : exec .valid (s.withParams n r p) = .next (s.withParams n r p).complete := exec_valid_completes herr hvalid
  have hrun := runs_command (i := .valid) rfl (s := s.withParams n r p) hbusy hexec herr
  exact ⟨_, (runs_paramLines hbusy n r p).append hrun, rfl, herr, rfl, rfl, rfl, rfl⟩

theorem reports_valid {code : ErrCode} (hvalid : validate s.cfg.max n.toNat r.toNat p.toNat = code)
    (hcode : code ≠ .noError) :
    Reports (paramLines n r p ++ [.command .valid]) s code.toByte ((s.withParams n r p).raise code).polled := by
  have hexec : exec .valid (s.withParams n r p) = .next ((s.withParams n r p).raise code) :=
    exec_valid_raises herr hvalid hcode
  exact (runs_paramLines hbusy n r p).reports (reports_command (s := s.withParams n r p) rfl hbusy hexec)

end valid

/-- Settles O56: line 2 raises before any buffer or the MAC is touched. -/
theorem deriveReportsBadParametersFirst : Obligations.DeriveReportsBadParametersFirst := by
  intro passwd salt n r p dkLen s code herr hbusy hvalid hcode
  refine ⟨((s.withParams n r p).raise code).polled, ?_, rfl, rfl⟩
  rw [derive_of_ready herr hbusy, deriveScript_eq_parts]
  exact reports_valid herr hbusy n r p hvalid hcode _ _

/-! ### The lanes of B -/

/-- B is the row of its lanes. -/
theorem readBytes_eq_lanes (s : State) (r p : Nat) :
    s.readBytes .b 0 (slotLen r * p) =
      (List.range p).flatMap fun i => s.readBytes .b (laneOff r i) (slotLen r) := by
  induction p with
  | zero => rfl
  | succ p ih =>
    rw [List.range_succ, List.flatMap_append, ← ih, List.flatMap_singleton]
    simp [State.readBytes, Nat.mul_succ, List.range_add, laneOff, Nat.mul_comm]

/-- A lane of what was read is the lane read. -/
theorem laneAt_readBytes (s : State) {r p i : Nat} (hi : i < p) :
    laneAt r (s.readBytes .b 0 (slotLen r * p)) i = s.readBytes .b (laneOff r i) (slotLen r) := by
  have hin : laneOff r i + slotLen r ≤ slotLen r * p := by
    rw [laneOff, ← Nat.succ_mul, Nat.mul_comm]; exact Nat.mul_le_mul_left _ hi
  apply List.ext_getElem
  · simp [laneAt]; omega
  · intro k h1 h2
    simp [laneAt, State.readBytes]

section derivation
variable {c : Config} {n r p : Word} {passwd salt : List Byte} {s : State}

/-! ### Lines 3 and 4 -/

theorem runs_passwordLines (h : Driving c n r p s) (hcap : passwd.length ≤ c.capPw) (hlen : passwd.length < 2 ^ 32) :
    ∃ t, Runs (passwordLines passwd) s t ∧ Driving c n r p t ∧ t.pPlen = passwd.length ∧
      t.readBytes .pw 0 passwd.length = passwd := by
  have h1 := h.writeBytes .pw 0 passwd
  have hload : Runs (ld .pw 0 passwd) s (s.writeBytes .pw 0 passwd) :=
    runs_ld h.busy (by rw [h.cfg, Nat.zero_add]; exact hcap)
  have hwrite := runs_write .plen (by decide) hlen h1.busy
  exact ⟨_, hload.append hwrite, ⟨h1.cfg, h1.err, h1.busy, h1.pN, h1.pR, h1.pP⟩, toNat_ofNat_of_fits hlen,
    State.readBytes_writeBytes_same s .pw 0 passwd⟩

theorem runs_mackey (h : Driving c n r p s) (hpresent : c.macPresent = true) (hcap : passwd.length ≤ c.capPw)
    (hlen : passwd.length < 2 ^ 32) :
    ∃ t, Runs (passwordLines passwd ++ [.command .mackey]) s t ∧ DrivingKeyed c n r p passwd t := by
  obtain ⟨u, hlines, hu, hplen, hpw⟩ := runs_passwordLines h hcap hlen
  have hexec := mackeyKeysTheMac u hu.err (by rw [hu.cfg, hpresent]) (by rw [hu.cfg, hplen]; exact hcap)
  rw [hplen, hpw] at hexec
  exact ⟨_, hlines.append (runs_command rfl hu.busy hexec hu.err), ⟨hu.cfg, hu.err, rfl, hu.pN, hu.pR, hu.pP⟩, rfl,
    rfl⟩

theorem reports_mackey (h : Driving c n r p s) (habsent : c.macPresent = false) (hcap : passwd.length ≤ c.capPw)
    (hlen : passwd.length < 2 ^ 32) :
    ∃ t, Reports (passwordLines passwd ++ [.command .mackey]) s 0x10#8 t := by
  obtain ⟨u, hlines, hu, -⟩ := runs_passwordLines h hcap hlen
  have hexec := (mackeyRaisesInOrder u hu.err).1 (by rw [hu.cfg, habsent])
  exact ⟨_, hlines.reports (reports_command rfl hu.busy hexec)⟩

/-! ### Lines 5 and 6 -/

theorem runs_saltLines (h : DrivingKeyed c n r p passwd s) (hcap : salt.length ≤ c.capS) (hlen : salt.length < 2 ^ 32)
    (hfits : 128 * r.toNat * p.toNat < 2 ^ 32) :
    ∃ t, Runs (saltLines salt r p) s t ∧ DrivingKeyed c n r p passwd t ∧ t.pSlen = salt.length ∧ t.pIter = 1 ∧
      t.pOlen = 128 * r.toNat * p.toNat ∧ t.readBytes .s 0 salt.length = salt := by
  have h1 := h.writeBytes .s 0 salt
  have hload : Runs (ld .s 0 salt) s (s.writeBytes .s 0 salt) :=
    runs_ld h.busy (by rw [h.cfg, Nat.zero_add]; exact hcap)
  have hwrites := (runs_write .slen (by decide) hlen h1.busy).cons
    ((runs_write .iter (v := 1) (by decide) (by decide) (by simp [h.busy])).cons
      (runs_write .olen (by decide) hfits (by simp [h.busy])))
  exact ⟨_, hload.append hwrites, ⟨⟨h1.cfg, h1.err, h1.busy, h1.pN, h1.pR, h1.pP⟩, h1.keyed, h1.mac⟩,
    toNat_ofNat_of_fits hlen, rfl, toNat_ofNat_of_fits hfits, State.readBytes_writeBytes_same s .s 0 salt⟩

theorem runs_pbkdf2SB (h : DrivingKeyed c n r p passwd s) (hcap : salt.length ≤ c.capS) (hlen : salt.length < 2 ^ 32)
    (hfits : 128 * r.toNat * p.toNat < 2 ^ 32) (hcapB : 128 * r.toNat * p.toNat ≤ c.capB) :
    ∃ t, Runs (saltLines salt r p ++ [.command .pbkdf2SB]) s t ∧ DrivingKeyed c n r p passwd t ∧ t.pIter = 1 ∧
      t.readBytes .b 0 (128 * r.toNat * p.toNat) =
        pbkdf2Out (macFun c.mac) passwd salt 1 (128 * r.toNat * p.toNat) := by
  obtain ⟨u, hlines, hu, hslen, hiter, holen, hsalt⟩ := runs_saltLines h hcap hlen hfits
  obtain ⟨t, hexec, hB, -, hframe, -⟩ := pbkdf2ComputesItsOutput (.pbkdf2SB, .s, .b) (by decide) u hu.err hu.keyed
    (by rw [hu.mac]) (by rw [hiter]; decide) (by rw [hu.cfg, hslen]; exact hcap) (by rw [hu.cfg, holen]; exact hcapB)
  rw [holen, hslen, hiter, hsalt, hu.cfg, hu.mac] at hB
  exact ⟨_, hlines.append (hu.runs_command rfl hexec hframe), hu.completed hframe,
    (State.pIter_congr hframe.regs).trans hiter, hB⟩

theorem reports_pbkdf2SB (h : DrivingKeyed c n r p passwd s) (hcap : salt.length ≤ c.capS) (hlen : salt.length < 2 ^ 32)
    (hfits : 128 * r.toNat * p.toNat < 2 ^ 32) (hcapB : c.capB < 128 * r.toNat * p.toNat) :
    ∃ t, Reports (saltLines salt r p ++ [.command .pbkdf2SB]) s 0x22#8 t := by
  obtain ⟨u, hlines, hu, hslen, hiter, holen, -⟩ := runs_saltLines h hcap hlen hfits
  obtain ⟨-, -, -, hraise⟩ := pbkdf2RaisesInOrder.2 (.pbkdf2SB, .s, .b) (by decide) u hu.err
  have hexec := hraise hu.keyed (by rw [hiter]; decide) (.inr (by rw [hu.cfg, holen]; exact hcapB))
  exact ⟨_, hlines.reports (reports_command rfl hu.busy hexec)⟩

/-! ### Line 7 -/

/-- The checks of a lane. -/
theorem DrivingKeyed.checkRomix_eq_none (h : DrivingKeyed c n r p passwd s)
    (hvalid : validate c.max n.toNat r.toNat p.toNat = .noError) (hcapB : 128 * r.toNat * p.toNat ≤ c.capB)
    (hcapV : 128 * r.toNat * n.toNat ≤ c.capV) (hcapXy : 256 * r.toNat ≤ c.capXy) {i : Nat} (hi : i < p.toNat) :
    checkRomix i s = none := by
  rw [checkRomix_eq_none_iff, h.cfg, h.pN, h.pR, h.pP]
  exact ⟨hvalid, hi, hcapB, hcapV, by rw [slotLen]; omega⟩

/-- The first `k` lanes are mixed, the later ones are as they were. -/
theorem runs_laneLines_each (h : DrivingKeyed c n r p passwd s)
    (hchecks : ∀ u, DrivingKeyed c n r p passwd u → ∀ i < p.toNat, checkRomix i u = none) (hp : p.toNat ≤ 2 ^ 24)
    {k : Nat} (hk : k ≤ p.toNat) :
    ∃ t, Runs (laneLines k) s t ∧ DrivingKeyed c n r p passwd t ∧ t.pIter = s.pIter ∧
      ∀ i, t.readBytes .b (laneOff r.toNat i) (slotLen r.toNat) =
        if i < k then romixLane r.toNat n.toNat (s.readBytes .b (laneOff r.toNat i) (slotLen r.toNat))
        else s.readBytes .b (laneOff r.toNat i) (slotLen r.toNat) := by
  induction k with
  | zero => exact ⟨s, Runs.nil s, h, rfl, fun i => (if_neg i.not_lt_zero).symm⟩
  | succ k ih =>
    obtain ⟨u, hrun, hu, hiter, hlanes⟩ := ih (Nat.le_of_succ_le hk)
    have hcheck := hchecks u hu k hk
    have hexec := exec_romix hu.err hcheck
    generalize (u.begin.romix k u.pN u.pR).complete = t at hexec
    obtain ⟨hlane, -, -, -, hframe⟩ := romixCompleted_spec hu.err hcheck hexec
    have hwf : (Instr.romix k).wellFormed = true := (wellFormed_iff_arg_lt _).2 (Nat.lt_of_lt_of_le hk hp)
    have hlines : laneLines (k + 1) = laneLines k ++ [.command (.romix k)] := by simp [laneLines, List.range_succ]
    have hother {i : Nat} (hi : i ≠ k) := readBytes_otherLane hi hexec
    rw [hu.pR] at hlane hother
    refine ⟨_, hlines ▸ hrun.append (hu.runs_command hwf hexec hframe), hu.completed hframe,
      (State.pIter_congr hframe.regs).trans hiter, fun i => ?_⟩
    rcases lt_trichotomy i k with hi | rfl | hi
    · exact (hother hi.ne).trans (by rw [hlanes, if_pos hi, if_pos (by omega)])
    · exact hlane.trans (by rw [hlanes, hu.pN, if_neg (lt_irrefl _), if_pos (by omega)])
    · exact (hother hi.ne').trans (by rw [hlanes, if_neg (by omega), if_neg (by omega)])

/-- Line 7 mixes every lane of B (R202). -/
theorem runs_laneLines (h : DrivingKeyed c n r p passwd s)
    (hvalid : validate c.max n.toNat r.toNat p.toNat = .noError) (hcapB : 128 * r.toNat * p.toNat ≤ c.capB)
    (hcapV : 128 * r.toNat * n.toNat ≤ c.capV) (hcapXy : 256 * r.toNat ≤ c.capXy) (hp : p.toNat ≤ 2 ^ 24) :
    ∃ t, Runs (laneLines p.toNat) s t ∧ DrivingKeyed c n r p passwd t ∧ t.pIter = s.pIter ∧
      t.readBytes .b 0 (128 * r.toNat * p.toNat) =
        mixLanes n.toNat r.toNat p.toNat (s.readBytes .b 0 (128 * r.toNat * p.toNat)) := by
  obtain ⟨t, hrun, ht, hiter, hlanes⟩ := runs_laneLines_each h
    (fun u hu i hi => hu.checkRomix_eq_none hvalid hcapB hcapV hcapXy hi) hp le_rfl
  refine ⟨t, hrun, ht, hiter, (readBytes_eq_lanes t r.toNat p.toNat).trans (List.flatMap_congr fun i hi => ?_)⟩
  have hi : i < p.toNat := List.mem_range.1 hi
  rw [hlanes, if_pos hi, ← slotLen, laneAt_readBytes s hi]

theorem reports_laneLines (h : DrivingKeyed c n r p passwd s)
    (hvalid : validate c.max n.toNat r.toNat p.toNat = .noError)
    (hcap : c.capV < 128 * r.toNat * n.toNat ∨ c.capXy < 256 * r.toNat) :
    ∃ t, Reports (laneLines p.toNat) s 0x22#8 t := by
  obtain ⟨-, -, -, hp, -⟩ := (validate_eq_noError_iff _ _ _ _).1 hvalid
  obtain ⟨k, hk⟩ := Nat.exists_eq_succ_of_ne_zero hp
  have hlines : laneLines p.toNat = [.command (.romix 0)] ++ (List.range k).map fun i => .command (.romix (i + 1)) := by
    simp [laneLines, hk, List.range_succ_eq_map]
  obtain ⟨-, -, hraise⟩ := romixRaisesInOrder 0 s h.err
  rw [h.cfg, h.pN, h.pR, h.pP] at hraise
  have hexec := hraise hvalid (Nat.pos_of_ne_zero hp) (.inr (hcap.imp_right fun hXy => by rw [slotLen]; omega))
  exact ⟨_, hlines ▸ (reports_command rfl h.busy hexec).append _⟩

/-! ### Lines 8 and 9 -/

theorem runs_outputLines (h : DrivingKeyed c n r p passwd s) (hfits : 128 * r.toNat * p.toNat < 2 ^ 32)
    (dkLen : Word) :
    ∃ t, Runs (outputLines r p dkLen) s t ∧ DrivingKeyed c n r p passwd t ∧ t.pIter = s.pIter ∧
      t.pSlen = 128 * r.toNat * p.toNat ∧ t.pOlen = dkLen.toNat ∧
      ∀ len, t.readBytes .b 0 len = s.readBytes .b 0 len := by
  have hwrites := (runs_write .slen (by decide) hfits h.busy).cons
    (runs_write .olen (by decide) dkLen.isLt (by simp [h.busy]))
  exact ⟨_, hwrites, ⟨⟨h.cfg, h.err, h.busy, h.pN, h.pR, h.pP⟩, h.keyed, h.mac⟩, rfl, toNat_ofNat_of_fits hfits,
    toNat_ofNat_of_fits dkLen.isLt, fun _ => rfl⟩

theorem runs_pbkdf2BDk (h : DrivingKeyed c n r p passwd s) (hiter : s.pIter = 1)
    (hfits : 128 * r.toNat * p.toNat < 2 ^ 32) (hcapB : 128 * r.toNat * p.toNat ≤ c.capB) {dkLen : Word}
    (hcapDk : dkLen.toNat ≤ c.capDk) :
    ∃ t, Runs (outputLines r p dkLen ++ [.command .pbkdf2BDk]) s t ∧ DrivingKeyed c n r p passwd t ∧
      t.readBytes .dk 0 dkLen.toNat =
        pbkdf2Out (macFun c.mac) passwd (s.readBytes .b 0 (128 * r.toNat * p.toNat)) 1 dkLen.toNat := by
  obtain ⟨u, hlines, hu, hiter', hslen, holen, hB⟩ := runs_outputLines h hfits dkLen
  rw [hiter] at hiter'
  obtain ⟨t, hexec, hDk, -, hframe, -⟩ := pbkdf2ComputesItsOutput (.pbkdf2BDk, .b, .dk) (by decide) u hu.err hu.keyed
    (by rw [hu.mac]) (by rw [hiter']; decide) (by rw [hu.cfg, hslen]; exact hcapB) (by rw [hu.cfg, holen]; exact hcapDk)
  rw [holen, hslen, hiter', hB, hu.cfg, hu.mac] at hDk
  exact ⟨_, hlines.append (hu.runs_command rfl hexec hframe), hu.completed hframe, hDk⟩

theorem reports_pbkdf2BDk (h : DrivingKeyed c n r p passwd s) (hiter : s.pIter = 1)
    (hfits : 128 * r.toNat * p.toNat < 2 ^ 32) {dkLen : Word} (hcapDk : c.capDk < dkLen.toNat) :
    ∃ t, Reports (outputLines r p dkLen ++ [.command .pbkdf2BDk]) s 0x22#8 t := by
  obtain ⟨u, hlines, hu, hiter', -, holen, -⟩ := runs_outputLines h hfits dkLen
  obtain ⟨-, -, -, hraise⟩ := pbkdf2RaisesInOrder.2 (.pbkdf2BDk, .b, .dk) (by decide) u hu.err
  have hexec := hraise hu.keyed (by rw [hiter', hiter]; decide) (.inr (by rw [hu.cfg, holen]; exact hcapDk))
  exact ⟨_, hlines.reports (reports_command rfl hu.busy hexec)⟩

end derivation

/-! ### The whole procedure (R202, R203) -/

/-- Settles O55: the parts run one after another, and what each leaves in B and DK is the next step of `scrypt`. -/
theorem deriveComputesScrypt : Obligations.DeriveComputesScrypt := by
  intro passwd salt n r p dkLen s herr hbusy hpresent hvalid hfits hcapPw hcapS hcapB hcapV hcapXy hcapDk
  simp only [deriveFits, Bool.and_eq_true, decide_eq_true_eq] at hfits
  obtain ⟨⟨⟨hfitsB, hp⟩, hpasswd⟩, hsalt⟩ := hfits
  obtain ⟨s1, hrun1, h1⟩ := runs_valid herr hbusy n r p hvalid
  obtain ⟨s2, hrun2, h2⟩ := runs_mackey h1 hpresent hcapPw hpasswd
  obtain ⟨s3, hrun3, h3, hiter3, hB⟩ := runs_pbkdf2SB h2 hcapS hsalt hfitsB hcapB
  obtain ⟨s4, hrun4, h4, hiter4, hB'⟩ := runs_laneLines h3 hvalid hcapB hcapV hcapXy hp
  obtain ⟨s5, hrun5, h5, hDk⟩ := runs_pbkdf2BDk h4 (hiter4.trans hiter3) hfitsB hcapB hcapDk
  obtain ⟨reply, hst⟩ := runHost_st [] h5.busy (n := dkLen.toNat) (sp := .dk) (by rw [h5.cfg]; exact hcapDk)
  refine ⟨{ s5 with reply := reply }, ?_⟩
  rw [derive_of_ready herr hbusy, deriveScript_eq_parts, hrun1, hrun2, hrun3, hrun4, hrun5, hst, List.nil_append, hDk,
    hB', hB, scrypt]

/-- Settles O57: the parts before the failing command run, and the part of that command reports its code. -/
theorem deriveReportsTheFailingCommand : Obligations.DeriveReportsTheFailingCommand := by
  intro passwd salt n r p dkLen s herr hbusy hvalid hcapPw hpasswd
  obtain ⟨s1, hrun1, h1⟩ := runs_valid herr hbusy n r p hvalid
  rw [derive_of_ready herr hbusy, deriveScript_eq_parts, hrun1]
  refine ⟨fun habsent => ?mackey, fun hpresent hcapS hsalt hfitsB => ?keyed⟩
  case mackey =>
    obtain ⟨t, hreport⟩ := reports_mackey h1 habsent hcapPw hpasswd
    exact ⟨t, hreport _ _⟩
  case keyed =>
    obtain ⟨s2, hrun2, h2⟩ := runs_mackey h1 hpresent hcapPw hpasswd
    rw [hrun2]
    refine ⟨fun hcapB => ?expand, fun hcapB hcap => ?lane, fun hcapB hcapV hcapXy hp hcapDk => ?compress⟩
    case expand =>
      obtain ⟨t, hreport⟩ := reports_pbkdf2SB h2 hcapS hsalt hfitsB hcapB
      exact ⟨t, hreport _ _⟩
    case lane =>
      obtain ⟨s3, hrun3, h3, -⟩ := runs_pbkdf2SB h2 hcapS hsalt hfitsB hcapB
      obtain ⟨t, hreport⟩ := reports_laneLines h3 hvalid hcap
      rw [hrun3]
      exact ⟨t, hreport _ _⟩
    case compress =>
      obtain ⟨s3, hrun3, h3, hiter3, -⟩ := runs_pbkdf2SB h2 hcapS hsalt hfitsB hcapB
      obtain ⟨s4, hrun4, h4, hiter4, -⟩ := runs_laneLines h3 hvalid hcapB hcapV hcapXy hp
      obtain ⟨t, hreport⟩ := reports_pbkdf2BDk h4 (hiter4.trans hiter3) hfitsB hcapDk
      rw [hrun3, hrun4]
      exact ⟨t, hreport _ _⟩

end Sys2Proof.Machine
end

section
/-! PROOF. The MAC collaborator (`spec/47_hmac_sha256_collaborator.md` R222, R223, R226, R233): its operations on the
block, and the check values of SHA-256 and HMAC-SHA256. -/

namespace Sys2Proof.Machine

/-! ### The operations of the MAC (R222, R223) -/

@[simp] theorem MacState.update_nil (m : MacState) : m.update [] = m := by
  simp [MacState.update]

@[simp] theorem macUpdate_nil (s : State) : s.macUpdate [] = s := by
  rw [State.macUpdate, MacState.update_nil, State.setMac]

/-- Settles O52: an update appends to the message, and `finalize` writes U and the message alone. -/
theorem macUpdatesAndFinalize : Obligations.MacUpdatesAndFinalize := by
  intro s a b
  have hresult : s.macFinalize.work.u = macFun s.cfg.mac s.mac.key s.mac.buf := by
    rw [State.macFinalize_work, MacState.result]
  exact ⟨s.macUpdate_mac a, macUpdate_macUpdate s a b, macUpdate_nil s, hresult, s.macFinalize_mac, s.macFinalize_mem,
    s.macFinalize_regs, s.macFinalize_status⟩

/-! ### Check values (R233) -/

theorem sha256_empty :
    (sha256 []).toList.map BitVec.toNat =
      [0xe3, 0xb0, 0xc4, 0x42, 0x98, 0xfc, 0x1c, 0x14, 0x9a, 0xfb, 0xf4, 0xc8, 0x99, 0x6f, 0xb9, 0x24,
       0x27, 0xae, 0x41, 0xe4, 0x64, 0x9b, 0x93, 0x4c, 0xa4, 0x95, 0x99, 0x1b, 0x78, 0x52, 0xb8, 0x55] := by
  decide +kernel

theorem sha256_abc :
    (sha256 [0x61, 0x62, 0x63]).toList.map BitVec.toNat =
      [0xba, 0x78, 0x16, 0xbf, 0x8f, 0x01, 0xcf, 0xea, 0x41, 0x41, 0x40, 0xde, 0x5d, 0xae, 0x22, 0x23,
       0xb0, 0x03, 0x61, 0xa3, 0x96, 0x17, 0x7a, 0x9c, 0xb4, 0x10, 0xff, 0x61, 0xf2, 0x00, 0x15, 0xad] := by
  decide +kernel

/-- R226: the inner pass over `Hi There`, whose hash the outer pass takes in. -/
theorem hmacInner_hiThere :
    (sha256 ((hmacBlockKey (List.replicate 20 0x0b)).map (· ^^^ 0x36#8) ++
      [0x48, 0x69, 0x20, 0x54, 0x68, 0x65, 0x72, 0x65])).toList =
      [0x92, 0xab, 0x4d, 0x9a, 0x1f, 0x3b, 0x61, 0x52, 0xbc, 0xa9, 0xdd, 0x9e, 0x69, 0xaf, 0x43, 0xf4,
       0xce, 0x99, 0xe4, 0x2f, 0xd4, 0xe3, 0x0f, 0xf9, 0x72, 0xc4, 0x80, 0x25, 0xb9, 0xf9, 0xcf, 0xef] := by
  decide +kernel

/-- The outer pass, over the inner hash. -/
theorem hmacSha256_hiThere :
    (hmacSha256 (List.replicate 20 0x0b) [0x48, 0x69, 0x20, 0x54, 0x68, 0x65, 0x72, 0x65]).toList.map BitVec.toNat =
      [0xb0, 0x34, 0x4c, 0x61, 0xd8, 0xdb, 0x38, 0x53, 0x5c, 0xa8, 0xaf, 0xce, 0xaf, 0x0b, 0xf1, 0x2b,
       0x88, 0x1d, 0xc2, 0x00, 0xc9, 0x83, 0x3d, 0xa7, 0x26, 0xe9, 0x37, 0x6c, 0x2e, 0x32, 0xcf, 0xf7] := by
  rw [hmacSha256, hmacInner_hiThere]
  decide +kernel

/-- Settles O53: each value is evaluated, that of HMAC pass by pass. -/
theorem shaCheckValues : Obligations.ShaCheckValues :=
  ⟨sha256_empty, sha256_abc, hmacSha256_hiThere⟩

end Sys2Proof.Machine
end
section
/-! PROOF. Errors are precise (`spec/60_exceptions.md` R248, R250). -/

namespace Sys2Proof.Machine

/-- A command that leaves ERR at 1 where it was 0 has raised the code of its first failing check. -/
theorem exec_err_set {i : Instr} {s t : State} (herr : s.status.err = false) (h : exec i s = .next t)
    (ht : t.status.err = true) : ∃ code, checks i s = some code ∧ t = s.raise code := by
  rcases exec_cases h with ⟨-, rfl⟩ | ⟨-, hs, -⟩ | ⟨-, -, hraised⟩ | ⟨hi, -, -, rfl⟩
  · cases ht
  · exact absurd (herr.symm.trans hs) (by decide)
  · exact hraised
  · have hkept : (effects i s.begin).complete.status.err = s.status.err := effects_err hi s.begin
    exact absurd (ht.symm.trans (hkept.trans herr)) (by decide)

/-- Settles O35: `exec_err_set` gives the code of the raise, which is not 0; and no command whose checks pass has one. -/
theorem errorsArePrecise : Obligations.ErrorsArePrecise := by
  refine ⟨?raised, fun _ _ => rfl, ?passed⟩
  case raised =>
    intro i s t herr h ht
    obtain ⟨code, hcode, rfl⟩ := exec_err_set herr h ht
    exact ⟨rfl, checks_ne_noError hcode, hcode⟩
  case passed =>
    intro i s herr hpass
    obtain ⟨t, h⟩ := exec_ends i s
    refine ⟨t, h, Bool.eq_false_iff.2 fun ht => ?_⟩
    obtain ⟨code, hcode, -⟩ := exec_err_set herr h ht
    rw [hpass] at hcode
    cases hcode

end Sys2Proof.Machine
end
